-- ==== Sys2Proof/Word.lean ====
section
/-! DEFINITION. The words of the machine: 32-bit registers, samples and delay slots, 64-bit commands and responses. -/

namespace Sys2Proof

/-- An 8-bit selector field of a command (`A`, `B`, `RSV`) or the opcode (30 R81). -/
abbrev Byte := BitVec 8

/-- An unsigned 32-bit integer (00 R10). -/
abbrev U32 := BitVec 32

/-- A 32-bit pattern read as IEEE 754 binary32 (00 R10, 40 R100). -/
abbrev F32 := BitVec 32

/-- A 64-bit command or response word (30 R80). -/
abbrev Word64 := BitVec 64

/-- A source of free NaN patterns: one pattern for each operation site of a command (40 R108). It is
an argument of the arithmetic, never a field of the state. -/
abbrev NaNs := Nat → F32

end Sys2Proof
end

