-- ==== Sys2Proof/Syntax.lean ====
section
/-! DEFINITION. The abstract syntax: one constructor per row of the opcode table (30 R86), holding the
fields the row's format leaves free (30 R82). -/

namespace Sys2Proof

/-- A command of BJF command set 1. Selectors stay the 8-bit numbers of the encoding (30 R84), since
the checks on them belong to each command and come after its state check (30 R90). -/
inductive Instr where
  /-- `NOP`, format Z (45 R210). -/
  | nop
  /-- `WRP r, v`, format RD: write `v` to register number `r` (45 R211). -/
  | wrp (r : Byte) (v : U32)
  /-- `RDP r`, format R: read register number `r` (45 R214). -/
  | rdp (r : Byte)
  /-- `PREP`, format Z: prepare a session (45 R215). -/
  | prep
  /-- `REL`, format Z: end the session (45 R222). -/
  | rel
  /-- `CLR`, format Z: empty the delay line (45 R224). -/
  | clr
  /-- `BEG n`, format N: open a block of `n` frames (44 R185). -/
  | beg (n : U32)
  /-- `SMP c, x`, format CD: process sample `x` of channel `c` (44 R189). -/
  | smp (c : Byte) (x : F32)
  /-- `TCK`, format Z: end the frame (44 R197). -/
  | tck
  /-- `MOD s, p`, format SD: evaluate waveform shape `s` at phase `p` (41 R137). -/
  | mod (s : Byte) (p : F32)
  /-- `DLY`, format Z: the current delay (41 R139). -/
  | dly
  /-- `POS`, format Z: the current read position (42 R160). -/
  | pos
  /-- `DLW c, v`, format CD: store `v` at the write cursor of channel `c` (42 R152). -/
  | dlw (c : Byte) (v : F32)
  /-- `DLR c, m, p`, format CMD: read channel `c` at position `p` with mode `m` (42 R155). -/
  | dlr (c : Byte) (m : Byte) (p : F32)
  /-- `DLA`, format Z: advance the write cursor (42 R158). -/
  | dla
deriving DecidableEq, Repr

end Sys2Proof
end

