-- ==== Sys2Proof/WellFormed.lean ====
section
/-! DEFINITION. Well-formed instructions: the operands the assembler syntax can name (30 R92, R85; 10 R26).
An ill-formed one still has an encoding and still executes: its command refuses it with `E_REG` or
`E_SEL` (30 R90), or with `E_STATE` before that. -/

namespace Sys2Proof

/-- The register numbers of the map of 10 R26 (20 R64): live and configuration 0x00 to 0x0A, status 0x10
to 0x18, snapshot 0x20 to 0x27, identification 0x30 to 0x32. -/
def regNumberExists (r : Byte) : Bool :=
  let n := r.toNat
  n ≤ 0x0A || (0x10 ≤ n && n ≤ 0x18) || (0x20 ≤ n && n ≤ 0x27) || (0x30 ≤ n && n ≤ 0x32)

/-- The shape selectors of 30 R85. -/
def shapeNumberExists (s : Byte) : Bool := s.toNat ≤ 3

/-- The interpolation mode selectors of 30 R85. -/
def modeNumberExists (m : Byte) : Bool := m.toNat ≤ 2

/-- Every selector of the instruction names something: a register of the map, a shape, a mode. A
channel is any value 0 to 255 (30 R85) and a data operand any 32 bits (30 R84). -/
def Instr.wellFormed : Instr → Bool
  | .nop => true
  | .wrp r _ => regNumberExists r
  | .rdp r => regNumberExists r
  | .prep => true
  | .rel => true
  | .clr => true
  | .beg _ => true
  | .smp _ _ => true
  | .tck => true
  | .mod s _ => shapeNumberExists s
  | .dly => true
  | .pos => true
  | .dlw _ _ => true
  | .dlr _ m _ => modeNumberExists m
  | .dla => true

end Sys2Proof
end

