-- ==== Sys2Proof/Decode.lean ====
section
/-! DEFINITION. The command word: its fields (30 R81), the seven formats and their must-be-zero fields
(30 R82), the opcode map (30 R86), the decoder and the encoder. -/

namespace Sys2Proof

/-- `OPC[63:56]` (30 R81). -/
def opcOf (w : Word64) : Byte := w.extractLsb' 56 8

/-- `A[55:48]` (30 R81). -/
def fieldA (w : Word64) : Byte := w.extractLsb' 48 8

/-- `B[47:40]` (30 R81). -/
def fieldB (w : Word64) : Byte := w.extractLsb' 40 8

/-- `RSV[39:32]` (30 R81). -/
def fieldRsv (w : Word64) : Byte := w.extractLsb' 32 8

/-- `D[31:0]` (30 R81). -/
def fieldD (w : Word64) : U32 := w.extractLsb' 0 32

/-- `OPC << 56 | A << 48 | B << 40 | D` (30 R86), with `RSV` zero. -/
def packWord (opc a b : Byte) (d : U32) : Word64 := opc ++ a ++ b ++ (0 : Byte) ++ d

/-- What the decoder answers: an instruction, or the name of the check the word fails (30 R90). -/
inductive Decoded where
  | instr (i : Instr)
  /-- The opcode is not one of the fifteen: `E_OPC` (30 R88). -/
  | unknownOpcode
  /-- `RSV` or a field the format requires to be zero is not zero: `E_RSV` (30 R89). -/
  | reservedField
deriving DecidableEq, Repr

/-- The operand formats of 30 R82. -/
inductive Format where
  | z | r | rd | n | cd | cmd | sd
deriving DecidableEq, Repr

/-- The must-be-zero fields of each format (30 R82), with `RSV`, which every format requires to be 0. -/
def Format.reservedZero (f : Format) (w : Word64) : Bool :=
  fieldRsv w == 0 &&
  match f with
  | .z => fieldA w == 0 && fieldB w == 0 && fieldD w == 0
  | .r => fieldB w == 0 && fieldD w == 0
  | .rd => fieldB w == 0
  | .n => fieldA w == 0 && fieldB w == 0
  | .cd => fieldB w == 0
  | .cmd => true
  | .sd => fieldB w == 0

/-- The opcode map of 30 R86: the row's format and its instruction with the word's fields. -/
def opcodeRow (w : Word64) : Option (Format × Instr) :=
  match (opcOf w).toNat with
  | 0x00 => some (.z, .nop)
  | 0x01 => some (.rd, .wrp (fieldA w) (fieldD w))
  | 0x02 => some (.r, .rdp (fieldA w))
  | 0x10 => some (.z, .prep)
  | 0x11 => some (.z, .rel)
  | 0x12 => some (.z, .clr)
  | 0x20 => some (.n, .beg (fieldD w))
  | 0x21 => some (.cd, .smp (fieldA w) (fieldD w))
  | 0x22 => some (.z, .tck)
  | 0x30 => some (.sd, .mod (fieldA w) (fieldD w))
  | 0x31 => some (.z, .dly)
  | 0x32 => some (.z, .pos)
  | 0x40 => some (.cd, .dlw (fieldA w) (fieldD w))
  | 0x41 => some (.cmd, .dlr (fieldA w) (fieldB w) (fieldD w))
  | 0x42 => some (.z, .dla)
  | _ => none

/-- The decoder, total on any word: the first two checks of 30 R90, in their order. -/
def decode (w : Word64) : Decoded :=
  match opcodeRow w with
  | none => .unknownOpcode
  | some (f, i) => if f.reservedZero w then .instr i else .reservedField

/-- The encoder: the word of an instruction (30 R86). -/
def encode : Instr → Word64
  | .nop => packWord 0x00 0 0 0
  | .wrp r v => packWord 0x01 r 0 v
  | .rdp r => packWord 0x02 r 0 0
  | .prep => packWord 0x10 0 0 0
  | .rel => packWord 0x11 0 0 0
  | .clr => packWord 0x12 0 0 0
  | .beg n => packWord 0x20 0 0 n
  | .smp c x => packWord 0x21 c 0 x
  | .tck => packWord 0x22 0 0 0
  | .mod s p => packWord 0x30 s 0 p
  | .dly => packWord 0x31 0 0 0
  | .pos => packWord 0x32 0 0 0
  | .dlw c v => packWord 0x40 c 0 v
  | .dlr c m p => packWord 0x41 c m p
  | .dla => packWord 0x42 0 0 0

/-- The word the table numbers `w`, of which it gives `nbits` bits: every command is one 64-bit word
(30 R80), so the table's bit numbers are the word's own; bits at or above `nbits` are 0. -/
def tableWord (nbits w : Nat) : Word64 := BitVec.ofNat 64 (w % 2 ^ nbits)

/-- The instruction the decoder reads from the table's word, none where it refuses. -/
def decodeTableWord (nbits w : Nat) : Option Instr :=
  match decode (tableWord nbits w) with
  | .instr i => some i
  | .unknownOpcode => none
  | .reservedField => none

end Sys2Proof
end

