-- ==== Sys2Proof/Config.lean ====
section
/-! DEFINITION. What an implementation fixes (00 R7) and the free values the spec leaves open. -/

namespace Sys2Proof.Config

/-- `NCH_MAX`, the number of delay-memory banks built (00 R7): the reference value.
DESIGN CHOICE, unsafe for another instance, log 6. -/
def nchMax : Nat := 2

/-- `LMAX`, the number of slots built per bank (00 R7): the reference value.
DESIGN CHOICE, unsafe for another instance, log 6. -/
def lmax : Nat := 8192

/-- `FTZ` (00 R7, 40 R103): the reference value; the arithmetic models both values.
DESIGN CHOICE, unsafe for another instance, log 7. -/
def ftz : Bool := false

/-- The register `ID` (10 R46). -/
def idWord : U32 := 0x424A4631

/-- `EPS_SIN` of 40 R112 is `2 ^ (-epsSinLog)`: the reference instance's `2^-24`.
DESIGN CHOICE, unsafe for another instance, log 5. -/
def epsSinLog : Nat := 24

/-- FREE VALUE: the 32 bits offered as the NaN pattern of one operation (40 R108, 93 U4): the first
argument is the command's draw number, the second the operation's site in the command. Log 4. -/
opaque freeNaN : Nat → Nat → BitVec 32

/-- FREE VALUE: the implementation's sine function (40 R112, 93 U5), any function with the properties `P`; `none`
stands for the reference instance. Log 5. -/
opaque freeSin (P : (F32 → F32) → Prop) : Option {sine : F32 → F32 // P sine}

end Sys2Proof.Config
end

