-- ==== Sys2Proof/Machine/State.lean ====
section
/-! DEFINITION. The state of the block (10 R20), as plain data, and the state after power-on reset (70 R270). -/

namespace Sys2Proof.Machine

/-- No fault exists: the block never halts (00 R17), no command traps on an address (20 R61), and the
spec uses the treatment `fault` for nothing (93). Raised by nobody; that there is no constructor is
safe only because every behaviour the spec describes has a next state. -/
inductive Fault where
deriving DecidableEq, Repr

/-- What a step can refuse. -/
inductive Refusal where
  /-- An instruction with no meaning yet, by its mnemonic. Raised only by an arm of `exec`; no arm
  raises it today. Safe: the machine stops where the hardware goes on. -/
  | notModelled (mnemonic : String)
deriving DecidableEq, Repr

/-- The session state `STATE` (10 R24): three values, the encoding 3 is never taken (93 U10). -/
inductive Session where
  | unprep | idle | block
deriving DecidableEq, Repr

/-- The eight live parameter registers 0x00 to 0x07 (10 R26 to R34). -/
structure Live where
  delayms : F32
  sweep : F32
  speed : F32
  feedback : F32
  mix : F32
  waveform : U32
  interp : U32
  invert : U32
deriving DecidableEq, Repr

/-- The three configuration registers 0x08 to 0x0A (10 R35 to R37). -/
structure Cfg where
  fs : F32
  maxblk : U32
  nch : U32
deriving DecidableEq, Repr

/-- The prepared registers `P_FS`, `P_MAXBLK`, `P_NCH`, `LEN` (10 R40, R42). -/
structure Prepared where
  fs : F32
  maxblk : U32
  nch : U32
  len : U32
deriving DecidableEq, Repr

/-- The eight snapshot registers 0x20 to 0x27 (10 R43 to R45). -/
structure Snapshot where
  base : F32
  sweep : F32
  inc : F32
  fb : F32
  mix : F32
  wave : U32
  interp : U32
  inv : U32
deriving DecidableEq, Repr

/-- A session with nothing prepared (45 R222). -/
def Prepared.zero : Prepared := ⟨0, 0, 0, 0⟩

/-- The snapshot registers as `PREP` and `REL` leave them (45 R215, R222). -/
def Snapshot.zero : Snapshot := ⟨0, 0, 0, 0, 0, 0, 0, 0⟩

/-- The command port (20 R66, 30 R83). These three fields are the MODEL's own: the spec's block keeps
no command (20 R70); they hold the host's side of the port. -/
structure Port where
  /-- The command words the host has delivered and the engine has not executed, oldest first (log 1). -/
  pending : List Word64
  /-- The responses given so far, newest first: one per command (30 R83, log 2). -/
  responses : List Word64
  /-- The number of commands answered: the draw number of the free NaN patterns (40 R108, log 3). -/
  draws : Nat
deriving DecidableEq, Repr

/-- The delay memory `DM` (10 R48): the slots that do not hold `+0.0`, by key, keys strictly rising. -/
abbrev DelayMem := List (Nat × F32)

/-- The state of the block (10 R20), and the command port. -/
structure State where
  session : Session
  blkrem : U32
  err : U32
  live : Live
  cfg : Cfg
  prep : Prepared
  widx : U32
  lfophase : F32
  snap : Snapshot
  dm : DelayMem
  io : Port
deriving DecidableEq, Repr

/-- The state after power-on reset (70 R270, 10 R51). `DM` is unspecified there (93 U2): every slot
reads `+0.0` (DESIGN CHOICE, unsafe, log 8). The port is empty (log 1, log 2). -/
def State.reset : State where
  session := .unprep
  blkrem := 0
  err := 0
  live := ⟨0x40A00000, 0, 0, 0, 0, 0, 0, 0⟩
  cfg := ⟨0, 0, 0⟩
  prep := .zero
  widx := 0
  lfophase := 0
  snap := .zero
  dm := []
  io := ⟨[], [], 0⟩

end Sys2Proof.Machine
end

