-- ==== Sys2Proof/Machine/Flags.lean ====
section
/-! DEFINITION. The only flags of the block: the status codes (60 R240) and the sticky bits of `ERR` (10 R25, R39). -/

namespace Sys2Proof.Machine

/-- The eleven status codes (60 R240). -/
inductive Status where
  | ok | eOpc | eRsv | eState | eReg | eSel | eChan | eRo | eVal | eLen | eCfg
deriving DecidableEq, Repr

/-- The number of a status code, which is also its bit number in `ERR` (60 R240). -/
def Status.code : Status → Nat
  | .ok => 0
  | .eOpc => 1
  | .eRsv => 2
  | .eState => 3
  | .eReg => 4
  | .eSel => 5
  | .eChan => 6
  | .eRo => 7
  | .eVal => 8
  | .eLen => 9
  | .eCfg => 10

/-- The implemented bits of `ERR`: 1 to 10 (10 R39). -/
def errMask : U32 := 0x7FE

/-- `ERR[k] <- 1` (60 R243). -/
def setErr (err : U32) (e : Status) : U32 := err ||| BitVec.ofNat 32 (2 ^ e.code)

/-- `ERR <- ERR and not v`, bits 1 to 10 only (10 R39). -/
def clearErr (err v : U32) : U32 := err &&& ~~~(v &&& errMask)

/-- `ERR` as `RDP` returns it: bits 0 and 31 to 11 read 0 (10 R39, 93 U9). -/
def readErr (err : U32) : U32 := err &&& errMask

end Sys2Proof.Machine
end

