-- ==== Sys2Proof/Machine/Numerics.lean ====
section
/-! DEFINITION. The numerics record `NUM`: binary32 with round to nearest even (40 R100 to R111), computed exactly on
integers. A finite pattern is an integer multiple of `2^-149`; `units` is that integer. An exact
rational is handed to `rndq` as a numerator and a denominator. -/

namespace Sys2Proof.Machine

/-! ## Format (40 R100) -/

/-- `2^149`, the number of units in 1. -/
def one149 : Nat := 2 ^ 149

/-- The biased exponent, bits [30:23]. -/
def expo (a : F32) : Nat := (a.extractLsb' 23 8).toNat

/-- The fraction, bits [22:0]. -/
def fraction (a : F32) : Nat := (a.extractLsb' 0 23).toNat

/-- The sign, bit 31. -/
def signBit (a : F32) : Bool := a.msb

/-- A pattern is finite when its exponent is not 255. -/
def isFinite (a : F32) : Bool := expo a != 255

def isNaN (a : F32) : Bool := expo a == 255 && fraction a != 0

def isInf (a : F32) : Bool := expo a == 255 && fraction a == 0

def isZero (a : F32) : Bool := expo a == 0 && fraction a == 0

def isSubnormal (a : F32) : Bool := expo a == 0 && fraction a != 0

/-- `|val a| * 2^149`: the fraction in the subnormal binade, `(2^23 + m) * 2^(e-1)` in the others. -/
def magUnits (a : F32) : Nat :=
  if expo a = 0 then fraction a else (2 ^ 23 + fraction a) * 2 ^ (expo a - 1)

/-- `val a * 2^149` for a finite pattern. For an infinity the same expression is `±2^277`, beyond every
finite pattern, which is how the comparisons order it (40 R107); a NaN's value is never used. -/
def units (a : F32) : Int := if signBit a then -(magUnits a : Int) else magUnits a

/-- The zero with sign bit `s`. -/
def zeroOf (s : Bool) : F32 := if s then 0x80000000 else 0

/-- The infinity with sign bit `s`. -/
def infOf (s : Bool) : F32 := if s then 0xFF800000 else 0x7F800000

/-! ## Rounding (40 R103) -/

/-- `n / d` rounded to an integer, ties to even. -/
def roundHalfEven (n d : Nat) : Nat :=
  let f := n / d
  let r := n % d
  if 2 * r < d then f else if d < 2 * r then f + 1 else f + f % 2

/-- Bits [30:0] of the pattern nearest to `n / d` units. `k` is how many binades the value lies above
the lowest, `2^k` units its spacing there; the pattern is `k * 2^23` plus the rounded significand,
and overflow stops at the infinity's pattern. -/
def roundMag (n d : Nat) : Nat :=
  let k := Nat.log2 (n / d) - 23
  min (k * 2 ^ 23 + roundHalfEven n (d * 2 ^ k)) 0x7F800000

/-- `FTZ = true`: a subnormal pattern becomes the zero of its sign (40 R103). -/
def flush (ftz : Bool) (a : F32) : F32 := if ftz && isSubnormal a then zeroOf (signBit a) else a

/-- `rndq (n / d)` for either value of `FTZ` (40 R103). A negative value that rounds to zero gives `-0.0`
(DEDUCED from 40 R106, log 11). -/
def rndqFtz (ftz : Bool) (n : Int) (d : Nat) : F32 :=
  let mag := roundMag (n.natAbs * one149) d
  flush ftz (BitVec.ofNat 32 (if n < 0 then 2 ^ 31 + mag else mag))

/-- `rndq (n / d)` (40 R103). -/
def rndq (n : Int) (d : Nat) : F32 := rndqFtz Config.ftz n d

/-! ## Operations (40 R104 to R108)

`nan` is the pattern delivered where the rule says "a NaN". -/

/-- `fadd` (40 R104). -/
def fadd (nan a b : F32) : F32 :=
  if isNaN a || isNaN b then nan
  else if isInf a && isInf b then (if a = b then a else nan)
  else if isInf a then a
  else if isInf b then b
  else
    let x := flush Config.ftz a
    let y := flush Config.ftz b
    let q := units x + units y
    if q = 0 then zeroOf (signBit x && signBit y) else rndq q one149

/-- `fneg` (40 R105). -/
def fneg (a : F32) : F32 := a ^^^ 0x80000000

/-- `fsub` (40 R105). -/
def fsub (nan a b : F32) : F32 := if isNaN b then nan else fadd nan a (fneg b)

/-- `fmul` (40 R106). -/
def fmul (nan a b : F32) : F32 :=
  let s := signBit a ^^ signBit b
  if isNaN a || isNaN b then nan
  else
    let x := flush Config.ftz a
    let y := flush Config.ftz b
    if isInf x || isInf y then (if isZero x || isZero y then nan else infOf s)
    else
      let q := units x * units y
      if q = 0 then zeroOf s else rndq q (one149 * one149)

/-- `flt` (40 R107). -/
def flt (a b : F32) : Bool := !isNaN a && !isNaN b && units a < units b

/-- `fle` (40 R107). -/
def fle (a b : F32) : Bool := !isNaN a && !isNaN b && units a ≤ units b

/-- `feq` (40 R107). -/
def feq (a b : F32) : Bool := !isNaN a && !isNaN b && units a == units b

/-- The pattern of a NaN result: the free value where it is a NaN pattern (40 R108, 93 U4). Every NaN
pattern is reached by some free value, and nothing else is. Log 4. -/
def nanDraw (draw site : Nat) : F32 :=
  let r := Config.freeNaN draw site
  if isNaN r then r else 0x7FC00000

/-! ## Conversions (40 R109, R111) -/

/-- `i2f n` (40 R109). -/
def i2f (n : Nat) : F32 := rndq n 1

/-- `floor (val a)` (40 R109). -/
def floorVal (a : F32) : Int := units a / (one149 : Int)

/-- `rndq (val a - floor (val a))` (40 R109). -/
def fracVal (a : F32) : F32 := rndq (units a % (one149 : Int)) one149

/-- `pmod (t, n) = rndq (val t - n * floor (val t / n))` (40 R111). -/
def pmod (t : F32) (n : Nat) : F32 := rndq (units t % ((n * one149 : Nat) : Int)) one149

/-- `clamp (v, lo, hi)` of a non-NaN `v` (45 R212). -/
def clamp (v lo hi : F32) : F32 := if flt v lo then lo else if flt hi v then hi else v

end Sys2Proof.Machine
end

