-- ==== Sys2Proof/Machine/Operands.lean ====
section
/-! DEFINITION. The operand forms: register numbers (10 R26), shape and mode selectors (30 R85). -/

namespace Sys2Proof.Machine

/-- The registers of 10 R26. -/
inductive Reg where
  | delayms | sweep | speed | feedback | mix | waveform | interp | invert
  | cfgFs | cfgMaxblk | cfgNch
  | status | err | len | widx | lfophase | blkrem | pFs | pMaxblk | pNch
  | sBase | sSweep | sInc | sFb | sMix | sWave | sInterp | sInv
  | id | capNch | capLen
deriving DecidableEq, Repr

/-- The register with a number, none where the number does not exist (10 R26). -/
def Reg.ofNumber (r : Byte) : Option Reg :=
  match r.toNat with
  | 0x00 => some .delayms
  | 0x01 => some .sweep
  | 0x02 => some .speed
  | 0x03 => some .feedback
  | 0x04 => some .mix
  | 0x05 => some .waveform
  | 0x06 => some .interp
  | 0x07 => some .invert
  | 0x08 => some .cfgFs
  | 0x09 => some .cfgMaxblk
  | 0x0A => some .cfgNch
  | 0x10 => some .status
  | 0x11 => some .err
  | 0x12 => some .len
  | 0x13 => some .widx
  | 0x14 => some .lfophase
  | 0x15 => some .blkrem
  | 0x16 => some .pFs
  | 0x17 => some .pMaxblk
  | 0x18 => some .pNch
  | 0x20 => some .sBase
  | 0x21 => some .sSweep
  | 0x22 => some .sInc
  | 0x23 => some .sFb
  | 0x24 => some .sMix
  | 0x25 => some .sWave
  | 0x26 => some .sInterp
  | 0x27 => some .sInv
  | 0x30 => some .id
  | 0x31 => some .capNch
  | 0x32 => some .capLen
  | _ => none

/-- Access `RO` of 10 R26: `WRP` raises `E_RO`. -/
def Reg.readOnly : Reg → Bool
  | .delayms | .sweep | .speed | .feedback | .mix | .waveform | .interp | .invert => false
  | .cfgFs | .cfgMaxblk | .cfgNch => false
  | .err => false
  | .status | .len | .widx | .lfophase | .blkrem | .pFs | .pMaxblk | .pNch => true
  | .sBase | .sSweep | .sInc | .sFb | .sMix | .sWave | .sInterp | .sInv => true
  | .id | .capNch | .capLen => true

/-- The waveform shapes (10 R32). -/
inductive Shape where
  | sine | triangle | square | sawtooth
deriving DecidableEq, Repr

/-- The shape a selector names, none above 3 (30 R85). -/
def Shape.select : Nat → Option Shape
  | 0 => some .sine
  | 1 => some .triangle
  | 2 => some .square
  | 3 => some .sawtooth
  | _ => none

/-- The interpolation modes (10 R33). -/
inductive Mode where
  | linear | quadratic | cubic
deriving DecidableEq, Repr

/-- The mode a selector names, none above 2 (30 R85). -/
def Mode.select : Nat → Option Mode
  | 0 => some .linear
  | 1 => some .quadratic
  | 2 => some .cubic
  | _ => none

/-- The shape of the snapshot register `S_WAVE`, which holds 0 to 3 in every reachable state (10 R45); the
rest is never used (log 12). -/
def snapShape (v : U32) : Shape := (Shape.select v.toNat).getD .sawtooth

/-- The mode of the snapshot register `S_INTERP`, which holds 0 to 2 in every reachable state (10 R45); the
rest is never used (log 12). -/
def snapMode (v : U32) : Mode := (Mode.select v.toNat).getD .cubic

end Sys2Proof.Machine
end

