-- ==== Sys2Proof/Machine/Ops.lean ====
section
/-! DEFINITION. The shared operations: answering a command, refusing one (the block's only exception, 60 R243), the delay
memory (10 R48, 20 R61) and the register map (10 R26). -/

namespace Sys2Proof.Machine

/-- What one step answers. -/
abbrev Result := Host.Outcome State Fault Refusal

/-! ## Responses (30 R83, 60 R243) -/

/-- The response word: `ST` in [39:32], `RD` in [31:0], zero above (30 R83). -/
def responseWord (st : Status) (d : U32) : Word64 := (0 : BitVec 24) ++ BitVec.ofNat 8 st.code ++ d

/-- The port after one response. -/
def Port.answer (io : Port) (st : Status) (d : U32) : Port :=
  { io with responses := responseWord st d :: io.responses, draws := io.draws + 1 }

/-- `respond(st, d)`: complete the command (00 R11). -/
def respond (st : Status) (d : U32) (s : State) : Result := .next { s with io := s.io.answer st d }

/-- `raise E_x`: taking the block's exception. `ERR[k]` is set, the response carries the code and data 0,
no other state changes, and execution goes on with the next command (60 R243). There is nothing to
return from (60 R245). -/
def raise (e : Status) (s : State) : Result := respond e 0 { s with err := setErr s.err e }

/-- The NaN patterns the command of this state draws (40 R108). -/
def nanSource (s : State) : NaNs := nanDraw s.io.draws

/-! ## Delay memory (10 R48) -/

/-- The key of slot `i` of bank `c`; the banks are 8-bit numbers, so no two slots share a key (log 10). -/
def slotKey (c i : Nat) : Nat := i * 256 + c

/-- The word at a key; an unlisted slot reads `+0.0` (log 8). -/
def dmRead : DelayMem → Nat → F32
  | [], _ => 0
  | (k', v) :: m, k => if k' = k then v else dmRead m k

/-- Insert an entry before the first larger key. -/
def dmInsert : DelayMem → Nat → F32 → DelayMem
  | [], k, v => [(k, v)]
  | (k', w) :: m, k, v => if k' < k then (k', w) :: dmInsert m k v else (k, v) :: (k', w) :: m

/-- Write the word at a key, keeping the canonical form: writing `+0.0` unlists the slot. -/
def dmWrite (m : DelayMem) (k : Nat) (v : F32) : DelayMem :=
  let rest := m.filter (fun e => e.1 != k)
  if v = 0 then rest else dmInsert rest k v

/-- The slot of a key is in the session's reachable part: bank below `nch`, slot below `len` (10 R48). -/
def keyReachable (nch len k : Nat) : Bool := k % 256 < nch && k / 256 < len

/-- `for c in 0 .. nch-1: for i in 0 .. len-1: DM[c][i] <- +0.0` (45 R215, R224). -/
def dmZero (m : DelayMem) (nch len : Nat) : DelayMem :=
  m.filter (fun e => !keyReachable nch len e.1)

/-- The canonical form of the delay memory: keys strictly rising, no listed word `+0.0`. -/
def Memory.wf (m : DelayMem) : Bool :=
  match m with
  | [] => true
  | (k, v) :: rest => v != 0 && rest.all (fun e => k < e.1) && Memory.wf rest

/-- `i mod LEN` (40 R114). -/
def slotIndex (s : State) (i : Int) : Nat := (i % (s.prep.len.toNat : Int)).toNat

/-- `MemRead(c, i)` (00 R11). -/
def memRead (s : State) (c : Byte) (i : Int) : F32 := dmRead s.dm (slotKey c.toNat (slotIndex s i))

/-- `MemWrite(c, i, v)` (00 R11). -/
def memWrite (s : State) (c : Byte) (i : Int) (v : F32) : State :=
  { s with dm := dmWrite s.dm (slotKey c.toNat (slotIndex s i)) v }

/-- Channel `c` has a bank in this session: `c < P_NCH` (42 R153). -/
def inSession (s : State) (c : Byte) : Bool := c.toNat < s.prep.nch.toNat

/-- `(WIDX + 1) mod LEN` (42 R158, 44 R197). -/
def nextIndex (s : State) : U32 := BitVec.ofNat 32 ((s.widx.toNat + 1) % s.prep.len.toNat)

/-! ## Register map (10 R26) -/

/-- The encoding of `STATE` (10 R24). -/
def Session.code : Session → U32
  | .unprep => 0
  | .idle => 1
  | .block => 2

/-- The value `RDP` returns (45 R214). -/
def readReg (r : Reg) (s : State) : U32 :=
  match r with
  | .delayms => s.live.delayms
  | .sweep => s.live.sweep
  | .speed => s.live.speed
  | .feedback => s.live.feedback
  | .mix => s.live.mix
  | .waveform => s.live.waveform
  | .interp => s.live.interp
  | .invert => s.live.invert
  | .cfgFs => s.cfg.fs
  | .cfgMaxblk => s.cfg.maxblk
  | .cfgNch => s.cfg.nch
  | .status => s.session.code
  | .err => readErr s.err
  | .len => s.prep.len
  | .widx => s.widx
  | .lfophase => s.lfophase
  | .blkrem => s.blkrem
  | .pFs => s.prep.fs
  | .pMaxblk => s.prep.maxblk
  | .pNch => s.prep.nch
  | .sBase => s.snap.base
  | .sSweep => s.snap.sweep
  | .sInc => s.snap.inc
  | .sFb => s.snap.fb
  | .sMix => s.snap.mix
  | .sWave => s.snap.wave
  | .sInterp => s.snap.interp
  | .sInv => s.snap.inv
  | .id => Config.idWord
  | .capNch => BitVec.ofNat 32 Config.nchMax
  | .capLen => BitVec.ofNat 32 Config.lmax

/-- A float parameter's stored value: none for a NaN, else clamped (45 R212). -/
def clampedParam (v lo hi : F32) : Option U32 := if isNaN v then none else some (clamp v lo hi)

/-- A selector's stored value: none above its maximum (45 R211). -/
def checkedSelector (v : U32) (top : Nat) : Option U32 := if top < v.toNat then none else some v

/-- The value a `WRP` stores in a writable register, none where the value is refused with `E_VAL`
(45 R211, R212). The read-only registers have been refused before (30 R90) and store nothing. -/
def storedValue (r : Reg) (v : U32) (s : State) : Option U32 :=
  match r with
  | .delayms => clampedParam v 0x40A00000 0x41C80000
  | .sweep => clampedParam v 0x00000000 0x3F800000
  | .speed => clampedParam v 0x00000000 0x41200000
  | .feedback => clampedParam v 0x00000000 0x3F7D70A4
  | .mix => clampedParam v 0x00000000 0x3F800000
  | .waveform => checkedSelector v 3
  | .interp => checkedSelector v 2
  | .invert => checkedSelector v 1
  | .cfgFs => some v
  | .cfgMaxblk => some v
  | .cfgNch => some v
  | .err => some (clearErr s.err v)
  | .status | .len | .widx | .lfophase | .blkrem | .pFs | .pMaxblk | .pNch => none
  | .sBase | .sSweep | .sInc | .sFb | .sMix | .sWave | .sInterp | .sInv => none
  | .id | .capNch | .capLen => none

/-- Store a value in a writable register (45 R211); a read-only register is not written (45 R213). -/
def writeReg (r : Reg) (x : U32) (s : State) : State :=
  match r with
  | .delayms => { s with live := { s.live with delayms := x } }
  | .sweep => { s with live := { s.live with sweep := x } }
  | .speed => { s with live := { s.live with speed := x } }
  | .feedback => { s with live := { s.live with feedback := x } }
  | .mix => { s with live := { s.live with mix := x } }
  | .waveform => { s with live := { s.live with waveform := x } }
  | .interp => { s with live := { s.live with interp := x } }
  | .invert => { s with live := { s.live with invert := x } }
  | .cfgFs => { s with cfg := { s.cfg with fs := x } }
  | .cfgMaxblk => { s with cfg := { s.cfg with maxblk := x } }
  | .cfgNch => { s with cfg := { s.cfg with nch := x } }
  | .err => { s with err := x }
  | .status | .len | .widx | .lfophase | .blkrem | .pFs | .pMaxblk | .pNch => s
  | .sBase | .sSweep | .sInc | .sFb | .sMix | .sWave | .sInterp | .sInv => s
  | .id | .capNch | .capLen => s

end Sys2Proof.Machine
end

