-- ==== Sys2Proof/Machine/CommandPort.lean ====
section
/-! DEFINITION. The command port (20 R66, R67): how the next command word reaches the engine, and what happens to a word
that is no command. -/

namespace Sys2Proof.Machine

/-- Take the oldest pending word from the port, none where the host has delivered nothing more. -/
def takeCommand (s : State) : Option (Word64 × State) :=
  match s.io.pending with
  | [] => none
  | w :: rest => some (w, { s with io := { s.io with pending := rest } })

/-- A word with an unknown opcode raises `E_OPC`; its other fields are not examined (30 R88, 60 R247). -/
def refuseOpcode (s : State) : Result := raise .eOpc s

/-- A word with a non-zero reserved field raises `E_RSV`, before any check of its command (30 R89, 60 R247). -/
def refuseReserved (s : State) : Result := raise .eRsv s

/-- The host delivers a word as the very next command, ahead of those still pending (log 1). -/
def deliverNext (s : State) (w : Word64) : State :=
  { s with io := { s.io with pending := w :: s.io.pending } }

end Sys2Proof.Machine
end

