-- ==== Sys2Proof/Machine/Interpolator.lean ====
section
/-! DEFINITION. The fractional-address read interpolator (43). -/

namespace Sys2Proof.Machine

/-- The four slots an interpolation reads (43 R171). -/
structure Neighbours where
  ym1 : F32
  y0 : F32
  y1 : F32
  y2 : F32
deriving DecidableEq, Repr

/-- The neighbours of slot `i0` of bank `c` (43 R171, 40 R114). -/
def neighbours (s : State) (c : Byte) (i0 : Nat) : Neighbours where
  ym1 := memRead s c ((i0 : Int) - 1)
  y0 := memRead s c i0
  y1 := memRead s c ((i0 : Int) + 1)
  y2 := memRead s c ((i0 : Int) + 2)

/-- Linear (43 R172). NaN sites 8 to 11. -/
def linear (k : NaNs) (y : Neighbours) (fr : F32) : F32 :=
  fadd (k 11) (fmul (k 8) fr y.y1) (fmul (k 10) (fsub (k 9) 0x3F800000 fr) y.y0)

/-- Quadratic, the three-point Lagrange parabola (43 R174). NaN sites 8 to 16. -/
def quadratic (k : NaNs) (y : Neighbours) (fr : F32) : F32 :=
  let c1 := fmul (k 9) 0x3F000000 (fsub (k 8) y.y1 y.ym1)
  let c2 := fsub (k 12) (fmul (k 11) 0x3F000000 (fadd (k 10) y.y1 y.ym1)) y.y0
  fadd (k 16) y.y0 (fmul (k 15) fr (fadd (k 14) c1 (fmul (k 13) fr c2)))

/-- Cubic, Catmull-Rom by Horner's rule (43 R176). NaN sites 8 to 26. -/
def cubic (k : NaNs) (y : Neighbours) (fr : F32) : F32 :=
  let c1 := fmul (k 9) 0x3F000000 (fsub (k 8) y.y1 y.ym1)
  let c2 := fsub (k 15)
    (fadd (k 13) (fsub (k 11) y.ym1 (fmul (k 10) 0x40200000 y.y0)) (fmul (k 12) 0x40000000 y.y1))
    (fmul (k 14) 0x3F000000 y.y2)
  let c3 := fadd (k 20) (fmul (k 17) 0x3F000000 (fsub (k 16) y.y2 y.ym1))
    (fmul (k 19) 0x3FC00000 (fsub (k 18) y.y0 y.y1))
  fadd (k 26) (fmul (k 25) (fadd (k 24) (fmul (k 23) (fadd (k 22) (fmul (k 21) c3 fr) c2) fr) c1) fr) y.y0

/-- The value a mode computes from the neighbours (43 R172, R174, R176). -/
def interpolateValues (k : NaNs) (y : Neighbours) (fr : F32) (m : Mode) : F32 :=
  match m with
  | .linear => linear k y fr
  | .quadratic => quadratic k y fr
  | .cubic => cubic k y fr

/-- `interpolate(c, i0, fr, m)` (43 R170). -/
def interpolate (s : State) (c : Byte) (i0 : Nat) (fr : F32) (m : Mode) : F32 :=
  interpolateValues (nanSource s) (neighbours s c i0) fr m

end Sys2Proof.Machine
end

