-- ==== Sys2Proof/Machine/Values.lean ====
section
/-! DEFINITION. Exact values of patterns (40 R100), for the properties of `SIN2PI` and for the statements. -/

namespace Sys2Proof.Machine

/-- `val(a)`, the exact rational value of a finite pattern (40 R100). -/
def val (a : F32) : ℚ := (units a : ℚ) / (one149 : ℚ)

/-- A finite pattern with a value between two bounds. -/
def FiniteIn (lo hi : ℚ) (f : F32) : Prop := isFinite f = true ∧ lo ≤ val f ∧ val f ≤ hi

/-- A phase: finite, in `[0,1)` (10 R22). -/
def LegalPhase (p : F32) : Prop := isFinite p = true ∧ 0 ≤ val p ∧ val p < 1

end Sys2Proof.Machine
end

