-- ==== Sys2Proof/Machine/Sine.lean ====
section
/-! DEFINITION. `SIN2PI` (40 R112): any function with the three named properties, or the reference instance, the
correctly rounded sine. -/

namespace Sys2Proof.Machine

/-- The sine is approximated in units of `2^-240`. -/
def sinScale : Nat := 2 ^ 240

/-- `2 * pi` in units of `2^-240`, rounded down. -/
def twoPi : Nat := 0x6487ed5110b4611a62633145c06e0e68948127044533e63a0105df531d89c

/-- `t - t*x^2/((n+1)(n+2)) + ...`: `steps` terms of the sine series from the term `t` of degree `n`, where
`x2` is the square of the angle. -/
def sinSeries : Nat → Nat → Nat → Nat → Int
  | 0, _, _, _ => 0
  | steps + 1, n, x2, t => (t : Int) - sinSeries steps (n + 2) x2 (t * x2 / sinScale / ((n + 1) * (n + 2)))

/-- `sin (2 * pi * u / 2^149)` for an angle of at most a quarter turn. -/
def sinQuarter (u : Nat) : Int :=
  let x := twoPi * u / one149
  sinSeries 40 1 (x * x / sinScale) x

/-- `sin (2 * pi * u / 2^149)` for an angle below one turn, by quadrants. -/
def sinTurn (u : Nat) : Int :=
  let quarter := 2 ^ 147
  let r := u % quarter
  match u / quarter with
  | 0 => sinQuarter r
  | 1 => sinQuarter (quarter - r)
  | 2 => -sinQuarter r
  | _ => -sinQuarter (quarter - r)

/-- `sin (2 * pi * val p)` in units of `2^-240`, for `0 <= val p < 1`, held to `[-1, 1]`. -/
def sinApprox (p : F32) : Int :=
  max (-(sinScale : Int)) (min (sinScale : Int) (sinTurn (units p).toNat))

/-- The reference instance: `rndq (sin (2 * pi * val p))` (40 R112). -/
def sinRef (p : F32) : F32 := rndq (sinApprox p) sinScale

/-- What a model assumes of `SIN2PI`, and nothing else (40 R112): on a legal phase `SIN2PI.finite` and `SIN2PI.error`,
and `SIN2PI.quarters`. -/
def IsSin2Pi (sine : F32 → F32) : Prop :=
  (∀ p, LegalPhase p → FiniteIn (-1) 1 (sine p) ∧
    |(val (sine p) : ℝ) - Real.sin (2 * Real.pi * (val p : ℝ))| ≤ 1 / 2 ^ Config.epsSinLog) ∧
  sine 0x00000000 = 0x00000000 ∧ sine 0x3E800000 = 0x3F800000 ∧ isZero (sine 0x3F000000) = true ∧
  sine 0x3F400000 = 0xBF800000

/-- `SIN2PI` (40 R112, 93 U5): the function of the implementation, which may be any with the three properties. The
first three arms are the values that `SIN2PI.quarters` fixes for every such function. Log 5. -/
def sin2pi (p : F32) : F32 :=
  if p = 0x00000000 then 0x00000000
  else if p = 0x3E800000 then 0x3F800000
  else if p = 0x3F400000 then 0xBF800000
  else (Config.freeSin IsSin2Pi).elim sinRef Subtype.val p

end Sys2Proof.Machine
end

