-- ==== Sys2Proof/Machine/Waveform.lean ====
section
/-! DEFINITION. The waveform generator and the LFO (41): `MOD`, `DLY` and the phase accumulator. -/

namespace Sys2Proof.Machine

/-- `modulation(p, s)` with a sine function `sine` (41 R131 to R134). NaN sites 0 and 1. -/
def modulationWith (sine : F32 → F32) (k : NaNs) (p : F32) (s : Shape) : F32 :=
  match s with
  | .sine => fadd (k 1) 0x3F000000 (fmul (k 0) 0x3F000000 (sine p))
  | .triangle =>
    let p2 := fmul (k 0) 0x40000000 p
    if flt p 0x3E800000 then fadd (k 1) 0x3F000000 p2
    else if flt p 0x3F400000 then fsub (k 1) 0x3FC00000 p2
    else fsub (k 1) p2 0x3FC00000
  | .square => if flt p 0x3F000000 then 0x3F800000 else 0x00000000
  | .sawtooth => if flt p 0x3F000000 then fadd (k 1) 0x3F000000 p else fsub (k 1) p 0x3F000000

/-- `modulation(p, s)` (41 R130). -/
def modulation (k : NaNs) (p : F32) (s : Shape) : F32 := modulationWith sin2pi k p s

/-- A phase in the source's domain: finite with `0 <= val p < 1` (41 R137). -/
def legalPhase (p : F32) : Bool := isFinite p && fle 0 p && flt p 0x3F800000

/-- `delay_samples()` (41 R138). NaN sites 2 and 3. -/
def delaySamples (s : State) : F32 :=
  let k := nanSource s
  fadd (k 3) s.snap.base (fmul (k 2) s.snap.sweep (modulation k s.lfophase (snapShape s.snap.wave)))

/-- `phase_next(p, inc)` (41 R141). NaN site 0. -/
def phaseNext (k : NaNs) (p inc : F32) : F32 := fracVal (fadd (k 0) p inc)

/-- `MOD s, p` (41 R137). -/
def execMod (sel : Byte) (p : F32) (s : State) : Result :=
  match Shape.select sel.toNat with
  | none => raise .eSel s
  | some shape =>
    if legalPhase p then respond .ok (modulation (nanSource s) p shape) s else raise .eVal s

/-- `DLY` (41 R139). -/
def execDly (s : State) : Result :=
  if s.session = .block then respond .ok (delaySamples s) s else raise .eState s

end Sys2Proof.Machine
end

