-- ==== Sys2Proof/Machine/DelayLine.lean ====
section
/-! DEFINITION. The delay line (42): `DLW`, `DLR`, `DLA`, `POS` and the addressing functions. -/

namespace Sys2Proof.Machine

/-- `t3` of `read_position()`: the read position before it is reduced (42 R150). NaN sites 4 to 6. -/
def rawPosition (s : State) : F32 :=
  let k := nanSource s
  let t1 := fsub (k 4) (i2f s.widx.toNat) (delaySamples s)
  let t2 := fadd (k 5) t1 (i2f s.prep.len.toNat)
  fsub (k 6) t2 0x40400000

/-- `read_position()` (42 R150). -/
def readPosition (s : State) : F32 := pmod (rawPosition s) s.prep.len.toNat

/-- `i0` of `split_position(pos)` (42 R151). -/
def splitIndex (s : State) (pos : F32) : Nat := slotIndex s (floorVal pos)

/-- `fr` of `split_position(pos)` (42 R151). -/
def splitFraction (pos : F32) : F32 := fracVal pos

/-- A fractional read at a normalised position: `interpolate` at `split_position(pos)` (42 R155, R157). -/
def readAt (s : State) (c : Byte) (pos : F32) (m : Mode) : F32 :=
  interpolate s c (splitIndex s pos) (splitFraction pos) m

/-- `DLW c, v` (42 R152, R153). -/
def execDlw (c : Byte) (v : F32) (s : State) : Result :=
  if s.session ≠ .idle then raise .eState s
  else if inSession s c then respond .ok 0 (memWrite s c s.widx.toNat v)
  else raise .eChan s

/-- `DLR c, m, p` (42 R155, R156). -/
def execDlr (c m : Byte) (p : F32) (s : State) : Result :=
  if s.session = .unprep then raise .eState s
  else match Mode.select m.toNat with
    | none => raise .eSel s
    | some mode =>
      if !inSession s c then raise .eChan s
      else if !isFinite p then raise .eVal s
      else respond .ok (readAt s c (pmod p s.prep.len.toNat) mode) s

/-- `DLA` (42 R158). -/
def execDla (s : State) : Result :=
  if s.session ≠ .idle then raise .eState s
  else respond .ok 0 { s with widx := nextIndex s }

/-- `POS` (42 R160). -/
def execPos (s : State) : Result :=
  if s.session = .block then respond .ok (readPosition s) s else raise .eState s

end Sys2Proof.Machine
end

