-- ==== Sys2Proof/Machine/Engine.lean ====
section
/-! DEFINITION. The flanger engine (44): `BEG`, `SMP`, `TCK`. -/

namespace Sys2Proof.Machine

/-- `S_BASE = rndq(val(DELAYMS) * val(P_FS) / 1000)` (10 R43, 44 R186). -/
def baseSamples (delayms fs : F32) : F32 := rndq (units delayms * units fs) (one149 * one149 * 1000)

/-- `S_SWEEP = rndq(val(SWEEP) * val(P_FS) / 200)` (10 R43, 44 R186). -/
def sweepSamples (sweep fs : F32) : F32 := rndq (units sweep * units fs) (one149 * one149 * 200)

/-- `S_INC = rndq(frac(val(SPEED) / val(P_FS)))` (10 R44, 44 R186). -/
def phaseIncrement (speed fs : F32) : F32 := rndq (units speed % units fs) (units fs).toNat

/-- `latch_snapshot()` (44 R186). -/
def latchSnapshot (s : State) : Snapshot where
  base := baseSamples s.live.delayms s.prep.fs
  sweep := sweepSamples s.live.sweep s.prep.fs
  inc := phaseIncrement s.live.speed s.prep.fs
  fb := s.live.feedback
  mix := s.live.mix
  wave := s.live.waveform
  interp := s.live.interp
  inv := s.live.invert

/-- `BEG n` (44 R185, R187). -/
def execBeg (n : U32) (s : State) : Result :=
  if s.session ≠ .idle then raise .eState s
  else if s.prep.maxblk.toNat < n.toNat then raise .eLen s
  else respond .ok 0
    { s with snap := latchSnapshot s, blkrem := n, session := if n = 0 then .idle else .block }

/-- Steps 1 to 4 of the engine: the wet sample (44 R190, R192). -/
def wetSample (s : State) (c : Byte) : F32 := readAt s c (readPosition s) (snapMode s.snap.interp)

/-- Step 5, the feedback mixer: the value stored (44 R193). NaN sites 30 and 31. -/
def storedSample (s : State) (x wet : F32) : F32 :=
  let k := nanSource s
  fadd (k 31) x (fmul (k 30) s.snap.fb wet)

/-- Step 6, `output_mix(x, wet)` (44 R194). NaN sites 32 and 33. -/
def outputMix (s : State) (x wet : F32) : F32 :=
  let k := nanSource s
  let mw := fmul (k 32) s.snap.mix wet
  if s.snap.inv = 0 then fadd (k 33) x mw else fsub (k 33) x mw

/-- `SMP c, x` (44 R189 to R194). The wet sample is read before the slot is written (20 R72). -/
def execSmp (c : Byte) (x : F32) (s : State) : Result :=
  if s.session ≠ .block then raise .eState s
  else if !inSession s c then respond .ok 0 s
  else
    let wet := wetSample s c
    respond .ok (outputMix s x wet) (memWrite s c s.widx.toNat (storedSample s x wet))

/-- `TCK` (44 R197). -/
def execTck (s : State) : Result :=
  if s.session ≠ .block then raise .eState s
  else
    let left := s.blkrem - 1
    respond .ok 0
      { s with
        widx := nextIndex s
        lfophase := phaseNext (nanSource s) s.lfophase s.snap.inc
        blkrem := left
        session := if left = 0 then .idle else .block }

end Sys2Proof.Machine
end

