-- ==== Sys2Proof/Machine/SessionControl.lean ====
section
/-! DEFINITION. The configuration surface and the session lifecycle (45): `NOP`, `WRP`, `RDP`, `PREP`, `REL`, `CLR`. -/

namespace Sys2Proof.Machine

/-- `NOP` (45 R210). -/
def execNop (s : State) : Result := respond .ok 0 s

/-- `WRP r, v` (45 R211 to R213). -/
def execWrp (r : Byte) (v : U32) (s : State) : Result :=
  match Reg.ofNumber r with
  | none => raise .eReg s
  | some reg =>
    if reg.readOnly then raise .eRo s
    else match storedValue reg v s with
      | none => raise .eVal s
      | some x => respond .ok 0 (writeReg reg x s)

/-- `RDP r` (45 R214). -/
def execRdp (r : Byte) (s : State) : Result :=
  match Reg.ofNumber r with
  | none => raise .eReg s
  | some reg => respond .ok (readReg reg s) s

/-- `valid_config()` (45 R216). -/
def validConfig (c : Cfg) : Bool :=
  isFinite c.fs && flt 0 c.fs && 1 ≤ c.maxblk.toNat && 1 ≤ c.nch.toNat && c.nch.toNat ≤ Config.nchMax

/-- `max(1, ceil(val(fs) * 3 / 100))` of a positive rate, exactly (45 R218, 40 R115). -/
def lineLength (fs : F32) : Nat :=
  max 1 (((units fs).toNat * 3 + (100 * one149 - 1)) / (100 * one149))

/-- `PREP` (45 R215, R217). -/
def execPrep (s : State) : Result :=
  if s.session = .block then raise .eState s
  else if !validConfig s.cfg then raise .eCfg s
  else
    let l := lineLength s.cfg.fs
    if Config.lmax < l then raise .eCfg s
    else respond .ok 0
      { s with
        prep := ⟨s.cfg.fs, s.cfg.maxblk, s.cfg.nch, BitVec.ofNat 32 l⟩
        dm := dmZero s.dm s.cfg.nch.toNat l
        widx := 0
        lfophase := 0
        blkrem := 0
        snap := .zero
        session := .idle }

/-- `REL` (45 R222). `DM` is unspecified afterwards and unreachable; the model keeps its content, one of
the treatments 93 U2 names (log 9). -/
def execRel (s : State) : Result :=
  respond .ok 0
    { s with
      session := .unprep
      blkrem := 0
      widx := 0
      lfophase := 0
      prep := .zero
      snap := .zero }

/-- `CLR` (45 R224). -/
def execClr (s : State) : Result :=
  if s.session ≠ .idle then raise .eState s
  else respond .ok 0
    { s with dm := dmZero s.dm s.prep.nch.toNat s.prep.len.toNat, widx := 0, lfophase := 0 }

end Sys2Proof.Machine
end

