-- ==== Sys2Proof/Machine/Dispatch.lean ====
section
/-! DEFINITION. One arm per instruction: each is one direct call of the instruction's meaning. -/

namespace Sys2Proof.Machine

def exec (i : Instr) (s : State) : Host.Outcome State Fault Refusal :=
  match i with
  | .nop => Sys2Proof.Machine.execNop s
  | .wrp r v => Sys2Proof.Machine.execWrp r v s
  | .rdp r => Sys2Proof.Machine.execRdp r s
  | .prep => Sys2Proof.Machine.execPrep s
  | .rel => Sys2Proof.Machine.execRel s
  | .clr => Sys2Proof.Machine.execClr s
  | .beg n => Sys2Proof.Machine.execBeg n s
  | .smp c x => Sys2Proof.Machine.execSmp c x s
  | .tck => Sys2Proof.Machine.execTck s
  | .mod n p => Sys2Proof.Machine.execMod n p s
  | .dly => Sys2Proof.Machine.execDly s
  | .pos => Sys2Proof.Machine.execPos s
  | .dlw c v => Sys2Proof.Machine.execDlw c v s
  | .dlr c m p => Sys2Proof.Machine.execDlr c m p s
  | .dla => Sys2Proof.Machine.execDla s

end Sys2Proof.Machine
end

