-- ==== Sys2Proof/Machine/Step.lean ====
section
/-! DEFINITION. One step: the engine takes the next command from the port, decodes it and executes it (20 R66). -/

namespace Sys2Proof.Machine

/-- One step. With no command pending the engine is idle and its state is constant (60 R248, R252). A word
that does not decode is refused by name (30 R88 to R90). -/
def step (s : State) : Host.Outcome State Fault Refusal :=
  match takeCommand s with
  | none => .next s
  | some (w, s') =>
    match decode w with
    | .instr i => exec i s'
    | .unknownOpcode => refuseOpcode s'
    | .reservedField => refuseReserved s'

/-- The state in which the host has delivered the table's word as the next command (log 1). -/
def State.withFetchWord (s : State) (nbits w : Nat) : State := deliverNext s (tableWord nbits w)

end Sys2Proof.Machine
end

