-- ==== Sys2Proof/Safety.lean ====
section
/-! DEFINITION. The terms the claims use: rounding, what answering and refusing leave, the session table,
and the invariants of every reachable state. -/

namespace Sys2Proof.Machine

/-! ## Rounding (40 R103) -/

/-- The magnitude at which rounding overflows: half a spacing above the largest finite pattern (40 R103). -/
def overflowAt : ℚ := 2 ^ 128 - 2 ^ 103

/-- `f` is `q` rounded as 40 R103 says, without reference to how it is computed: the infinity of the sign of
`q` from the overflow threshold on; below it a finite pattern nearest to `q`, with fraction bit 0 even
where another finite value is as near, with the sign of `q`, and `+0.0` for zero. -/
def RoundsTo (q : ℚ) (f : F32) : Prop :=
  if overflowAt ≤ |q| then f = infOf (decide (q < 0))
  else isFinite f = true ∧ signBit f = decide (q < 0) ∧
    ∀ g : F32, isFinite g = true →
      |val f - q| ≤ |val g - q| ∧ (|val f - q| = |val g - q| → val g ≠ val f → fraction f % 2 = 0)

/-! ## Responses, refusals, slots (30 R83, 60 R243, 10 R48) -/

/-- `t` has given one more response than `s`, with status number `code` and data `d` at the places of
30 R83, and has taken no further command. -/
def Answered (s t : State) (code : Nat) (d : U32) : Prop :=
  t.io.pending = s.io.pending ∧
    ∃ r : Word64, t.io.responses = r :: s.io.responses ∧ r.toNat = code * 2 ^ 32 + d.toNat

/-- `t` is `s` after `raise e` (60 R243): bit `code e` of `ERR` set, the response with data 0, nothing else. -/
def RefusedWith (e : Status) (s t : State) : Prop :=
  t = { s with err := t.err, io := t.io } ∧
    (∀ j, t.err.getLsbD j = (s.err.getLsbD j || j == e.code)) ∧ Answered s t e.code 0

/-- `x` is what a clamped parameter stores for `v` (45 R212). -/
def ClampedTo (v lo hi x : F32) : Prop :=
  (flt v lo = true → x = lo) ∧ (flt hi v = true → x = hi) ∧ (fle lo v = true → fle v hi = true → x = v)

/-- The same pattern, or two NaN patterns (40 R108). -/
def SameUpToNaN (a b : F32) : Prop := a = b ∨ (isNaN a = true ∧ isNaN b = true)

/-- `DM[c][i]` (00 R11). -/
def slot (s : State) (c i : Nat) : F32 := dmRead s.dm (slotKey c i)

/-- Every slot but slot `i` of bank `c` holds in `t` what it held in `s`. -/
def OtherSlotsKept (s t : State) (c i : Nat) : Prop :=
  ∀ c' i', c' < 256 → (c' ≠ c ∨ i' ≠ i) → slot t c' i' = slot s c' i'

/-- The register map of 10 R26 by number, with the value each register shows (10 R38, R39, R41, R46). -/
def registerTable (s : State) : List (Byte × U32) :=
  [(0x00, s.live.delayms), (0x01, s.live.sweep), (0x02, s.live.speed), (0x03, s.live.feedback),
   (0x04, s.live.mix), (0x05, s.live.waveform), (0x06, s.live.interp), (0x07, s.live.invert),
   (0x08, s.cfg.fs), (0x09, s.cfg.maxblk), (0x0A, s.cfg.nch)] ++
  [(0x10, match s.session with | .unprep => 0 | .idle => 1 | .block => 2), (0x11, s.err &&& 0x7FE),
   (0x12, s.prep.len), (0x13, s.widx), (0x14, s.lfophase), (0x15, s.blkrem), (0x16, s.prep.fs),
   (0x17, s.prep.maxblk), (0x18, s.prep.nch)] ++
  [(0x20, s.snap.base), (0x21, s.snap.sweep), (0x22, s.snap.inc), (0x23, s.snap.fb), (0x24, s.snap.mix),
   (0x25, s.snap.wave), (0x26, s.snap.interp), (0x27, s.snap.inv)] ++
  [(0x30, 0x424A4631), (0x31, BitVec.ofNat 32 Config.nchMax), (0x32, BitVec.ofNat 32 Config.lmax)]

/-- The register numbers `WRP` refuses with `E_RO` (10 R26, 45 R213). -/
def readOnlyNumbers : List Byte :=
  [0x10, 0x12, 0x13, 0x14, 0x15, 0x16, 0x17, 0x18, 0x20, 0x21, 0x22, 0x23, 0x24, 0x25, 0x26, 0x27,
   0x30, 0x31, 0x32]

/-! ## The session table (45 R230) -/

/-- The session states in which a command is not refused with `E_STATE` (45 R230). -/
def permitted (i : Instr) (st : Session) : Bool :=
  match i with
  | .nop | .wrp _ _ | .rdp _ | .mod _ _ | .rel => true
  | .prep => st != .block
  | .clr | .beg _ | .dlw _ _ | .dla => st == .idle
  | .smp _ _ | .tck | .dly | .pos => st == .block
  | .dlr _ _ _ => st != .unprep

/-- The session state a command that succeeds leaves (45 R230). -/
def sessionAfter (i : Instr) (s : State) : Session :=
  match i with
  | .prep => .idle
  | .rel => .unprep
  | .beg n => if n.toNat = 0 then .idle else .block
  | .tck => if s.blkrem.toNat = 1 then .idle else .block
  | .nop | .wrp _ _ | .rdp _ | .mod _ _ | .clr | .smp _ _ | .dly | .pos | .dlw _ _ | .dlr _ _ _ | .dla => s.session

/-! ## Invariants (10 R52) -/

/-- Legal values of the live parameter registers (10 R27 to R34). -/
structure LegalLive (p : Live) : Prop where
  delayms : FiniteIn 5 25 p.delayms
  sweep : FiniteIn 0 1 p.sweep
  speed : FiniteIn 0 10 p.speed
  feedback : FiniteIn 0 (val 0x3F7D70A4) p.feedback
  mix : FiniteIn 0 1 p.mix
  waveform : p.waveform.toNat ≤ 3
  interp : p.interp.toNat ≤ 2
  invert : p.invert.toNat ≤ 1

/-- What the snapshot registers hold (10 R43 to R45): the two delays are at most the line's capacity in
samples, and not `-0.0`. -/
structure LegalSnapshot (p : Snapshot) : Prop where
  base : FiniteIn 0 Config.lmax p.base ∧ signBit p.base = false
  sweep : FiniteIn 0 Config.lmax p.sweep ∧ signBit p.sweep = false
  inc : FiniteIn 0 1 p.inc
  fb : FiniteIn 0 (val 0x3F7D70A4) p.fb
  mix : FiniteIn 0 1 p.mix
  wave : p.wave.toNat ≤ 3
  interp : p.interp.toNat ≤ 2
  inv : p.inv.toNat ≤ 1

/-- A session as `PREP` leaves it (10 R40, R42, R52 item 3). -/
structure LegalPrepared (p : Prepared) : Prop where
  fs : isFinite p.fs = true ∧ 0 < val p.fs
  maxblk : 1 ≤ p.maxblk.toNat
  nch : 1 ≤ p.nch.toNat ∧ p.nch.toNat ≤ Config.nchMax
  len : (p.len.toNat : ℤ) = max 1 ⌈val p.fs * 3 / 100⌉
  fits : p.len.toNat ≤ Config.lmax

/-- The invariants of 10 R52 (items 1 to 5), with what the snapshot registers hold, the reserved bits of
`ERR` (10 R39) and the canonical form of the delay memory. -/
structure Inv (s : State) : Prop where
  block_iff : s.session = .block ↔ 0 < s.blkrem.toNat
  unprep : s.session = .unprep → s.prep = .zero ∧ s.widx = 0 ∧ s.blkrem = 0 ∧ s.lfophase = 0 ∧ s.snap = .zero
  prepared : s.session ≠ .unprep →
    LegalPrepared s.prep ∧ s.widx.toNat < s.prep.len.toNat ∧ s.blkrem.toNat ≤ s.prep.maxblk.toNat
  phase : LegalPhase s.lfophase
  live : LegalLive s.live
  snap : LegalSnapshot s.snap
  err : ∀ j, s.err.getLsbD j = true → 1 ≤ j ∧ j ≤ 10
  memory : Memory.wf s.dm = true

/-- The states the block can reach: from reset, by steps and by the host delivering command words, in
whatever merge of its two roles (10 R52, 20 R67). -/
inductive Reachable : State → Prop where
  | reset : Reachable .reset
  | deliver (s : State) (ws : List Word64) :
      Reachable s → Reachable { s with io := { s.io with pending := s.io.pending ++ ws } }
  | step (s t : State) : Reachable s → step s = .next t → Reachable t

end Sys2Proof.Machine
end

