-- ==== Sys2Proof/Certificates/Slice0/Obligations.lean ====
section
/-! DEFINITION. The statements for the provers. Each docstring names the rules of `spec/` it formalises. -/

open Sys2Proof Sys2Proof.Machine

/-! ## Encoding (30) -/

/-- 30 R86, R82: decoding the encoding of any instruction, every operand at every value, gives it back. -/
def Obligations.DecodeOfEncodeIsTheInstruction : Prop := ∀ i : Instr, decode (encode i) = .instr i

/-- 30 R81, R89: each decodable word has one meaning and is that meaning's encoding: no bit is dropped. -/
def Obligations.EncodeOfDecodedIsTheWord : Prop :=
  ∀ (w : Word64) (i : Instr), decode w = .instr i → encode i = w

/-- 30 R81, R82, R86: the word of a command is `OPC << 56 | A << 48 | B << 40 | D` with the opcode of its row
and its operands in the fields of its format. -/
def Obligations.EncodedWordsFollowTheOpcodeMap : Prop :=
  (encode .nop).toNat = 0 ∧
  (∀ r v, (encode (.wrp r v)).toNat = 0x01 * 2 ^ 56 + r.toNat * 2 ^ 48 + v.toNat) ∧
  (∀ r, (encode (.rdp r)).toNat = 0x02 * 2 ^ 56 + r.toNat * 2 ^ 48) ∧
  (encode .prep).toNat = 0x10 * 2 ^ 56 ∧ (encode .rel).toNat = 0x11 * 2 ^ 56 ∧
  (encode .clr).toNat = 0x12 * 2 ^ 56 ∧
  (∀ n, (encode (.beg n)).toNat = 0x20 * 2 ^ 56 + n.toNat) ∧
  (∀ c x, (encode (.smp c x)).toNat = 0x21 * 2 ^ 56 + c.toNat * 2 ^ 48 + x.toNat) ∧
  (encode .tck).toNat = 0x22 * 2 ^ 56 ∧
  (∀ n p, (encode (.mod n p)).toNat = 0x30 * 2 ^ 56 + n.toNat * 2 ^ 48 + p.toNat) ∧
  (encode .dly).toNat = 0x31 * 2 ^ 56 ∧ (encode .pos).toNat = 0x32 * 2 ^ 56 ∧
  (∀ c v, (encode (.dlw c v)).toNat = 0x40 * 2 ^ 56 + c.toNat * 2 ^ 48 + v.toNat) ∧
  (∀ c m p, (encode (.dlr c m p)).toNat = 0x41 * 2 ^ 56 + c.toNat * 2 ^ 48 + m.toNat * 2 ^ 40 + p.toNat) ∧
  (encode .dla).toNat = 0x42 * 2 ^ 56

/-- 30 R86, R88: a word is rejected as an unknown opcode exactly when `OPC` is none of the fifteen. -/
def Obligations.UnknownOpcodeIffNotOneOfTheFifteen : Prop :=
  ∀ w : Word64, decode w = .unknownOpcode ↔
    w.toNat / 2 ^ 56 ∉ [0x00, 0x01, 0x02, 0x10, 0x11, 0x12, 0x20, 0x21, 0x22, 0x30, 0x31, 0x32, 0x40, 0x41, 0x42]

/-- 30 R82, R89: a word with a known opcode is rejected exactly when `RSV` or a field its format requires to be
0 is not 0, format by format. -/
def Obligations.ReservedFieldIffAMustBeZeroFieldIsSet : Prop :=
  ∀ w : Word64,
    let o := w.toNat / 2 ^ 56
    let a := w.toNat / 2 ^ 48 % 256
    let b := w.toNat / 2 ^ 40 % 256
    let v := w.toNat / 2 ^ 32 % 256
    let d := w.toNat % 2 ^ 32
    decode w = .reservedField ↔
      (o ∈ [0x00, 0x10, 0x11, 0x12, 0x22, 0x31, 0x32, 0x42] ∧ (a ≠ 0 ∨ b ≠ 0 ∨ v ≠ 0 ∨ d ≠ 0)) ∨
      (o = 0x02 ∧ (b ≠ 0 ∨ v ≠ 0 ∨ d ≠ 0)) ∨
      (o ∈ [0x01, 0x21, 0x30, 0x40] ∧ (b ≠ 0 ∨ v ≠ 0)) ∨
      (o = 0x20 ∧ (a ≠ 0 ∨ b ≠ 0 ∨ v ≠ 0)) ∨
      (o = 0x41 ∧ v ≠ 0)

/-- 30 R86, 95: words written out from the spec's encoding decode to the instructions they stand for. -/
def Obligations.SpecWordsDecode : Prop :=
  decode 0x210000003F800000 = .instr (.smp 0 0x3F800000) ∧
  decode 0x4100020040F00000 = .instr (.dlr 0 2 0x40F00000) ∧
  decode 0x0100000041700000 = .instr (.wrp 0 0x41700000) ∧
  decode 0x2000000000000014 = .instr (.beg 20) ∧
  decode 0x300100003E000000 = .instr (.mod 1 0x3E000000)

/-! ## Steps (20, 60) -/

/-- 20 R66: a pending word that decodes is taken from the port and its instruction executed on the state without
it. The pending list is the model's (log 1). -/
def Obligations.StepRunsTheDecodedInstruction : Prop :=
  ∀ (s : State) (w : Word64) (rest : List Word64) (i : Instr),
    s.io.pending = w :: rest → decode w = .instr i →
      step s = exec i { s with io := { s.io with pending := rest } }

/-- 30 R88, R89, R90, 60 R243: a word whose `OPC` is none of the fifteen is refused with `E_OPC`, whatever its other
fields; one the decoder rejects for a reserved field is refused with `E_RSV`; both whatever the session state. The
pending list is the model's (log 1). -/
def Obligations.UndecodableWordsAreRefused : Prop :=
  ∀ (s : State) (w : Word64) (rest : List Word64), s.io.pending = w :: rest →
    let s' := { s with io := { s.io with pending := rest } }
    (w.toNat / 2 ^ 56 ∉
        [0x00, 0x01, 0x02, 0x10, 0x11, 0x12, 0x20, 0x21, 0x22, 0x30, 0x31, 0x32, 0x40, 0x41, 0x42] →
      ∃ t, step s = .next t ∧ RefusedWith .eOpc s' t) ∧
    (decode w = .reservedField → ∃ t, step s = .next t ∧ RefusedWith .eRsv s' t)

/-- 00 R17, 60 R248, R252: the block never halts: every step of every state answers a next state, which is the
same state when no command is pending. The pending list is the model's (log 1). -/
def Obligations.TheBlockNeverHalts : Prop :=
  ∀ s : State, ∃ t, step s = .next t ∧ (s.io.pending = [] → t = s)

/-- 30 R83, 60 R240: one response for each command taken, bits [63:40] zero, a status of 0 to 10, data 0 unless
the status is 0. -/
def Obligations.OneResponsePerCommand : Prop :=
  ∀ (s t : State) (w : Word64) (rest : List Word64), s.io.pending = w :: rest → step s = .next t →
    t.io.pending = rest ∧ ∃ r : Word64, t.io.responses = r :: s.io.responses ∧
      r.toNat / 2 ^ 32 ≤ 10 ∧ (r.toNat / 2 ^ 32 ≠ 0 → r.toNat % 2 ^ 32 = 0)

/-! ## Rules of the whole machine -/

/-- 60 R243: whatever command word the port holds, a response with a non-zero status means that the command set
the `ERR` bit of that status and changed nothing else. The list of pending words and the list of responses are the
model's (log 1, log 2). -/
def Obligations.RefusedCommandsChangeOnlyErr : Prop :=
  ∀ (s t : State) (w r : Word64) (rest : List Word64), s.io.pending = w :: rest → step s = .next t →
    t.io.responses = r :: s.io.responses → r.toNat / 2 ^ 32 ≠ 0 →
      ∃ e : Status, e.code = r.toNat / 2 ^ 32 ∧
        RefusedWith e { s with io := { s.io with pending := rest } } t

/-- 60 R244, 10 R39: a set bit of `ERR` is cleared only by a `WRP` of `ERR` whose data has that bit set. -/
def Obligations.ErrIsClearedOnlyByWrpErr : Prop :=
  ∀ (i : Instr) (s t : State) (j : Nat), exec i s = .next t →
    s.err.getLsbD j = true → t.err.getLsbD j = false → ∃ v : U32, i = .wrp 0x11 v ∧ v.getLsbD j = true

/-- 45 R230: the session table. A command not permitted in the state is refused with `E_STATE`; a command that
succeeds was permitted and leaves the state of the table; a command that fails keeps the state; power-on reset
enters UNPREP. -/
def Obligations.SessionStateFollowsTheTable : Prop :=
  State.reset.session = .unprep ∧
  ∀ (i : Instr) (s : State),
    (permitted i s.session = false → ∃ t, exec i s = .next t ∧ RefusedWith .eState s t) ∧
    (∀ t, exec i s = .next t →
      ((∃ d, Answered s t 0 d) → permitted i s.session = true ∧ t.session = sessionAfter i s) ∧
      ((∃ k, k ≠ 0 ∧ Answered s t k 0) → t.session = s.session))

/-- 10 R26 ("written by"), R21, R22, R39, R48: each piece of state changes only under the commands listed for it, `ERR`
only under a command that fails and a `WRP` of it. -/
def Obligations.OnlyTheListedCommandsWriteEachRegister : Prop :=
  ∀ (i : Instr) (s t : State), exec i s = .next t →
    ((∀ r v, i ≠ .wrp r v) → t.live = s.live ∧ t.cfg = s.cfg) ∧
    ((∀ n, i ≠ .beg n) → i ≠ .prep → i ≠ .rel → t.snap = s.snap) ∧
    (i ≠ .prep → i ≠ .rel → t.prep = s.prep) ∧
    (i ≠ .prep → i ≠ .rel → i ≠ .clr → i ≠ .tck → i ≠ .dla → t.widx = s.widx) ∧
    (i ≠ .prep → i ≠ .rel → i ≠ .clr → i ≠ .tck → t.lfophase = s.lfophase) ∧
    ((∀ n, i ≠ .beg n) → i ≠ .prep → i ≠ .rel → i ≠ .tck → t.blkrem = s.blkrem ∧ t.session = s.session) ∧
    ((∀ c x, i ≠ .smp c x) → (∀ c v, i ≠ .dlw c v) → i ≠ .prep → i ≠ .clr → i ≠ .rel → t.dm = s.dm) ∧
    ((∀ v, i ≠ .wrp 0x11 v) → (∃ d, Answered s t 0 d) → t.err = s.err)

/-- 10 R26, R50, 20 R68: the sample path never reads a live or configuration register: with any other values in
them the same command gives the same response and makes the same changes. -/
def Obligations.SamplePathIgnoresLiveRegisters : Prop :=
  ∀ (i : Instr) (s t : State) (l : Live) (c : Cfg),
    ((∃ ch x, i = .smp ch x) ∨ i = .tck ∨ i = .dly ∨ i = .pos ∨ (∃ ch m p, i = .dlr ch m p)) →
    exec i s = .next t → exec i { s with live := l, cfg := c } = .next { t with live := l, cfg := c }

/-! ## Invariants (10 R52) -/

/-- 10 R52, R22, R39: every step keeps the invariants. The canonical form of the memory and the two bounds on
the snapshot's delays are the model's own conjuncts (log 10; derived from 10 R43 and 45 R217). The capacities
and `FTZ` are the reference instance's (logs 6, 7). -/
def Obligations.EveryStepKeepsTheInvariants : Prop :=
  ∀ s t : State, Inv s → step s = .next t → Inv t

/-- 10 R52, 70 R270: the state after power-on reset has the invariants. The memory's canonical form is the
model's (logs 8, 10). -/
def Obligations.ResetHasTheInvariants : Prop := Inv State.reset

/-- 10 R52: they hold in every reachable state, whatever the host delivers. The pending list is the model's (log
1). -/
def Obligations.ReachableStatesHaveTheInvariants : Prop := ∀ s : State, Reachable s → Inv s

/-- 10 R52 item 6, 20 R68: while a block is open no step changes the snapshot its `BEG` latched, unless the step
ends the session. -/
def Obligations.SnapshotIsHeldInABlock : Prop :=
  ∀ s t : State, s.session = .block → step s = .next t → t.session ≠ .unprep → t.snap = s.snap

/-- 10 R26, 70 R270: the register map after power-on reset, the session state, and no command in flight. `DM` is
left open there and here. -/
def Obligations.ResetRegisterValues : Prop :=
  (registerTable State.reset).map Prod.snd =
    [0x40A00000, 0, 0, 0, 0, 0, 0, 0, 0, 0, 0] ++ [0, 0, 0, 0, 0, 0, 0, 0, 0] ++ [0, 0, 0, 0, 0, 0, 0, 0] ++
      [0x424A4631, BitVec.ofNat 32 Config.nchMax, BitVec.ofNat 32 Config.lmax] ∧
  State.reset.session = .unprep ∧ State.reset.io.pending = []

/-! ## Numerics (40) -/

/-- 40 R103 for the reference `FTZ=false` (log 7): `rndq` rounds every exact rational to the nearest pattern,
ties to even, overflowing to an infinity. A negative value that rounds to zero gives `-0.0` (DEDUCED, log 11). -/
def Obligations.RndqRoundsToNearestEven : Prop :=
  ∀ (n : ℤ) (d : Nat), 0 < d → RoundsTo ((n : ℚ) / d) (rndq n d)

/-- 40 R104: addition, every case. For the reference `FTZ=false` (the model's choice, log 7). -/
def Obligations.FaddFollowsItsRule : Prop :=
  ∀ nan a b : F32,
    ((isNaN a = true ∨ isNaN b = true) → fadd nan a b = nan) ∧
    (isInf a = true → isInf b = true → a = b → fadd nan a b = a) ∧
    (isInf a = true → isInf b = true → a ≠ b → fadd nan a b = nan) ∧
    (isInf a = true → isFinite b = true → fadd nan a b = a) ∧
    (isFinite a = true → isInf b = true → fadd nan a b = b) ∧
    (isFinite a = true → isFinite b = true → val a + val b ≠ 0 → RoundsTo (val a + val b) (fadd nan a b)) ∧
    (isFinite a = true → isFinite b = true → val a + val b = 0 →
      fadd nan a b = if signBit a = true ∧ signBit b = true then 0x80000000 else 0x00000000)

/-- 40 R106: multiplication, every case. For the reference `FTZ=false` (the model's choice, log 7). -/
def Obligations.FmulFollowsItsRule : Prop :=
  ∀ nan a b : F32,
    ((isNaN a = true ∨ isNaN b = true) → fmul nan a b = nan) ∧
    (isInf a = true → isZero b = true → fmul nan a b = nan) ∧
    (isZero a = true → isInf b = true → fmul nan a b = nan) ∧
    (isInf a = true → isNaN b = false → isZero b = false → fmul nan a b = infOf (signBit a ^^ signBit b)) ∧
    (isInf b = true → isNaN a = false → isZero a = false → fmul nan a b = infOf (signBit a ^^ signBit b)) ∧
    (isFinite a = true → isFinite b = true → val a * val b ≠ 0 →
      RoundsTo (val a * val b) (fmul nan a b) ∧ signBit (fmul nan a b) = (signBit a ^^ signBit b)) ∧
    (isFinite a = true → isFinite b = true → val a * val b = 0 →
      fmul nan a b = zeroOf (signBit a ^^ signBit b))

/-- 40 R105: negation flips bit 31; subtraction adds the negation of a `b` that is not a NaN. -/
def Obligations.FnegAndFsubFollowTheirRule : Prop :=
  (∀ (a : F32) (j : Nat), (fneg a).getLsbD j = (a.getLsbD j ^^ (j == 31))) ∧
  (∀ nan a b : F32, isNaN b = false → fsub nan a b = fadd nan a (fneg b)) ∧
  (∀ nan a b : F32, isNaN b = true → fsub nan a b = nan)

/-- 40 R107: comparisons go by exact value on finite patterns, put the infinities outside them, and are false
with a NaN. -/
def Obligations.ComparisonsFollowTheOrder : Prop :=
  (∀ a b : F32, isFinite a = true → isFinite b = true →
    (flt a b = true ↔ val a < val b) ∧ (fle a b = true ↔ val a ≤ val b) ∧ (feq a b = true ↔ val a = val b)) ∧
  (∀ a : F32, isFinite a = true →
    flt 0xFF800000 a = true ∧ fle 0xFF800000 a = true ∧ feq 0xFF800000 a = false ∧
    flt a 0xFF800000 = false ∧ fle a 0xFF800000 = false ∧ feq a 0xFF800000 = false ∧
    flt a 0x7F800000 = true ∧ fle a 0x7F800000 = true ∧ feq a 0x7F800000 = false ∧
    flt 0x7F800000 a = false ∧ fle 0x7F800000 a = false ∧ feq 0x7F800000 a = false) ∧
  (∀ a b : F32, isInf a = true → isInf b = true →
    flt a b = (signBit a && !signBit b) ∧ fle a b = (signBit a || !signBit b) ∧ feq a b = (signBit a == signBit b)) ∧
  (∀ a b : F32, (isNaN a = true ∨ isNaN b = true) → flt a b = false ∧ fle a b = false ∧ feq a b = false)

/-- 40 R116: the identities of 1 and `+0.0`, and commutativity but for the NaN pattern. For the reference `FTZ=false` (the model's choice, log 7). -/
def Obligations.ArithmeticIdentities : Prop :=
  (∀ nan a : F32, isNaN a = false → fmul nan 0x3F800000 a = a) ∧
  (∀ nan a : F32, isNaN a = false → a ≠ 0x80000000 → fadd nan a 0x00000000 = a) ∧
  (∀ nan : F32, fadd nan 0x80000000 0x00000000 = 0x00000000) ∧
  (∀ nan a : F32, isFinite a = true → isZero (fmul nan 0x00000000 a) = true) ∧
  (∀ nan a b : F32, fadd nan a b = fadd nan b a ∧ fmul nan a b = fmul nan b a)

/-- 40 R111: `pmod` rounds the exact remainder, is in `[0, n]`, and is exact and below `n` for a non-negative
position. For the reference `FTZ=false` (the model's choice, log 7). -/
def Obligations.PmodIsTheRoundedRemainder : Prop :=
  ∀ (p : F32) (n : Nat), isFinite p = true → 1 ≤ n → n ≤ 2 ^ 24 →
    RoundsTo (val p - n * ⌊val p / n⌋) (pmod p n) ∧ FiniteIn 0 n (pmod p n) ∧
      (0 ≤ val p → val (pmod p n) = val p - n * ⌊val p / n⌋ ∧ val (pmod p n) < n)

/-- 40 R108, R112: a drawn NaN is a NaN pattern, and `SIN2PI` has its three named properties: on a legal phase it is
finite, in `[-1, 1]` and within `EPS_SIN` of the sine, and it has its quarter points. Whatever the free values are
(log 4); `EPS_SIN` is the reference instance's (the model's choice, log 5). -/
def Obligations.FreeValuesKeepTheirProperties : Prop :=
  (∀ draw site, isNaN (nanDraw draw site) = true) ∧
  (∀ p : F32, LegalPhase p → FiniteIn (-1) 1 (sin2pi p) ∧
    |(val (sin2pi p) : ℝ) - Real.sin (2 * Real.pi * (val p : ℝ))| ≤ 1 / 2 ^ Config.epsSinLog) ∧
  sin2pi 0x00000000 = 0x00000000 ∧ sin2pi 0x3E800000 = 0x3F800000 ∧ isZero (sin2pi 0x3F000000) = true ∧
  sin2pi 0x3F400000 = 0xBF800000

/-! ## Waveform generator and LFO (41) -/

/-- 41 R135: for every legal phase and every shape the modulation is finite and in `[0, 1]`. -/
def Obligations.ModulationIsBounded : Prop :=
  ∀ (k : NaNs) (p : F32) (shape : Shape), LegalPhase p → FiniteIn 0 1 (modulation k p shape)

/-- 41 R131 to R134, R137: `MOD` of a legal shape and phase completes in every state, answers the waveform's
value and changes nothing. The sine is half of `SIN2PI`, rounded, plus one half, rounded. For the reference `FTZ=false` (the model's choice, log 7). -/
def Obligations.ModAnswersTheWaveform : Prop :=
  ∀ (s : State) (n : Byte) (p : F32), n.toNat ≤ 3 → LegalPhase p →
    ∃ t y, exec (.mod n p) s = .next t ∧ t = { s with io := t.io } ∧ Answered s t 0 y ∧
      (n.toNat = 0 → ∃ h, RoundsTo (val (sin2pi p) / 2) h ∧ RoundsTo (1 / 2 + val h) y) ∧
      (n.toNat = 1 → RoundsTo (if val p < 1 / 4 then 1 / 2 + 2 * val p
        else if val p < 3 / 4 then 3 / 2 - 2 * val p else 2 * val p - 3 / 2) y) ∧
      (n.toNat = 2 → y = if val p < 1 / 2 then 0x3F800000 else 0x00000000) ∧
      (n.toNat = 3 → RoundsTo (if val p < 1 / 2 then 1 / 2 + val p else val p - 1 / 2) y)

/-- 41 R137: `MOD` refuses a shape above 3 with `E_SEL`, then a phase that is not finite in `[0, 1)` with
`E_VAL`. -/
def Obligations.ModRefusesBadOperands : Prop :=
  ∀ (s : State) (n : Byte) (p : F32),
    (3 < n.toNat → ∃ t, exec (.mod n p) s = .next t ∧ RefusedWith .eSel s t) ∧
    (n.toNat ≤ 3 → ¬ LegalPhase p → ∃ t, exec (.mod n p) s = .next t ∧ RefusedWith .eVal s t)

/-- 41 R138, R139, 10 R32, R45: in an open block `DLY` answers `S_BASE + S_SWEEP * m`, each operation rounded once, where
`m` is what `MOD` answers for the shape number in `S_WAVE` and the phase in `LFOPHASE`; the delay is finite and not
negative; nothing changes. For the reference `FTZ=false` (the model's choice, log 7). -/
def Obligations.DlyAnswersTheDelay : Prop :=
  ∀ s : State, Inv s → s.session = .block →
    ∃ t y u m h, ∃ n : Byte, exec .dly s = .next t ∧ t = { s with io := t.io } ∧ Answered s t 0 y ∧
      n.toNat = s.snap.wave.toNat ∧ exec (.mod n s.lfophase) s = .next u ∧ Answered s u 0 m ∧
      RoundsTo (val s.snap.sweep * val m) h ∧ RoundsTo (val s.snap.base + val h) y ∧
      isFinite y = true ∧ 0 ≤ val y

/-! ## Delay line (42) -/

/-- 42 R150, R160: in an open block `POS` answers the read position: with the delay `y0` that `DLY` answers, `t1
= WIDX - y0`, `t2 = t1 + LEN`, `t3 = t2 - 3`, each rounded, reduced modulo `LEN` into `[0, LEN]`. For the
reference `FTZ=false` (the model's choice, log 7). -/
def Obligations.PosAnswersTheReadPosition : Prop :=
  ∀ s : State, Inv s → s.session = .block →
    ∃ t y u y0 t1 t2 t3, exec .pos s = .next t ∧ t = { s with io := t.io } ∧ Answered s t 0 y ∧
      exec .dly s = .next u ∧ Answered s u 0 y0 ∧
      RoundsTo (s.widx.toNat - val y0) t1 ∧ RoundsTo (val t1 + s.prep.len.toNat) t2 ∧ RoundsTo (val t2 - 3) t3 ∧
      RoundsTo (val t3 - s.prep.len.toNat * ⌊val t3 / s.prep.len.toNat⌋) y ∧
      FiniteIn 0 s.prep.len.toNat y

/-- 42 R152, R153: `DLW` in IDLE stores its operand bit for bit in slot `WIDX` of its bank and nowhere else, and does not
advance `WIDX`; a channel without a bank is refused with `E_CHAN`; outside IDLE the command is refused with
`E_STATE`. -/
def Obligations.DlwStoresAtTheWriteCursor : Prop :=
  ∀ (s : State) (c : Byte) (v : F32),
    (s.session = .idle → c.toNat < s.prep.nch.toNat →
      ∃ t, exec (.dlw c v) s = .next t ∧ t = { s with dm := t.dm, io := t.io } ∧ Answered s t 0 0 ∧
        slot t c.toNat (s.widx.toNat % s.prep.len.toNat) = v ∧
        OtherSlotsKept s t c.toNat (s.widx.toNat % s.prep.len.toNat)) ∧
    (s.session = .idle → s.prep.nch.toNat ≤ c.toNat →
      ∃ t, exec (.dlw c v) s = .next t ∧ RefusedWith .eChan s t) ∧
    (s.session ≠ .idle → ∃ t, exec (.dlw c v) s = .next t ∧ RefusedWith .eState s t)

/-- 42 R151, R155, 43 R170: `DLR` in a session answers the interpolation, in the command's mode, at the integer
and fractional parts of the position reduced modulo `LEN`, and changes nothing. For the reference `FTZ=false`
(the model's choice, log 7). -/
def Obligations.DlrAnswersTheInterpolation : Prop :=
  ∀ (s : State) (c m : Byte) (p : F32), Inv s → s.session ≠ .unprep → m.toNat ≤ 2 →
    c.toNat < s.prep.nch.toNat → isFinite p = true →
    ∃ t y pos fr mode, exec (.dlr c m p) s = .next t ∧ t = { s with io := t.io } ∧ Answered s t 0 y ∧
      RoundsTo (val p - s.prep.len.toNat * ⌊val p / s.prep.len.toNat⌋) pos ∧
      RoundsTo (Int.fract (val pos)) fr ∧ val fr = Int.fract (val pos) ∧
      (m.toNat = 0 → mode = .linear) ∧ (m.toNat = 1 → mode = .quadratic) ∧ (m.toNat = 2 → mode = .cubic) ∧
      y = interpolate s c (⌊val pos⌋.toNat % s.prep.len.toNat) fr mode

/-- 42 R155, R156: `DLR` in a session refuses a mode above 2, then a channel without a bank, then a position
that is not finite. -/
def Obligations.DlrRefusesBadOperands : Prop :=
  ∀ (s : State) (c m : Byte) (p : F32), s.session ≠ .unprep →
    (2 < m.toNat → ∃ t, exec (.dlr c m p) s = .next t ∧ RefusedWith .eSel s t) ∧
    (m.toNat ≤ 2 → s.prep.nch.toNat ≤ c.toNat → ∃ t, exec (.dlr c m p) s = .next t ∧ RefusedWith .eChan s t) ∧
    (m.toNat ≤ 2 → c.toNat < s.prep.nch.toNat → isFinite p = false →
      ∃ t, exec (.dlr c m p) s = .next t ∧ RefusedWith .eVal s t)

/-- 42 R158: `DLA` in IDLE advances the cursor by one modulo `LEN` and changes nothing else. -/
def Obligations.DlaAdvancesTheCursor : Prop :=
  ∀ s : State, s.session = .idle → 0 < s.prep.len.toNat →
    ∃ t, exec .dla s = .next t ∧ t = { s with widx := t.widx, io := t.io } ∧ Answered s t 0 0 ∧
      t.widx.toNat = if s.widx.toNat + 1 = s.prep.len.toNat then 0 else (s.widx.toNat + 1) % s.prep.len.toNat

/-- 20 R63, R66, 30 R87, 43 R173: a `DLW` followed by a linear `DLR` at the integral position `WIDX` answers the
value stored, bit for bit, when it is not `-0.0` and the next slot is finite. For the reference `FTZ=false`
(the model's choice, log 7). -/
def Obligations.StoreThenReadReturnsTheValue : Prop :=
  ∀ (s t : State) (c : Byte) (v : F32), Inv s → s.session = .idle → c.toNat < s.prep.nch.toNat →
    2 ≤ s.prep.len.toNat → isFinite (slot s c.toNat ((s.widx.toNat + 1) % s.prep.len.toNat)) = true →
    isNaN v = false → v ≠ 0x80000000 → exec (.dlw c v) s = .next t →
    ∃ u, exec (.dlr c 0 (i2f s.widx.toNat)) t = .next u ∧ Answered t u 0 v

/-! ## Interpolator (43) -/

/-- 43 R171, R172, R174, R176: the three formulas, operation by operation, on the four neighbours, which are the
slots behind, at, one ahead and two ahead, modulo `LEN`; each NaN an operation delivers is some NaN. -/
def Obligations.InterpolationFollowsTheFormulas : Prop :=
  ∀ (s : State) (c : Byte) (i : Nat) (fr : F32), i < s.prep.len.toNat →
    let l := s.prep.len.toNat
    let ym1 := slot s c.toNat ((i + l - 1) % l)
    let y0 := slot s c.toNat i
    let y1 := slot s c.toNat ((i + 1) % l)
    let y2 := slot s c.toNat ((i + 2) % l)
    (∃ k : NaNs, (∀ j, isNaN (k j) = true) ∧ interpolate s c i fr .linear =
      fadd (k 0) (fmul (k 1) fr y1) (fmul (k 2) (fsub (k 3) 0x3F800000 fr) y0)) ∧
    (∃ k : NaNs, (∀ j, isNaN (k j) = true) ∧
      let c1 := fmul (k 0) 0x3F000000 (fsub (k 1) y1 ym1)
      let c2 := fsub (k 2) (fmul (k 3) 0x3F000000 (fadd (k 4) y1 ym1)) y0
      interpolate s c i fr .quadratic = fadd (k 5) y0 (fmul (k 6) fr (fadd (k 7) c1 (fmul (k 8) fr c2)))) ∧
    (∃ k : NaNs, (∀ j, isNaN (k j) = true) ∧
      let c1 := fmul (k 0) 0x3F000000 (fsub (k 1) y1 ym1)
      let c2 := fsub (k 2) (fadd (k 3) (fsub (k 4) ym1 (fmul (k 5) 0x40200000 y0)) (fmul (k 6) 0x40000000 y1))
        (fmul (k 7) 0x3F000000 y2)
      let c3 := fadd (k 8) (fmul (k 9) 0x3F000000 (fsub (k 10) y2 ym1)) (fmul (k 11) 0x3FC00000 (fsub (k 12) y0 y1))
      interpolate s c i fr .cubic =
        fadd (k 13) (fmul (k 14) (fadd (k 15) (fmul (k 16) (fadd (k 17) (fmul (k 18) c3 fr) c2) fr) c1) fr) y0)

/-- 43 R173: at fraction `+0.0` and with a finite next slot the linear mode returns a slot that is no NaN bit
for bit, except that `-0.0` with a next slot of positive sign gives `+0.0`; with a next slot that is infinite or
a NaN the result is a NaN. For the reference `FTZ=false` (the model's choice, log 7). -/
def Obligations.LinearIsExactAtIntegers : Prop :=
  ∀ (draw : Nat) (y : Neighbours),
    (isFinite y.y1 = true → isNaN y.y0 = false → linear (nanDraw draw) y 0x00000000 =
      if y.y0 = 0x80000000 ∧ signBit y.y1 = false then 0x00000000 else y.y0) ∧
    (isFinite y.y1 = false → isNaN (linear (nanDraw draw) y 0x00000000) = true)

/-- 43 R175, 44 R189: over silence every mode answers `+0.0` at every fraction. -/
def Obligations.SilenceInterpolatesToZero : Prop :=
  ∀ (k : NaNs) (fr : F32) (m : Mode), isFinite fr = true → signBit fr = false → val fr < 1 →
    interpolateValues k ⟨0, 0, 0, 0⟩ fr m = 0

/-! ## Engine (44) -/

/-- 44 R185, R186, 10 R43 to R45: `BEG` within the prepared block length latches all eight parameters, the three
time quantities converted exactly and rounded once, opens a block of `n` frames (none for 0) and changes nothing
else. For the reference `FTZ=false` (the model's choice, log 7). -/
def Obligations.BegLatchesTheSnapshot : Prop :=
  ∀ (s : State) (n : U32), Inv s → s.session = .idle → n.toNat ≤ s.prep.maxblk.toNat →
    ∃ t, exec (.beg n) s = .next t ∧ Answered s t 0 0 ∧
      t = { s with snap := t.snap, blkrem := n, session := t.session, io := t.io } ∧
      t.session = (if 0 < n.toNat then .block else .idle) ∧
      RoundsTo (val s.live.delayms * val s.prep.fs / 1000) t.snap.base ∧
      RoundsTo (val s.live.sweep * val s.prep.fs / 200) t.snap.sweep ∧
      RoundsTo (Int.fract (val s.live.speed / val s.prep.fs)) t.snap.inc ∧
      t.snap.fb = s.live.feedback ∧ t.snap.mix = s.live.mix ∧ t.snap.wave = s.live.waveform ∧
      t.snap.interp = s.live.interp ∧ t.snap.inv = s.live.invert

/-- 44 R187: a count above `P_MAXBLK` is refused with `E_LEN` and opens nothing. -/
def Obligations.BegRefusesALongBlock : Prop :=
  ∀ (s : State) (n : U32), s.session = .idle → s.prep.maxblk.toNat < n.toNat →
    ∃ t, exec (.beg n) s = .next t ∧ RefusedWith .eLen s t

/-- 44 R190 to R194, 42 R151, R157, 10 R33, R45: `SMP` of a channel of the session, in an open block, never fails. The wet
sample is the interpolation at the position `POS` answers, in the mode whose number `S_INTERP` holds; slot `WIDX` of the bank
becomes `x + S_FB * wet` and no other slot changes; the response is `x + S_MIX * wet`, or `x - S_MIX * wet` if
inverted. -/
def Obligations.SmpMixesAndStores : Prop :=
  ∀ (s : State) (c : Byte) (x : F32), Inv s → s.session = .block → c.toNat < s.prep.nch.toNat →
    ∃ t y u pos fr wet mode, ∃ k : NaNs, (∀ j, isNaN (k j) = true) ∧
      exec (.smp c x) s = .next t ∧ t = { s with dm := t.dm, io := t.io } ∧ Answered s t 0 y ∧
      exec .pos s = .next u ∧ Answered s u 0 pos ∧
      RoundsTo (Int.fract (val pos)) fr ∧ val fr = Int.fract (val pos) ∧
      (s.snap.interp.toNat = 0 → mode = .linear) ∧ (s.snap.interp.toNat = 1 → mode = .quadratic) ∧
      (s.snap.interp.toNat = 2 → mode = .cubic) ∧
      wet = interpolate s c (⌊val pos⌋.toNat % s.prep.len.toNat) fr mode ∧
      slot t c.toNat s.widx.toNat = fadd (k 0) x (fmul (k 1) s.snap.fb wet) ∧
      OtherSlotsKept s t c.toNat s.widx.toNat ∧
      y = if s.snap.inv.toNat = 0 then fadd (k 2) x (fmul (k 3) s.snap.mix wet)
        else fsub (k 2) x (fmul (k 3) s.snap.mix wet)

/-- 44 R191: `SMP` of a channel beyond the session answers `+0.0` and changes no state. -/
def Obligations.SmpBeyondTheSessionIsSilent : Prop :=
  ∀ (s : State) (c : Byte) (x : F32), s.session = .block → s.prep.nch.toNat ≤ c.toNat →
    ∃ t, exec (.smp c x) s = .next t ∧ t = { s with io := t.io } ∧ Answered s t 0 0

/-- 44 R189, 95 section 6.3: while the bank is silent a finite non-zero sample passes through unchanged: it is
stored and answered bit for bit, whatever the snapshot. For the reference `FTZ=false` (the model's choice, log
7). -/
def Obligations.SilentBankPassesTheSampleThrough : Prop :=
  ∀ (s t : State) (c : Byte) (x : F32), Inv s → s.session = .block → c.toNat < s.prep.nch.toNat →
    (∀ i, i < s.prep.len.toNat → slot s c.toNat i = 0) → isFinite x = true → isZero x = false →
    exec (.smp c x) s = .next t → slot t c.toNat s.widx.toNat = x ∧ Answered s t 0 x

/-- 44 R196: with the other sign in `S_INV` the wet sample and its scaled form `S_MIX * wet` are the same, the
response is `x - S_MIX * wet` where it was `x + S_MIX * wet`, and the stored value is the same. -/
def Obligations.InversionOnlyFlipsTheWetSign : Prop :=
  ∀ (s t u : State) (c : Byte) (x : F32), s.session = .block → c.toNat < s.prep.nch.toNat → s.snap.inv = 0 →
    exec (.smp c x) s = .next t → exec (.smp c x) { s with snap := { s.snap with inv := 1 } } = .next u →
    u.dm = t.dm ∧ ∃ wet : F32, ∃ k : NaNs, (∀ j, isNaN (k j) = true) ∧
      slot t c.toNat (s.widx.toNat % s.prep.len.toNat) = fadd (k 0) x (fmul (k 1) s.snap.fb wet) ∧
      Answered s t 0 (fadd (k 2) x (fmul (k 3) s.snap.mix wet)) ∧
      Answered s u 0 (fsub (k 2) x (fmul (k 3) s.snap.mix wet))

/-- 20 R73: the samples of two different channels in one frame commute: either order leaves every register and
every slot the same and gives the same responses, but for the pattern of a NaN. -/
def Obligations.SamplesOfDifferentChannelsCommute : Prop :=
  ∀ (s t t' u u' : State) (c c' : Byte) (x x' : F32), Inv s → c ≠ c' →
    exec (.smp c x) s = .next t → exec (.smp c' x') t = .next t' →
    exec (.smp c' x') s = .next u → exec (.smp c x) u = .next u' →
    u' = { t' with err := u'.err, dm := u'.dm, io := u'.io } ∧ u'.err = t'.err ∧
    (∀ b i, b < 256 → SameUpToNaN (slot t' b i) (slot u' b i)) ∧
    (s.session = .block → ∃ y y' z z', Answered s t 0 y ∧ Answered t t' 0 y' ∧ Answered s u 0 z' ∧
      Answered u u' 0 z ∧ SameUpToNaN y z ∧ SameUpToNaN y' z')

/-- 44 R197, 41 R141: `TCK` in an open block advances the cursor modulo `LEN`, adds the increment to the phase
and keeps its exact fractional part (a zero as `+0.0`), counts one frame, closes the block at zero, and changes nothing else. For
the reference `FTZ=false` (the model's choice, log 7). -/
def Obligations.TckEndsTheFrame : Prop :=
  ∀ s : State, Inv s → s.session = .block →
    ∃ t v, exec .tck s = .next t ∧ Answered s t 0 0 ∧
      t = { s with widx := t.widx, lfophase := t.lfophase, blkrem := t.blkrem, session := t.session, io := t.io } ∧
      t.widx.toNat = (if s.widx.toNat + 1 = s.prep.len.toNat then 0 else s.widx.toNat + 1) ∧
      t.blkrem.toNat + 1 = s.blkrem.toNat ∧
      t.session = (if t.blkrem.toNat = 0 then .idle else .block) ∧
      RoundsTo (val s.lfophase + val s.snap.inc) v ∧ RoundsTo (Int.fract (val v)) t.lfophase ∧
      val t.lfophase = Int.fract (val v) ∧ LegalPhase t.lfophase

/-- 44 R188, R197: an open block with `n` frames left is closed by its `n`-th `TCK`, the cursor `n` slots
further, the delay memory and the snapshot untouched. The pending list is the model's (log 1). -/
def Obligations.TheBlockClosesAfterItsTicks : Prop :=
  ∀ (n : Nat) (s : State), Inv s → s.session = .block → s.blkrem.toNat = n →
    s.io.pending = List.replicate n 0x2200000000000000 →
    ∃ t : State, Sys2Proof.core.run n s = .next t ∧ t.session = .idle ∧ t.blkrem = 0 ∧ t.io.pending = [] ∧
      t.widx.toNat = (s.widx.toNat + n) % s.prep.len.toNat ∧ t.dm = s.dm ∧ t.snap = s.snap ∧ t.err = s.err

/-! ## Configuration surface and session (45) -/

/-- 45 R210: `NOP` completes in every state, answers 0 and changes nothing. -/
def Obligations.NopDoesNothing : Prop :=
  ∀ s : State, ∃ t, exec .nop s = .next t ∧ t = { s with io := t.io } ∧ Answered s t 0 0

/-- 45 R211, R212: `WRP` of a float parameter with a value that is no NaN stores the clamped value in that
register, in every state, and changes nothing else; a NaN is refused with `E_VAL`. -/
def Obligations.WrpClampsTheFloatParameters : Prop :=
  ∀ (s : State) (v : F32),
    (isNaN v = false →
      (∃ t x, exec (.wrp 0x00 v) s = .next t ∧ t = { s with live := { s.live with delayms := x }, io := t.io } ∧
        Answered s t 0 0 ∧ ClampedTo v 0x40A00000 0x41C80000 x) ∧
      (∃ t x, exec (.wrp 0x01 v) s = .next t ∧ t = { s with live := { s.live with sweep := x }, io := t.io } ∧
        Answered s t 0 0 ∧ ClampedTo v 0x00000000 0x3F800000 x) ∧
      (∃ t x, exec (.wrp 0x02 v) s = .next t ∧ t = { s with live := { s.live with speed := x }, io := t.io } ∧
        Answered s t 0 0 ∧ ClampedTo v 0x00000000 0x41200000 x) ∧
      (∃ t x, exec (.wrp 0x03 v) s = .next t ∧ t = { s with live := { s.live with feedback := x }, io := t.io } ∧
        Answered s t 0 0 ∧ ClampedTo v 0x00000000 0x3F7D70A4 x) ∧
      (∃ t x, exec (.wrp 0x04 v) s = .next t ∧ t = { s with live := { s.live with mix := x }, io := t.io } ∧
        Answered s t 0 0 ∧ ClampedTo v 0x00000000 0x3F800000 x)) ∧
    (isNaN v = true → ∀ r : Byte, r.toNat ≤ 4 → ∃ t, exec (.wrp r v) s = .next t ∧ RefusedWith .eVal s t)

/-- 45 R211, 10 R32 to R34: `WRP` of a selector stores a value up to its maximum and refuses a larger one with
`E_VAL`. -/
def Obligations.WrpChecksTheSelectors : Prop :=
  ∀ (s : State) (v : U32),
    (v.toNat ≤ 3 → ∃ t, exec (.wrp 0x05 v) s = .next t ∧ Answered s t 0 0 ∧
      t = { s with live := { s.live with waveform := v }, io := t.io }) ∧
    (3 < v.toNat → ∃ t, exec (.wrp 0x05 v) s = .next t ∧ RefusedWith .eVal s t) ∧
    (v.toNat ≤ 2 → ∃ t, exec (.wrp 0x06 v) s = .next t ∧ Answered s t 0 0 ∧
      t = { s with live := { s.live with interp := v }, io := t.io }) ∧
    (2 < v.toNat → ∃ t, exec (.wrp 0x06 v) s = .next t ∧ RefusedWith .eVal s t) ∧
    (v.toNat ≤ 1 → ∃ t, exec (.wrp 0x07 v) s = .next t ∧ Answered s t 0 0 ∧
      t = { s with live := { s.live with invert := v }, io := t.io }) ∧
    (1 < v.toNat → ∃ t, exec (.wrp 0x07 v) s = .next t ∧ RefusedWith .eVal s t)

/-- 45 R211, 10 R35 to R37, R39: `WRP` of a configuration register stores any 32 bits; `WRP` of `ERR` clears the
bits 1 to 10 that its data has set; nothing else changes. -/
def Obligations.WrpStoresConfigurationAndClearsErr : Prop :=
  ∀ (s : State) (v : U32),
    (∃ t, exec (.wrp 0x08 v) s = .next t ∧ Answered s t 0 0 ∧ t = { s with cfg := { s.cfg with fs := v }, io := t.io }) ∧
    (∃ t, exec (.wrp 0x09 v) s = .next t ∧ Answered s t 0 0 ∧
      t = { s with cfg := { s.cfg with maxblk := v }, io := t.io }) ∧
    (∃ t, exec (.wrp 0x0A v) s = .next t ∧ Answered s t 0 0 ∧ t = { s with cfg := { s.cfg with nch := v }, io := t.io }) ∧
    (∃ t, exec (.wrp 0x11 v) s = .next t ∧ Answered s t 0 0 ∧ t = { s with err := t.err, io := t.io } ∧
      ∀ j, t.err.getLsbD j = (s.err.getLsbD j && !(v.getLsbD j && decide (1 ≤ j ∧ j ≤ 10))))

/-- 45 R213: `WRP` to a read-only register changes nothing and raises `E_RO`; to a number not in the map,
`E_REG`. -/
def Obligations.WrpRefusesReadOnlyAndAbsentRegisters : Prop :=
  ∀ (s : State) (r : Byte) (v : U32),
    (r ∈ readOnlyNumbers → ∃ t, exec (.wrp r v) s = .next t ∧ RefusedWith .eRo s t) ∧
    (r ∉ (registerTable s).map Prod.fst → ∃ t, exec (.wrp r v) s = .next t ∧ RefusedWith .eReg s t)

/-- 45 R214, 10 R26: `RDP` answers the value of every register of the map, in every state, and changes nothing;
a number not in the map is refused with `E_REG`. The capacities are the reference instance's (the model's
choice, log 6). -/
def Obligations.RdpAnswersEveryRegister : Prop :=
  ∀ (s : State) (r : Byte),
    (∀ v, (r, v) ∈ registerTable s →
      ∃ t, exec (.rdp r) s = .next t ∧ t = { s with io := t.io } ∧ Answered s t 0 v) ∧
    (r ∉ (registerTable s).map Prod.fst → ∃ t, exec (.rdp r) s = .next t ∧ RefusedWith .eReg s t)

/-- 45 R215, R218: outside a block, `PREP` of a valid configuration that fits copies it, sets `LEN` to `max(1,
ceil(rate * 3 / 100))`, zeroes exactly the reachable delay memory, the cursor, the phase and the snapshot, and
enters IDLE. The capacities are the reference instance's (the model's choice, log 6). -/
def Obligations.PrepStartsASession : Prop :=
  ∀ (s : State) (l : Nat), s.session ≠ .block → isFinite s.cfg.fs = true → 0 < val s.cfg.fs →
    1 ≤ s.cfg.maxblk.toNat → 1 ≤ s.cfg.nch.toNat → s.cfg.nch.toNat ≤ Config.nchMax →
    (l : ℤ) = max 1 ⌈val s.cfg.fs * 3 / 100⌉ → l ≤ Config.lmax →
    ∃ t, exec .prep s = .next t ∧ Answered s t 0 0 ∧
      t = { s with
        session := .idle, blkrem := 0, prep := ⟨s.cfg.fs, s.cfg.maxblk, s.cfg.nch, BitVec.ofNat 32 l⟩
        widx := 0, lfophase := 0, snap := ⟨0, 0, 0, 0, 0, 0, 0, 0⟩, dm := t.dm, io := t.io } ∧
      (∀ c i, c < s.cfg.nch.toNat → i < l → slot t c i = 0) ∧
      (∀ c i, c < 256 → (s.cfg.nch.toNat ≤ c ∨ l ≤ i) → slot t c i = slot s c i)

/-- 45 R216, R217: outside a block, `PREP` refuses every other configuration with `E_CFG`. The capacities are
the reference instance's (the model's choice, log 6). -/
def Obligations.PrepRefusesABadConfiguration : Prop :=
  ∀ s : State, s.session ≠ .block →
    (isFinite s.cfg.fs = false ∨ val s.cfg.fs ≤ 0 ∨ s.cfg.maxblk = 0 ∨ s.cfg.nch = 0 ∨
      Config.nchMax < s.cfg.nch.toNat ∨ (Config.lmax : ℤ) < ⌈val s.cfg.fs * 3 / 100⌉) →
    ∃ t, exec .prep s = .next t ∧ RefusedWith .eCfg s t

/-- 45 R222: `REL` completes in every state and ends the session: the session registers are zeroed, the live and
configuration registers and `ERR` are kept, the delay memory is left open. -/
def Obligations.RelEndsTheSession : Prop :=
  ∀ s : State, ∃ t, exec .rel s = .next t ∧ Answered s t 0 0 ∧
    t = { s with
      session := .unprep, blkrem := 0, widx := 0, lfophase := 0, prep := ⟨0, 0, 0, 0⟩
      snap := ⟨0, 0, 0, 0, 0, 0, 0, 0⟩, dm := t.dm, io := t.io }

/-- 45 R224: `CLR` in IDLE zeroes exactly the reachable delay memory, the cursor and the phase. -/
def Obligations.ClrEmptiesTheDelayLine : Prop :=
  ∀ s : State, s.session = .idle →
    ∃ t, exec .clr s = .next t ∧ Answered s t 0 0 ∧ t = { s with widx := 0, lfophase := 0, dm := t.dm, io := t.io } ∧
      (∀ c i, c < s.prep.nch.toNat → c < 256 → i < s.prep.len.toNat → slot t c i = 0) ∧
      (∀ c i, c < 256 → (s.prep.nch.toNat ≤ c ∨ s.prep.len.toNat ≤ i) → slot t c i = slot s c i)
end

