-- ==== Sys2Proof/Laws/Encoding.lean ====
section
/-! SUPPORT. The fields of a packed word, and a word rebuilt from its fields (30 R81). -/

namespace Sys2Proof

theorem shiftLeft_or (x y n : Nat) (h : y < 2 ^ n) : x <<< n ||| y = x * 2 ^ n + y := by
  rw [← Nat.shiftLeft_add_eq_or_of_lt h, Nat.shiftLeft_eq]

theorem packWord_toNat (o a b : Byte) (d : U32) : (packWord o a b d).toNat =
    o.toNat * 2 ^ 56 + a.toNat * 2 ^ 48 + b.toNat * 2 ^ 40 + d.toNat := by
  unfold packWord
  rw [BitVec.toNat_append, BitVec.toNat_append, BitVec.toNat_append, BitVec.toNat_append,
    shiftLeft_or _ _ 8 a.isLt, shiftLeft_or _ _ 8 b.isLt, shiftLeft_or _ _ 8 (0 : Byte).isLt,
    shiftLeft_or _ _ 32 d.isLt]
  have : (0 : Byte).toNat = 0 := rfl
  omega

section Extraction
variable (w : Word64)

theorem opcOf_toNat : (opcOf w).toNat = w.toNat / 2 ^ 56 := by
  unfold opcOf
  have := w.isLt
  rw [BitVec.extractLsb'_toNat, Nat.shiftRight_eq_div_pow]
  omega

theorem fieldA_toNat : (fieldA w).toNat = w.toNat / 2 ^ 48 % 256 := by
  unfold fieldA; rw [BitVec.extractLsb'_toNat, Nat.shiftRight_eq_div_pow]

theorem fieldB_toNat : (fieldB w).toNat = w.toNat / 2 ^ 40 % 256 := by
  unfold fieldB; rw [BitVec.extractLsb'_toNat, Nat.shiftRight_eq_div_pow]

theorem fieldRsv_toNat : (fieldRsv w).toNat = w.toNat / 2 ^ 32 % 256 := by
  unfold fieldRsv; rw [BitVec.extractLsb'_toNat, Nat.shiftRight_eq_div_pow]

theorem fieldD_toNat : (fieldD w).toNat = w.toNat % 2 ^ 32 := by
  unfold fieldD; rw [BitVec.extractLsb'_toNat, Nat.shiftRight_zero]

end Extraction

section PackedFields
variable (o a b : Byte) (d : U32)

@[simp] theorem opcOf_packWord : opcOf (packWord o a b d) = o := by
  apply BitVec.eq_of_toNat_eq
  rw [opcOf_toNat, packWord_toNat]
  have := a.isLt; have := b.isLt; have := d.isLt
  omega

@[simp] theorem fieldA_packWord : fieldA (packWord o a b d) = a := by
  apply BitVec.eq_of_toNat_eq
  rw [fieldA_toNat, packWord_toNat]
  have := a.isLt; have := b.isLt; have := d.isLt
  omega

@[simp] theorem fieldB_packWord : fieldB (packWord o a b d) = b := by
  apply BitVec.eq_of_toNat_eq
  rw [fieldB_toNat, packWord_toNat]
  have := a.isLt; have := b.isLt; have := d.isLt
  omega

@[simp] theorem fieldRsv_packWord : fieldRsv (packWord o a b d) = 0 := by
  apply BitVec.eq_of_toNat_eq
  rw [fieldRsv_toNat, packWord_toNat]
  have := a.isLt; have := b.isLt; have := d.isLt
  simp; omega

@[simp] theorem fieldD_packWord : fieldD (packWord o a b d) = d := by
  apply BitVec.eq_of_toNat_eq
  rw [fieldD_toNat, packWord_toNat]
  have := a.isLt; have := b.isLt; have := d.isLt
  omega

end PackedFields

/-- A word whose `RSV` is zero is the packing of its fields. -/
theorem packWord_fields (w : Word64) (h : fieldRsv w = 0) :
    packWord (opcOf w) (fieldA w) (fieldB w) (fieldD w) = w := by
  apply BitVec.eq_of_toNat_eq
  rw [packWord_toNat, opcOf_toNat, fieldA_toNat, fieldB_toNat, fieldD_toNat]
  have h' : w.toNat / 2 ^ 32 % 256 = 0 := by rw [← fieldRsv_toNat, h]; rfl
  omega

end Sys2Proof
end

