-- ==== Sys2Proof/Laws/Memory.lean ====
section
/-! SUPPORT. The delay memory: read after write, the frame of a write and of a fill, and the canonical form. -/

namespace Sys2Proof.Machine

/-! ## Reads -/

theorem dmRead_filter (m : DelayMem) (p : Nat → Bool) (k : Nat) :
    dmRead (m.filter fun e => p e.1) k = if p k then dmRead m k else 0 := by
  induction m with
  | nil => simp [dmRead]
  | cons e rest ih =>
    obtain ⟨k', v⟩ := e
    rw [List.filter_cons]
    by_cases hk : k' = k
    · subst hk
      by_cases hp : p k' = true <;> simp [hp, dmRead, ih]
    · by_cases hp : p k' = true <;> simp [hp, dmRead, hk, ih]

theorem dmRead_dmInsert_ne (m : DelayMem) {k k' : Nat} (v : F32) (h : k ≠ k') :
    dmRead (dmInsert m k v) k' = dmRead m k' := by
  induction m with
  | nil => simp [dmInsert, dmRead, h]
  | cons e rest ih =>
    obtain ⟨j, w⟩ := e
    unfold dmInsert
    split <;> simp [dmRead, ih, h]

theorem dmRead_dmInsert_self (m : DelayMem) (k : Nat) (v : F32) (h : ∀ e ∈ m, e.1 ≠ k) :
    dmRead (dmInsert m k v) k = v := by
  induction m with
  | nil => simp [dmInsert, dmRead]
  | cons e rest ih =>
    obtain ⟨j, w⟩ := e
    unfold dmInsert
    split
    · have hj : j ≠ k := h (j, w) (by simp)
      simp only [dmRead, if_neg hj]
      exact ih fun e he => h e (by simp [he])
    · simp [dmRead]

/-- Reading any slot after a write: the value written there, what was there before elsewhere. -/
@[simp] theorem dmRead_dmWrite (m : DelayMem) (k : Nat) (v : F32) (k' : Nat) :
    dmRead (dmWrite m k v) k' = if k = k' then v else dmRead m k' := by
  have hf := dmRead_filter m (fun j => j != k)
  unfold dmWrite
  by_cases hv : v = 0
  · simp only [hv, if_true]
    rw [hf]
    by_cases h : k = k'
    · simp [h]
    · simp [h, Ne.symm h]
  · simp only [hv, if_false]
    by_cases h : k = k'
    · subst h
      rw [if_pos rfl, dmRead_dmInsert_self]
      intro e he
      simpa using List.of_mem_filter he
    · rw [if_neg h, dmRead_dmInsert_ne _ _ h, hf]
      simp [Ne.symm h]

/-- Reading any slot after a fill: `+0.0` in the reachable part, what was there before elsewhere. -/
@[simp] theorem dmRead_dmZero (m : DelayMem) (nch len k : Nat) :
    dmRead (dmZero m nch len) k = if keyReachable nch len k then 0 else dmRead m k := by
  unfold dmZero
  rw [dmRead_filter m (fun j => !keyReachable nch len j)]
  cases keyReachable nch len k <;> simp

/-! ## Keys -/

theorem slotKey_inj {c i c' i' : Nat} (hc : c < 256) (hc' : c' < 256) :
    slotKey c i = slotKey c' i' ↔ c = c' ∧ i = i' := by
  unfold slotKey; omega

theorem keyReachable_slotKey (nch len c i : Nat) (hc : c < 256) :
    keyReachable nch len (slotKey c i) = true ↔ c < nch ∧ i < len := by
  unfold keyReachable slotKey
  rw [show (i * 256 + c) % 256 = c by omega, show (i * 256 + c) / 256 = i by omega]
  simp

/-! ## Canonical form -/

theorem wf_cons (k : Nat) (v : F32) (m : DelayMem) :
    Memory.wf ((k, v) :: m) = true ↔ v ≠ 0 ∧ (∀ e ∈ m, k < e.1) ∧ Memory.wf m = true := by
  rw [Memory.wf]
  simp [and_assoc]

theorem wf_filter (m : DelayMem) (p : Nat × F32 → Bool) (h : Memory.wf m = true) : Memory.wf (m.filter p) = true := by
  induction m with
  | nil => rfl
  | cons e rest ih =>
    obtain ⟨k, v⟩ := e
    rw [wf_cons] at h
    rw [List.filter_cons]
    split
    · rw [wf_cons]
      exact ⟨h.1, fun e he => h.2.1 e (List.mem_of_mem_filter he), ih h.2.2⟩
    · exact ih h.2.2

theorem mem_dmInsert (m : DelayMem) (k : Nat) (v : F32) (e : Nat × F32) (h : e ∈ dmInsert m k v) :
    e = (k, v) ∨ e ∈ m := by
  induction m with
  | nil => simpa [dmInsert] using h
  | cons e' rest ih =>
    obtain ⟨j, w⟩ := e'
    unfold dmInsert at h
    split at h
    · rcases List.mem_cons.1 h with h | h
      · right; exact List.mem_cons.2 (Or.inl h)
      · rcases ih h with h | h
        · left; exact h
        · right; exact List.mem_cons.2 (Or.inr h)
    · rcases List.mem_cons.1 h with h | h
      · left; exact h
      · right; exact h

theorem wf_dmInsert (m : DelayMem) (k : Nat) (v : F32) (h : Memory.wf m = true) (hv : v ≠ 0)
    (hk : ∀ e ∈ m, e.1 ≠ k) : Memory.wf (dmInsert m k v) = true := by
  induction m with
  | nil => rw [dmInsert, wf_cons]; exact ⟨hv, by simp, rfl⟩
  | cons e rest ih =>
    obtain ⟨j, w⟩ := e
    have h' := (wf_cons j w rest).1 h
    have hj : j ≠ k := hk (j, w) (by simp)
    unfold dmInsert
    split
    · rename_i hlt
      rw [wf_cons]
      refine ⟨h'.1, fun e he => ?_, ih h'.2.2 fun e he => hk e (by simp [he])⟩
      rcases mem_dmInsert _ _ _ _ he with rfl | he
      · exact hlt
      · exact h'.2.1 e he
    · rename_i hlt
      rw [wf_cons]
      refine ⟨hv, fun e he => ?_, h⟩
      rcases List.mem_cons.1 he with rfl | he
      · simp only; omega
      · have := h'.2.1 e he; omega

/-- A write keeps the canonical form. -/
theorem wf_dmWrite (m : DelayMem) (k : Nat) (v : F32) (h : Memory.wf m = true) :
    Memory.wf (dmWrite m k v) = true := by
  have hf := wf_filter m (fun e => e.1 != k) h
  unfold dmWrite
  by_cases hv : v = 0
  · simpa [hv] using hf
  · simp only [hv, if_false]
    apply wf_dmInsert _ _ _ hf hv
    intro e he
    simpa using List.of_mem_filter he

/-- A fill keeps the canonical form. -/
theorem wf_dmZero (m : DelayMem) (nch len : Nat) (h : Memory.wf m = true) :
    Memory.wf (dmZero m nch len) = true := wf_filter m _ h

/-- The memory after reset has the canonical form. -/
theorem wf_reset : Memory.wf State.reset.dm = true := rfl

/-! ## Slots of a state -/

/-- A write to a slot of a bank sets that slot and keeps every other (00 R11, 20 R73). -/
theorem slot_memWrite (s : State) (c : Byte) (i : Int) (v : F32) (c' i' : Nat) (hc' : c' < 256) :
    slot (memWrite s c i v) c' i' = if c' = c.toNat ∧ i' = slotIndex s i then v else slot s c' i' := by
  unfold slot memWrite
  simp only [dmRead_dmWrite]
  have hc := c.isLt
  by_cases h : slotKey c.toNat (slotIndex s i) = slotKey c' i'
  · rw [if_pos h]
    obtain ⟨h1, h2⟩ := (slotKey_inj hc hc').1 h
    rw [if_pos ⟨h1.symm, h2.symm⟩]
  · rw [if_neg h, if_neg]
    rintro ⟨h1, h2⟩
    exact h (by rw [h1, h2])

theorem memRead_eq_slot (s : State) (c : Byte) (i : Int) : memRead s c i = slot s c.toNat (slotIndex s i) := rfl

/-- The index of a natural number (40 R114). -/
theorem slotIndex_natCast (s : State) (i : Nat) : slotIndex s (i : Int) = i % s.prep.len.toNat := by
  unfold slotIndex
  norm_cast

/-- Every index is below `LEN` (20 R61). -/
theorem slotIndex_lt (s : State) (i : Int) (h : 0 < s.prep.len.toNat) : slotIndex s i < s.prep.len.toNat := by
  unfold slotIndex
  have h1 := Int.emod_lt_of_pos i (show (0 : ℤ) < s.prep.len.toNat by exact_mod_cast h)
  have h2 := Int.emod_nonneg i (show (s.prep.len.toNat : ℤ) ≠ 0 by omega)
  omega

end Sys2Proof.Machine
end

