-- ==== Sys2Proof/Laws/Rounding.lean ====
section
/-! SUPPORT. Rounding on natural numbers: exactness, monotonicity and nearness of `roundMag` (40 R103). -/

namespace Sys2Proof.Machine

/-- The magnitude in units of the pattern with bits [30:0] equal to `m`. -/
def magOf (m : Nat) : Nat :=
  if m / 2 ^ 23 = 0 then m % 2 ^ 23 else (2 ^ 23 + m % 2 ^ 23) * 2 ^ (m / 2 ^ 23 - 1)

theorem one149_pos : 0 < one149 := Nat.pos_of_ne_zero (by simp [one149])

/-- `roundHalfEven n d` is a nearest integer to `n / d`, even at a tie. -/
theorem roundHalfEven_spec (n d : Nat) (hd : 0 < d) :
    2 * n ≤ 2 * roundHalfEven n d * d + d ∧ 2 * roundHalfEven n d * d ≤ 2 * n + d ∧
      ((2 * n = 2 * roundHalfEven n d * d + d ∨ 2 * roundHalfEven n d * d = 2 * n + d) →
        roundHalfEven n d % 2 = 0) := by
  have hdiv := Nat.div_add_mod n d
  have hlt := Nat.mod_lt n hd
  unfold roundHalfEven
  generalize n / d = f at *
  generalize n % d = r at *
  have e1 : 2 * f * d = 2 * (d * f) := by ring
  have e2 : 2 * (f + 1) * d = 2 * (d * f) + 2 * d := by ring
  simp only
  split
  · rw [e1]; omega
  · split
    · rw [e2]; omega
    · rcases Nat.mod_two_eq_zero_or_one f with h | h <;> rw [h]
      · simp only [Nat.add_zero]; rw [e1]; omega
      · rw [e2]; omega

theorem roundHalfEven_mono {n d n' d' : Nat} (hd : 0 < d) (hd' : 0 < d') (h : n * d' ≤ n' * d) :
    roundHalfEven n d ≤ roundHalfEven n' d' := by
  obtain ⟨-, hb, ht⟩ := roundHalfEven_spec n d hd
  obtain ⟨ha', -, ht'⟩ := roundHalfEven_spec n' d' hd'
  generalize roundHalfEven n d = r at *
  generalize roundHalfEven n' d' = r' at *
  by_contra hlt
  rw [Nat.not_le] at hlt
  have k1 : 2 * r * d * d' ≤ (2 * n + d) * d' := Nat.mul_le_mul_right _ hb
  have k2 : 2 * n' * d ≤ (2 * r' * d' + d') * d := Nat.mul_le_mul_right _ ha'
  have hdd : 0 < d * d' := Nat.mul_pos hd hd'
  have k3 : 2 * r * (d * d') ≤ (2 * r' + 2) * (d * d') := by linarith
  have hr : r ≤ r' + 1 := by
    have := Nat.le_of_mul_le_mul_right k3 hdd
    omega
  have hr1 : r = r' + 1 := by omega
  subst hr1
  have e1 : 2 * (r' + 1) * d = 2 * n + d := by
    apply le_antisymm hb
    apply Nat.le_of_mul_le_mul_right _ hd'
    linarith
  have e2 : 2 * n' = 2 * r' * d' + d' := by
    apply le_antisymm ha'
    apply Nat.le_of_mul_le_mul_right _ hd
    linarith
  have := ht (Or.inr e1)
  have := ht' (Or.inl e2)
  omega

theorem roundHalfEven_mul (r d : Nat) (hd : 0 < d) : roundHalfEven (r * d) d = r := by
  unfold roundHalfEven
  simp [Nat.mul_div_cancel _ hd, hd]

/-- The number of binades above the lowest. -/
def binade (v : Nat) : Nat := Nat.log2 v - 23

theorem binade_mono {v v' : Nat} (h : v ≤ v') : binade v ≤ binade v' := by
  unfold binade
  have : Nat.log2 v ≤ Nat.log2 v' := by
    rw [Nat.log2_eq_log_two, Nat.log2_eq_log_two]; exact Nat.log_mono_right h
  omega

theorem lt_two_pow_binade (v : Nat) : v < 2 ^ (binade v + 24) := by
  have h := Nat.lt_log2_self (n := v)
  refine lt_of_lt_of_le h (Nat.pow_le_pow_right (by norm_num) ?_)
  unfold binade; omega

theorem two_pow_binade_le {v : Nat} (h : 0 < binade v) : 2 ^ (binade v + 23) ≤ v := by
  have hv : v ≠ 0 := by rintro rfl; simp [binade] at h
  have := Nat.log2_self_le hv
  have e : binade v + 23 = Nat.log2 v := by unfold binade at *; omega
  rw [e]; exact this

/-- The significand stays within one binade. -/
theorem significand_le (n d : Nat) (hd : 0 < d) :
    roundHalfEven n (d * 2 ^ binade (n / d)) ≤ 2 ^ 24 := by
  have hp : 0 < d * 2 ^ binade (n / d) := Nat.mul_pos hd (Nat.two_pow_pos _)
  have h := lt_two_pow_binade (n / d)
  have h2 : n < 2 ^ (binade (n / d) + 24) * d := (Nat.div_lt_iff_lt_mul hd).1 h
  have h3 := roundHalfEven_mono (n := n) (d := d * 2 ^ binade (n / d)) (n' := 2 ^ 24) (d' := 1) hp one_pos (by
    rw [pow_add] at h2; nlinarith)
  have h4 := roundHalfEven_mul (2 ^ 24) 1 one_pos
  simp only [Nat.mul_one] at h4
  omega

theorem le_significand (n d : Nat) (hd : 0 < d) (hb : 0 < binade (n / d)) :
    2 ^ 23 ≤ roundHalfEven n (d * 2 ^ binade (n / d)) := by
  have hp : 0 < d * 2 ^ binade (n / d) := Nat.mul_pos hd (Nat.two_pow_pos _)
  have h := two_pow_binade_le hb
  have h2 : 2 ^ (binade (n / d) + 23) * d ≤ n := (Nat.le_div_iff_mul_le hd).1 h
  have h3 := roundHalfEven_mono (n := 2 ^ 23) (d := 1) (n' := n) (d' := d * 2 ^ binade (n / d)) one_pos hp (by
    rw [pow_add] at h2; nlinarith)
  have h4 := roundHalfEven_mul (2 ^ 23) 1 one_pos
  simp only [Nat.mul_one] at h4
  omega

theorem roundMag_eq (n d : Nat) :
    roundMag n d = min (binade (n / d) * 2 ^ 23 + roundHalfEven n (d * 2 ^ binade (n / d))) 0x7F800000 := rfl

theorem roundMag_le (n d : Nat) : roundMag n d ≤ 0x7F800000 := by
  rw [roundMag_eq]; exact min_le_right _ _

/-- Rounding never reorders results (40 R116). -/
theorem roundMag_mono {n d n' d' : Nat} (hd : 0 < d) (hd' : 0 < d') (h : n * d' ≤ n' * d) :
    roundMag n d ≤ roundMag n' d' := by
  have hv : n / d ≤ n' / d' := by
    rw [Nat.le_div_iff_mul_le hd']
    apply Nat.le_of_mul_le_mul_right _ hd
    calc n / d * d' * d = n / d * d * d' := by ring
      _ ≤ n * d' := Nat.mul_le_mul_right _ (Nat.div_mul_le_self n d)
      _ ≤ n' * d := h
  have hk := binade_mono hv
  rw [roundMag_eq, roundMag_eq]
  apply min_le_min_right
  rcases Nat.eq_or_lt_of_le hk with e | l
  · rw [e]
    apply Nat.add_le_add_left
    apply roundHalfEven_mono (Nat.mul_pos hd (Nat.two_pow_pos _)) (Nat.mul_pos hd' (Nat.two_pow_pos _))
    calc n * (d' * 2 ^ binade (n' / d')) = n * d' * 2 ^ binade (n' / d') := by ring
      _ ≤ n' * d * 2 ^ binade (n' / d') := Nat.mul_le_mul_right _ h
      _ = n' * (d * 2 ^ binade (n' / d')) := by ring
  · have a := significand_le n d hd
    have b := le_significand n' d' hd' (by omega)
    omega

/-- Rounding depends on the value of the fraction alone. -/
theorem roundMag_congr {n d n' d' : Nat} (hd : 0 < d) (hd' : 0 < d') (h : n * d' = n' * d) :
    roundMag n d = roundMag n' d' :=
  le_antisymm (roundMag_mono hd hd' h.le) (roundMag_mono hd' hd h.ge)

theorem log2_mul_pow (s k : Nat) (hl : 2 ^ 23 ≤ s) (hu : s < 2 ^ 24) : Nat.log2 (s * 2 ^ k) = k + 23 := by
  rw [Nat.log2_eq_log_two, Nat.log_eq_iff (by right; constructor <;> [norm_num; positivity])]
  constructor
  · rw [pow_add, mul_comm]; exact Nat.mul_le_mul_right _ hl
  · rw [show k + 23 + 1 = 24 + k by ring, pow_add]
    exact Nat.mul_lt_mul_of_pos_right hu (Nat.two_pow_pos _)

/-- A representable magnitude rounds to its own pattern. -/
theorem roundMag_exact (m c : Nat) (hc : 0 < c) (hm : m < 0x7F800000) : roundMag (magOf m * c) c = m := by
  rw [roundMag_eq, Nat.mul_div_cancel _ hc]
  have hmod := Nat.mod_lt m (show 0 < 2 ^ 23 by norm_num)
  have hdm := Nat.div_add_mod m (2 ^ 23)
  unfold magOf
  split
  · rename_i h0
    have hb : binade (m % 2 ^ 23) = 0 := by
      unfold binade
      have : Nat.log2 (m % 2 ^ 23) < 23 ∨ m % 2 ^ 23 = 0 := by
        by_cases hz : m % 2 ^ 23 = 0
        · right; exact hz
        · left; exact (Nat.log2_lt hz).2 hmod
      rcases this with h | h
      · omega
      · rw [h]; simp
    rw [hb, pow_zero, mul_one, roundHalfEven_mul _ _ hc]
    omega
  · rename_i h0
    have hlog := log2_mul_pow (2 ^ 23 + m % 2 ^ 23) (m / 2 ^ 23 - 1) (by omega) (by omega)
    have hb : binade ((2 ^ 23 + m % 2 ^ 23) * 2 ^ (m / 2 ^ 23 - 1)) = m / 2 ^ 23 - 1 := by
      unfold binade; rw [hlog]; omega
    rw [hb]
    have e : (2 ^ 23 + m % 2 ^ 23) * 2 ^ (m / 2 ^ 23 - 1) * c
        = (2 ^ 23 + m % 2 ^ 23) * (c * 2 ^ (m / 2 ^ 23 - 1)) := by ring
    rw [e, roundHalfEven_mul _ _ (Nat.mul_pos hc (Nat.two_pow_pos _))]
    omega

/-- Magnitudes grow with their patterns. -/
theorem magOf_succ (m : Nat) : magOf m < magOf (m + 1) := by
  unfold magOf
  have hp : 0 < 2 ^ (m / 2 ^ 23 - 1) := Nat.two_pow_pos _
  by_cases hw : m % 2 ^ 23 = 2 ^ 23 - 1
  · have h1 : (m + 1) / 2 ^ 23 = m / 2 ^ 23 + 1 := by omega
    have h2 : (m + 1) % 2 ^ 23 = 0 := by omega
    rw [h1, h2, hw]
    rcases Nat.eq_zero_or_pos (m / 2 ^ 23) with h0 | h0
    · rw [h0]; norm_num
    · rw [if_neg (by omega), if_neg (by omega)]
      have : m / 2 ^ 23 + 1 - 1 = m / 2 ^ 23 - 1 + 1 := by omega
      rw [this, pow_succ 2 (m / 2 ^ 23 - 1)]
      generalize 2 ^ (m / 2 ^ 23 - 1) = q at *
      norm_num
      omega
  · have h1 : (m + 1) / 2 ^ 23 = m / 2 ^ 23 := by omega
    have h2 : (m + 1) % 2 ^ 23 = m % 2 ^ 23 + 1 := by omega
    rw [h1, h2]
    split
    · omega
    · exact Nat.mul_lt_mul_of_pos_right (by omega) hp

theorem magOf_strictMono : StrictMono magOf := strictMono_nat_of_lt_succ magOf_succ

/-- A pattern made of a binade and a significand has the magnitude they stand for. -/
theorem magOf_binade (k r : Nat) (hk : k = 0 ∨ 2 ^ 23 ≤ r) (hr : r ≤ 2 ^ 24) :
    magOf (k * 2 ^ 23 + r) = r * 2 ^ k := by
  unfold magOf
  rcases Nat.lt_or_ge r (2 ^ 23) with h | h
  · have hk0 : k = 0 := by omega
    subst hk0
    rw [if_pos (by omega)]
    have : (0 * 2 ^ 23 + r) % 2 ^ 23 = r := by omega
    rw [this]; ring
  · rcases Nat.eq_or_lt_of_le hr with e | l
    · subst e
      have h1 : (k * 2 ^ 23 + 2 ^ 24) / 2 ^ 23 = k + 2 := by omega
      have h2 : (k * 2 ^ 23 + 2 ^ 24) % 2 ^ 23 = 0 := by omega
      rw [h1, h2, if_neg (by omega), show k + 2 - 1 = k + 1 by omega, pow_succ]; ring
    · have h1 : (k * 2 ^ 23 + r) / 2 ^ 23 = k + 1 := by omega
      have h2 : (k * 2 ^ 23 + r) % 2 ^ 23 = r - 2 ^ 23 := by omega
      rw [h1, h2, if_neg (by omega), Nat.add_sub_cancel, Nat.add_sub_of_le h]

/-- The magnitude of a rounded fraction below overflow. -/
theorem magOf_roundMag (n d : Nat) (hd : 0 < d) (h : roundMag n d < 0x7F800000) :
    magOf (roundMag n d) = roundHalfEven n (d * 2 ^ binade (n / d)) * 2 ^ binade (n / d) := by
  have e : roundMag n d = binade (n / d) * 2 ^ 23 + roundHalfEven n (d * 2 ^ binade (n / d)) := by
    rw [roundMag_eq] at h ⊢; omega
  rw [e]
  apply magOf_binade _ _ _ (significand_le n d hd)
  rcases Nat.eq_zero_or_pos (binade (n / d)) with h0 | h0
  · left; exact h0
  · right; exact le_significand n d hd h0

/-! ## Nearness and overflow (40 R103) -/

/-- A magnitude is a multiple of the spacing `2^k`, or below the binade that has it. -/
theorem magOf_grid (m k : Nat) : (∃ j, magOf m = j * 2 ^ k) ∨ (0 < k ∧ magOf m < 2 ^ (k + 23)) := by
  have hmod := Nat.mod_lt m (show 0 < 2 ^ 23 by norm_num)
  unfold magOf
  rcases Nat.eq_zero_or_pos k with rfl | hk
  · left; exact ⟨_, by rw [pow_zero, mul_one]⟩
  · split
    · right
      exact ⟨hk, lt_of_lt_of_le hmod (Nat.pow_le_pow_right (by norm_num) (by omega))⟩
    · rcases Nat.lt_or_ge (m / 2 ^ 23 - 1) k with h | h
      · right
        refine ⟨hk, ?_⟩
        have h1 : (2 ^ 23 + m % 2 ^ 23) * 2 ^ (m / 2 ^ 23 - 1) < 2 ^ 24 * 2 ^ (m / 2 ^ 23 - 1) :=
          Nat.mul_lt_mul_of_pos_right (by omega) (Nat.two_pow_pos _)
        refine lt_of_lt_of_le h1 ?_
        rw [← pow_add]
        exact Nat.pow_le_pow_right (by norm_num) (by omega)
      · left
        exact ⟨(2 ^ 23 + m % 2 ^ 23) * 2 ^ (m / 2 ^ 23 - 1 - k), by
          rw [mul_assoc, ← pow_add, Nat.sub_add_cancel h]⟩

/-- `roundHalfEven n d` is as near to `n / d` as any integer, and even where another is as near. -/
theorem roundHalfEven_nearest (n d j : Nat) (hd : 0 < d) :
    |(roundHalfEven n d * d : ℤ) - n| ≤ |(j * d : ℤ) - n| ∧
      (|(roundHalfEven n d * d : ℤ) - n| = |(j * d : ℤ) - n| → j ≠ roundHalfEven n d → roundHalfEven n d % 2 = 0) := by
  obtain ⟨h1, h2, h3⟩ := roundHalfEven_spec n d hd
  generalize roundHalfEven n d = r at *
  rw [Int.abs_eq_natAbs, Int.abs_eq_natAbs]
  have hr : ((r : ℤ) * d) = ((r * d : ℕ) : ℤ) := by push_cast; rfl
  have hj : ((j : ℤ) * d) = ((j * d : ℕ) : ℤ) := by push_cast; rfl
  rw [mul_assoc] at h1 h2 h3
  rw [hr, hj]
  rcases Nat.lt_trichotomy j r with h | rfl | h
  · have := Nat.mul_le_mul_right d (Nat.succ_le_of_lt h)
    rw [Nat.succ_mul] at this
    generalize r * d = R at *
    generalize j * d = J at *
    omega
  · exact ⟨le_refl _, fun _ h => absurd rfl h⟩
  · have := Nat.mul_le_mul_right d (Nat.succ_le_of_lt h)
    rw [Nat.succ_mul] at this
    generalize r * d = R at *
    generalize j * d = J at *
    omega

/-- Below overflow, `roundMag n d` is the pattern of a magnitude nearest to `n / d`, and an even one where another
magnitude is as near (40 R103). -/
theorem roundMag_nearest (n d m : Nat) (hd : 0 < d) (h : roundMag n d < 0x7F800000) :
    |(magOf (roundMag n d) * d : ℤ) - n| ≤ |(magOf m * d : ℤ) - n| ∧
      (|(magOf (roundMag n d) * d : ℤ) - n| = |(magOf m * d : ℤ) - n| → magOf m ≠ magOf (roundMag n d) →
        roundMag n d % 2 = 0) := by
  have e1 := magOf_roundMag n d hd h
  have e2 : roundMag n d % 2 = roundHalfEven n (d * 2 ^ binade (n / d)) % 2 := by
    rw [roundMag_eq] at h ⊢; omega
  rw [e1, e2]
  set k := binade (n / d) with hk
  have hD : 0 < d * 2 ^ k := Nat.mul_pos hd (Nat.two_pow_pos _)
  have key := fun j => roundHalfEven_nearest n (d * 2 ^ k) j hD
  generalize roundHalfEven n (d * 2 ^ k) = r at *
  have er : ((r * 2 ^ k : ℕ) * d : ℤ) = (r * (d * 2 ^ k : ℕ) : ℤ) := by push_cast; ring
  rw [er]
  rcases magOf_grid m k with ⟨j, hj⟩ | ⟨hk0, hlt⟩
  · have ej : (magOf m * d : ℤ) = (j * (d * 2 ^ k : ℕ) : ℤ) := by rw [hj]; push_cast; ring
    rw [ej]
    refine ⟨(key j).1, fun he hne => (key j).2 he ?_⟩
    rintro rfl
    exact hne hj
  · have hb : 2 ^ (k + 23) * d ≤ n := (Nat.le_div_iff_mul_le hd).1 (two_pow_binade_le hk0)
    have k1 := (key (2 ^ 23)).1
    have eg : ((2 ^ 23 : ℕ) * (d * 2 ^ k : ℕ) : ℤ) = ((2 ^ (k + 23) * d : ℕ) : ℤ) := by
      push_cast; rw [pow_add]; ring
    rw [eg] at k1
    have hm : magOf m * d < 2 ^ (k + 23) * d := Nat.mul_lt_mul_of_pos_right hlt hd
    have hm' : (magOf m * d : ℤ) < ((2 ^ (k + 23) * d : ℕ) : ℤ) := by exact_mod_cast hm
    have hb' : ((2 ^ (k + 23) * d : ℕ) : ℤ) ≤ n := by exact_mod_cast hb
    have hlt2 : |(r * (d * 2 ^ k : ℕ) : ℤ) - n| < |(magOf m * d : ℤ) - n| := by
      rw [abs_of_nonpos (by linarith : (magOf m * d : ℤ) - n ≤ 0)]
      rw [abs_of_nonpos (by linarith : ((2 ^ (k + 23) * d : ℕ) : ℤ) - n ≤ 0)] at k1
      linarith
    exact ⟨hlt2.le, fun he => absurd he hlt2.ne⟩

/-- Rounding overflows exactly from half a spacing above the largest finite magnitude on (40 R103). -/
theorem roundMag_overflow (n d : Nat) (hd : 0 < d) :
    roundMag n d = 0x7F800000 ↔ (2 ^ 25 - 1) * 2 ^ 252 * d ≤ n := by
  constructor
  · intro h
    by_contra hc
    rw [Nat.not_le] at hc
    have hle := significand_le n d hd
    rw [roundMag_eq] at h
    have hdiv : n / d < 2 ^ (252 + 25) := by
      rw [Nat.div_lt_iff_lt_mul hd, pow_add]
      refine lt_of_lt_of_le hc (Nat.mul_le_mul_right _ ?_)
      rw [Nat.mul_comm]
      exact Nat.mul_le_mul_left _ (by norm_num)
    have hb : binade (n / d) ≤ 253 := by
      unfold binade
      rcases Nat.eq_zero_or_pos (n / d) with hz | hp
      · rw [hz]; simp
      · have := (Nat.log2_lt hp.ne').2 hdiv
        omega
    rcases Nat.lt_or_ge (binade (n / d)) 253 with hl | hg
    · omega
    · have hb' : binade (n / d) = 253 := by omega
      rw [hb'] at h hle
      have hD : 0 < d * 2 ^ 253 := Nat.mul_pos hd (Nat.two_pow_pos _)
      obtain ⟨-, h2, -⟩ := roundHalfEven_spec n (d * 2 ^ 253) hD
      generalize roundHalfEven n (d * 2 ^ 253) = r at *
      have hr : r = 2 ^ 24 := by omega
      subst hr
      rw [show 2 ^ 253 = 2 * 2 ^ 252 from by rw [← pow_succ']] at h2
      generalize 2 ^ 252 = p at *
      have e : 2 * 2 ^ 24 * (d * (2 * p)) = 2 * (2 ^ 25 * (p * d)) := by ring
      have e2 : d * (2 * p) = 2 * (p * d) := by ring
      have e3 : (2 ^ 25 - 1) * p * d = (2 ^ 25 - 1) * (p * d) := by ring
      rw [e, e2] at h2
      rw [e3] at hc
      omega
  · intro h
    apply le_antisymm (roundMag_le n d)
    have h2 := roundMag_mono (n := (2 ^ 25 - 1) * 2 ^ 252) (d := 1) (n' := n) (d' := d) one_pos hd (by rw [Nat.mul_one]; exact h)
    have h3 : roundMag ((2 ^ 25 - 1) * 2 ^ 252) 1 = 0x7F800000 := by decide +kernel
    omega

end Sys2Proof.Machine
end

