-- ==== Sys2Proof/Laws/Numerics.lean ====
section
/-! SUPPORT. Patterns, exact values and the operations of `NUM` (40), each said once. -/

namespace Sys2Proof.Machine

/-! ## Patterns -/

/-- Bits [30:0] of a pattern. -/
def magBits (a : F32) : Nat := a.toNat % 2 ^ 31

theorem magBits_lt (a : F32) : magBits a < 2 ^ 31 := Nat.mod_lt _ (by norm_num)

theorem expo_eq (a : F32) : expo a = magBits a / 2 ^ 23 := by
  unfold expo magBits
  simp [BitVec.extractLsb'_toNat, Nat.shiftRight_eq_div_pow]
  omega

theorem fraction_eq (a : F32) : fraction a = magBits a % 2 ^ 23 := by
  unfold fraction magBits
  simp [BitVec.extractLsb'_toNat]

theorem signBit_eq (a : F32) : signBit a = decide (2 ^ 31 ≤ a.toNat) := by
  unfold signBit
  rw [BitVec.msb_eq_decide]

theorem magUnits_eq (a : F32) : magUnits a = magOf (magBits a) := by
  unfold magUnits magOf
  rw [expo_eq, fraction_eq]

theorem isFinite_iff (a : F32) : isFinite a = true ↔ magBits a < 0x7F800000 := by
  unfold isFinite
  rw [expo_eq]
  have := magBits_lt a
  simp only [bne_iff_ne, ne_eq]
  omega

theorem isNaN_iff (a : F32) : isNaN a = true ↔ 0x7F800000 < magBits a := by
  unfold isNaN
  rw [expo_eq, fraction_eq]
  have := magBits_lt a
  simp only [Bool.and_eq_true, beq_iff_eq, bne_iff_ne, ne_eq]
  omega

theorem isInf_iff (a : F32) : isInf a = true ↔ magBits a = 0x7F800000 := by
  unfold isInf
  rw [expo_eq, fraction_eq]
  have := magBits_lt a
  simp only [Bool.and_eq_true, beq_iff_eq]
  omega

theorem isZero_iff (a : F32) : isZero a = true ↔ magBits a = 0 := by
  unfold isZero
  rw [expo_eq, fraction_eq]
  have := magBits_lt a
  simp only [Bool.and_eq_true, beq_iff_eq]
  omega

theorem isNaN_of_isFinite {a : F32} (h : isFinite a = true) : isNaN a = false := by
  rw [isFinite_iff] at h
  by_contra hc
  rw [Bool.not_eq_false, isNaN_iff] at hc
  omega

theorem isInf_of_isFinite {a : F32} (h : isFinite a = true) : isInf a = false := by
  rw [isFinite_iff] at h
  by_contra hc
  rw [Bool.not_eq_false, isInf_iff] at hc
  omega

/-- The pattern with a sign and bits [30:0]. -/
def pattern (s : Bool) (m : Nat) : F32 := BitVec.ofNat 32 (if s then 2 ^ 31 + m else m)

theorem pattern_toNat (s : Bool) (m : Nat) (h : m < 2 ^ 31) :
    (pattern s m).toNat = if s then 2 ^ 31 + m else m := by
  unfold pattern
  rw [BitVec.toNat_ofNat]
  apply Nat.mod_eq_of_lt
  split <;> omega

theorem magBits_pattern (s : Bool) (m : Nat) (h : m < 2 ^ 31) : magBits (pattern s m) = m := by
  unfold magBits
  rw [pattern_toNat s m h]
  split <;> omega

theorem signBit_pattern (s : Bool) (m : Nat) (h : m < 2 ^ 31) : signBit (pattern s m) = s := by
  rw [signBit_eq, pattern_toNat s m h]
  cases s
  · simpa using h
  · simp

theorem pattern_eta (a : F32) : pattern (signBit a) (magBits a) = a := by
  apply BitVec.eq_of_toNat_eq
  rw [pattern_toNat _ _ (magBits_lt a), signBit_eq]
  have := a.isLt
  unfold magBits
  by_cases h : 2 ^ 31 ≤ a.toNat
  · rw [decide_eq_true h, if_pos rfl]; omega
  · rw [decide_eq_false h, if_neg (by simp)]; omega

theorem units_pattern (s : Bool) (m : Nat) (h : m < 2 ^ 31) :
    units (pattern s m) = if s then -(magOf m : ℤ) else (magOf m : ℤ) := by
  unfold units
  rw [signBit_pattern s m h, magUnits_eq, magBits_pattern s m h]

theorem magOf_pos {m : Nat} (h : 0 < m) : 0 < magOf m := by
  have := magOf_strictMono h
  omega

theorem natAbs_units (a : F32) : (units a).natAbs = magOf (magBits a) := by
  unfold units
  rw [magUnits_eq]
  split <;> simp

theorem units_of_nonneg {a : F32} (h : 0 ≤ units a) : units a = (magOf (magBits a) : ℤ) := by
  rw [← natAbs_units]; omega

theorem units_eq_zero_iff (a : F32) : units a = 0 ↔ isZero a = true := by
  rw [isZero_iff, ← Int.natAbs_eq_zero, natAbs_units]
  constructor
  · intro h
    by_contra hc
    have := magOf_pos (Nat.pos_of_ne_zero hc)
    omega
  · intro h; rw [h]; rfl

/-! ## Exact values -/

theorem one149_rat_pos : (0 : ℚ) < (one149 : ℚ) := by exact_mod_cast one149_pos

theorem val_le_val (a b : F32) : val a ≤ val b ↔ units a ≤ units b := by
  unfold val
  rw [div_le_div_iff_of_pos_right one149_rat_pos]
  exact_mod_cast Iff.rfl

theorem val_lt_val (a b : F32) : val a < val b ↔ units a < units b := by
  unfold val
  rw [div_lt_div_iff_of_pos_right one149_rat_pos]
  exact_mod_cast Iff.rfl

theorem val_inj (a b : F32) : val a = val b ↔ units a = units b := by
  rw [le_antisymm_iff, le_antisymm_iff, val_le_val, val_le_val]

theorem val_nonneg_iff (a : F32) : 0 ≤ val a ↔ 0 ≤ units a := by
  have := val_le_val 0 a
  simpa [val, units, magUnits, expo, fraction, signBit] using this

/-- A bound by the value of a pattern is a bound on units. -/
theorem val_le_of (a g : F32) (q : ℚ) (hq : val g = q) : val a ≤ q ↔ units a ≤ units g := by
  rw [← hq, val_le_val]

theorem val_lt_of (a g : F32) (q : ℚ) (hq : val g = q) : val a < q ↔ units a < units g := by
  rw [← hq, val_lt_val]

theorem le_val_of (a g : F32) (q : ℚ) (hq : val g = q) : q ≤ val a ↔ units g ≤ units a := by
  rw [← hq, val_le_val]

/-- The values of the patterns the rules name. -/
theorem val_constants :
    val 0x00000000 = 0 ∧ val 0x3F000000 = 1 / 2 ∧ val 0x3E800000 = 1 / 4 ∧ val 0x3F400000 = 3 / 4 ∧
    val 0x3F800000 = 1 ∧ val 0x3FC00000 = 3 / 2 ∧ val 0x40000000 = 2 ∧ val 0x40400000 = 3 ∧
    val 0x40A00000 = 5 ∧ val 0x41200000 = 10 ∧ val 0x41C80000 = 25 := by
  decide +kernel

theorem val_zero : val 0x00000000 = 0 := val_constants.1
theorem val_half : val 0x3F000000 = 1 / 2 := val_constants.2.1
theorem val_quarter : val 0x3E800000 = 1 / 4 := val_constants.2.2.1
theorem val_three_quarters : val 0x3F400000 = 3 / 4 := val_constants.2.2.2.1
theorem val_one : val 0x3F800000 = 1 := val_constants.2.2.2.2.1
theorem val_three_halves : val 0x3FC00000 = 3 / 2 := val_constants.2.2.2.2.2.1
theorem val_two : val 0x40000000 = 2 := val_constants.2.2.2.2.2.2.1
theorem val_three : val 0x40400000 = 3 := val_constants.2.2.2.2.2.2.2.1
theorem val_five : val 0x40A00000 = 5 := val_constants.2.2.2.2.2.2.2.2.1
theorem val_ten : val 0x41200000 = 10 := val_constants.2.2.2.2.2.2.2.2.2.1
theorem val_twenty_five : val 0x41C80000 = 25 := val_constants.2.2.2.2.2.2.2.2.2.2

/-- A pattern whose value is an integer has that many ones of units. -/
theorem units_of_val {f : F32} {k : ℤ} (h : val f = (k : ℚ)) : units f = k * one149 := by
  unfold val at h
  rw [div_eq_iff (Nat.cast_ne_zero.2 one149_pos.ne')] at h
  exact_mod_cast h

theorem units_one : units 0x3F800000 = (one149 : ℤ) := by
  rw [units_of_val (k := 1) (by rw [val_one, Int.cast_one]), one_mul]

/-! ## Representable magnitudes -/

/-- Every magnitude is a significand below `2^24` times a power of two. -/
theorem magOf_eq_mul_pow (m : Nat) (hm : m < 0x7F800000) :
    ∃ s k, s < 2 ^ 24 ∧ k ≤ 253 ∧ magOf m = s * 2 ^ k := by
  unfold magOf
  split
  · exact ⟨m % 2 ^ 23, 0, by omega, by omega, by simp⟩
  · exact ⟨2 ^ 23 + m % 2 ^ 23, m / 2 ^ 23 - 1, by omega, by omega, rfl⟩

/-- Every such product is a magnitude. -/
theorem exists_magOf (k : Nat) : ∀ s, s < 2 ^ 24 → k ≤ 253 → ∃ m, m < 0x7F800000 ∧ magOf m = s * 2 ^ k := by
  induction k with
  | zero =>
    intro s hs _
    refine ⟨s, by omega, ?_⟩
    have := magOf_binade 0 s (Or.inl rfl) hs.le
    simpa using this
  | succ k ih =>
    intro s hs hk
    by_cases h : s < 2 ^ 23
    · obtain ⟨m, hm, e⟩ := ih (2 * s) (by omega) (by omega)
      exact ⟨m, hm, by rw [e, pow_succ]; ring⟩
    · refine ⟨(k + 1) * 2 ^ 23 + s, by omega, ?_⟩
      exact magOf_binade (k + 1) s (Or.inr (by omega)) hs.le

/-- The remainder of a magnitude by `n * 2^149` is a magnitude (40 R109, R111). -/
theorem exists_magOf_mod (m n : Nat) (hm : m < 0x7F800000) (hn : n ≤ 2 ^ 24) (hn0 : 0 < n) :
    ∃ m', m' < 0x7F800000 ∧ magOf m' = magOf m % (n * one149) := by
  obtain ⟨s, k, hs, hk, e⟩ := magOf_eq_mul_pow m hm
  rw [e]
  rcases Nat.le_total k 149 with h | h
  · have e2 : n * one149 = n * 2 ^ (149 - k) * 2 ^ k := by
      unfold one149
      rw [mul_assoc, ← pow_add, Nat.sub_add_cancel h]
    rw [e2, Nat.mul_mod_mul_right]
    exact exists_magOf k _ (lt_of_le_of_lt (Nat.mod_le _ _) hs) hk
  · have e2 : s * 2 ^ k = s * 2 ^ (k - 149) * one149 := by
      unfold one149
      rw [mul_assoc, ← pow_add, Nat.sub_add_cancel h]
    rw [e2, Nat.mul_mod_mul_right]
    exact exists_magOf 149 _ (lt_of_lt_of_le (Nat.mod_lt _ hn0) hn) (by norm_num)

/-! ## Rounding -/

@[simp] theorem flush_eq (a : F32) : flush Config.ftz a = a := by
  simp [flush, Config.ftz]

theorem rndq_eq_pattern (n : ℤ) (d : Nat) :
    rndq n d = pattern (decide (n < 0)) (roundMag (n.natAbs * one149) d) := by
  unfold rndq rndqFtz pattern
  have := flush_eq
  simp only [Config.ftz] at *
  simp [flush]

theorem roundMag_lt (n d : Nat) : roundMag n d < 2 ^ 31 :=
  lt_of_le_of_lt (roundMag_le n d) (by norm_num)

@[simp] theorem magBits_rndq (n : ℤ) (d : Nat) : magBits (rndq n d) = roundMag (n.natAbs * one149) d := by
  rw [rndq_eq_pattern, magBits_pattern _ _ (roundMag_lt _ _)]

@[simp] theorem signBit_rndq (n : ℤ) (d : Nat) : signBit (rndq n d) = decide (n < 0) := by
  rw [rndq_eq_pattern, signBit_pattern _ _ (roundMag_lt _ _)]

theorem isNaN_rndq (n : ℤ) (d : Nat) : isNaN (rndq n d) = false := by
  by_contra hc
  rw [Bool.not_eq_false, isNaN_iff, magBits_rndq] at hc
  have := roundMag_le (n.natAbs * one149) d
  omega

theorem units_rndq (n : ℤ) (d : Nat) :
    units (rndq n d) = if n < 0 then -(magOf (roundMag (n.natAbs * one149) d) : ℤ)
      else (magOf (roundMag (n.natAbs * one149) d) : ℤ) := by
  rw [rndq_eq_pattern, units_pattern _ _ (roundMag_lt _ _)]
  simp

theorem units_rndq_nonneg {n : ℤ} (h : 0 ≤ n) (d : Nat) : 0 ≤ units (rndq n d) := by
  rw [units_rndq, if_neg (by omega)]; positivity

/-- A fraction between zero and a finite pattern rounds to a finite pattern between them. -/
theorem rndq_le_pattern {n : ℤ} {d : Nat} (g : F32) (hg : isFinite g = true) (hg0 : 0 ≤ units g)
    (hn : 0 ≤ n) (hd : 0 < d) (h : n * one149 ≤ units g * d) :
    isFinite (rndq n d) = true ∧ 0 ≤ units (rndq n d) ∧ units (rndq n d) ≤ units g := by
  have hgm := (isFinite_iff g).1 hg
  have key : roundMag (n.natAbs * one149) d ≤ magBits g := by
    rw [← roundMag_exact (magBits g) 1 one_pos hgm]
    apply roundMag_mono hd one_pos
    rw [units_of_nonneg hg0] at h
    obtain ⟨n, rfl⟩ := Int.eq_ofNat_of_zero_le hn
    have h2 : n * one149 ≤ magOf (magBits g) * d := by exact_mod_cast h
    simpa using h2
  refine ⟨?_, units_rndq_nonneg hn d, ?_⟩
  · rw [isFinite_iff, magBits_rndq]; omega
  · rw [units_of_nonneg (units_rndq_nonneg hn d), units_of_nonneg hg0, magBits_rndq]
    exact_mod_cast magOf_strictMono.monotone key

/-- A magnitude that is representable is rounded to itself. -/
theorem rndq_exact {n : ℤ} {d m : Nat} (hm : m < 0x7F800000) (hd : 0 < d)
    (h : n.natAbs * one149 = magOf m * d) : rndq n d = pattern (decide (n < 0)) m := by
  rw [rndq_eq_pattern, h, roundMag_exact m d hd hm]

/-- Rounding the value of a finite pattern that is not `-0.0` gives it back. -/
theorem rndq_units (a : F32) (ha : isFinite a = true) (h0 : a ≠ 0x80000000) : rndq (units a) one149 = a := by
  rw [rndq_exact ((isFinite_iff a).1 ha) one149_pos (by rw [natAbs_units])]
  conv_rhs => rw [← pattern_eta a]
  congr 1
  unfold units
  rw [magUnits_eq]
  rcases Nat.eq_zero_or_pos (magBits a) with hz | hp
  · have : signBit a = false := by
      by_contra hs
      rw [Bool.not_eq_false] at hs
      apply h0
      rw [← pattern_eta a, hs, hz]; rfl
    rw [this, hz]; rfl
  · have := magOf_pos hp
    cases signBit a
    · simp
    · simp; omega

/-- The fractional part of a non-negative finite pattern is exact and in `[0,1)` (40 R109). -/
theorem fracVal_spec (a : F32) (ha : isFinite a = true) (h0 : 0 ≤ units a) :
    isFinite (fracVal a) = true ∧ units (fracVal a) = units a % (one149 : ℤ) ∧ signBit (fracVal a) = false := by
  obtain ⟨m, hm, e⟩ := exists_magOf_mod (magBits a) 1 ((isFinite_iff a).1 ha) (by norm_num) one_pos
  rw [one_mul] at e
  have hu := units_of_nonneg h0
  have hr : units a % (one149 : ℤ) = (magOf m : ℤ) := by rw [hu, e]; norm_cast
  have hx : fracVal a = pattern false m := by
    unfold fracVal
    rw [hr, rndq_exact hm one149_pos (by simp), decide_eq_false (by omega)]
  rw [hx]
  refine ⟨?_, ?_, signBit_pattern _ _ (by omega)⟩
  · rw [isFinite_iff, magBits_pattern _ _ (by omega)]; exact hm
  · rw [units_pattern _ _ (by omega), hr]; simp

/-- `pmod` lies in `[0, n]` (40 R111). -/
theorem pmod_le (t : F32) (n : Nat) (hn : 0 < n) (g : F32) (hg : isFinite g = true) (hu : units g = n * one149) :
    isFinite (pmod t n) = true ∧ 0 ≤ units (pmod t n) ∧ units (pmod t n) ≤ n * one149 := by
  have hp : (0 : ℤ) < ((n * one149 : ℕ) : ℤ) := by exact_mod_cast Nat.mul_pos hn one149_pos
  have h1 := Int.emod_nonneg (units t) hp.ne'
  have h2 := Int.emod_lt_of_pos (units t) hp
  have h := rndq_le_pattern (n := units t % ((n * one149 : ℕ) : ℤ)) (d := one149) g hg (by rw [hu]; positivity) h1 one149_pos (by
    rw [hu]
    apply Int.mul_le_mul_of_nonneg_right _ (by positivity)
    push_cast at h2 ⊢; omega)
  rw [hu] at h
  exact h

/-! ## Operations on finite patterns (40 R104 to R107) -/

theorem fadd_finite (nan a b : F32) (ha : isFinite a = true) (hb : isFinite b = true) :
    fadd nan a b = if units a + units b = 0 then zeroOf (signBit a && signBit b)
      else rndq (units a + units b) one149 := by
  unfold fadd
  simp [isNaN_of_isFinite ha, isNaN_of_isFinite hb, isInf_of_isFinite ha, isInf_of_isFinite hb]

theorem fmul_finite (nan a b : F32) (ha : isFinite a = true) (hb : isFinite b = true) :
    fmul nan a b = if units a * units b = 0 then zeroOf (signBit a ^^ signBit b)
      else rndq (units a * units b) (one149 * one149) := by
  unfold fmul
  simp [isNaN_of_isFinite ha, isNaN_of_isFinite hb, isInf_of_isFinite ha, isInf_of_isFinite hb]

theorem fneg_pattern (s : Bool) (m : Nat) (h : m < 2 ^ 31) : fneg (pattern s m) = pattern (!s) m := by
  have e : ∀ a : F32, fneg a = BitVec.cons (!a.msb) (a.setWidth 31) := by
    intro a
    unfold fneg
    ext i hi
    have hb : (0x80000000 : BitVec 32).getLsbD i = decide (i = 31) := by
      revert hi; revert i; decide
    have hb2 : (0x80000000 : BitVec 32)[i] = decide (i = 31) := hb
    simp only [BitVec.getElem_xor, BitVec.getElem_cons, BitVec.getElem_setWidth, hb2]
    by_cases h31 : i = 31
    · subst h31
      simp [BitVec.msb_eq_getLsbD_last]
    · simp [h31, BitVec.getLsbD_eq_getElem hi]
  rw [e]
  apply BitVec.eq_of_toNat_eq
  have hm := signBit_pattern s m h
  unfold signBit at hm
  rw [hm, BitVec.toNat_cons', pattern_toNat _ _ h, BitVec.toNat_setWidth, pattern_toNat _ _ h]
  cases s <;> simp <;> omega

end Sys2Proof.Machine
end

