-- ==== Sys2Proof/Laws/State.lean ====
section
/-! SUPPORT. One lemma per field of each update of the state that the meanings make. -/

namespace Sys2Proof.Machine

section Port
variable (io : Port) (st : Status) (d : U32)

@[simp] theorem answer_pending : (io.answer st d).pending = io.pending := rfl
@[simp] theorem answer_responses : (io.answer st d).responses = responseWord st d :: io.responses := rfl
@[simp] theorem answer_draws : (io.answer st d).draws = io.draws + 1 := rfl

end Port

section MemWrite
variable (s : State) (c : Byte) (i : Int) (v : F32)

@[simp] theorem memWrite_session : (memWrite s c i v).session = s.session := rfl
@[simp] theorem memWrite_blkrem : (memWrite s c i v).blkrem = s.blkrem := rfl
@[simp] theorem memWrite_err : (memWrite s c i v).err = s.err := rfl
@[simp] theorem memWrite_live : (memWrite s c i v).live = s.live := rfl
@[simp] theorem memWrite_cfg : (memWrite s c i v).cfg = s.cfg := rfl
@[simp] theorem memWrite_prep : (memWrite s c i v).prep = s.prep := rfl
@[simp] theorem memWrite_widx : (memWrite s c i v).widx = s.widx := rfl
@[simp] theorem memWrite_lfophase : (memWrite s c i v).lfophase = s.lfophase := rfl
@[simp] theorem memWrite_snap : (memWrite s c i v).snap = s.snap := rfl
@[simp] theorem memWrite_io : (memWrite s c i v).io = s.io := rfl
@[simp] theorem memWrite_dm :
    (memWrite s c i v).dm = dmWrite s.dm (slotKey c.toNat (slotIndex s i)) v := rfl

end MemWrite

section WriteReg
variable (r : Reg) (x : U32) (s : State)

@[simp] theorem writeReg_session : (writeReg r x s).session = s.session := by cases r <;> rfl
@[simp] theorem writeReg_blkrem : (writeReg r x s).blkrem = s.blkrem := by cases r <;> rfl
@[simp] theorem writeReg_prep : (writeReg r x s).prep = s.prep := by cases r <;> rfl
@[simp] theorem writeReg_widx : (writeReg r x s).widx = s.widx := by cases r <;> rfl
@[simp] theorem writeReg_lfophase : (writeReg r x s).lfophase = s.lfophase := by cases r <;> rfl
@[simp] theorem writeReg_snap : (writeReg r x s).snap = s.snap := by cases r <;> rfl
@[simp] theorem writeReg_dm : (writeReg r x s).dm = s.dm := by cases r <;> rfl
@[simp] theorem writeReg_io : (writeReg r x s).io = s.io := by cases r <;> rfl

end WriteReg

section Deliver
variable (s : State) (nbits w : Nat)

@[simp] theorem withFetchWord_pending :
    (s.withFetchWord nbits w).io.pending = tableWord nbits w :: s.io.pending := rfl
@[simp] theorem withFetchWord_responses : (s.withFetchWord nbits w).io.responses = s.io.responses := rfl
@[simp] theorem withFetchWord_draws : (s.withFetchWord nbits w).io.draws = s.io.draws := rfl
@[simp] theorem withFetchWord_dm : (s.withFetchWord nbits w).dm = s.dm := rfl
@[simp] theorem withFetchWord_session : (s.withFetchWord nbits w).session = s.session := rfl

end Deliver

section Zero

@[simp] theorem prepared_zero_fs : Prepared.zero.fs = 0 := rfl
@[simp] theorem prepared_zero_maxblk : Prepared.zero.maxblk = 0 := rfl
@[simp] theorem prepared_zero_nch : Prepared.zero.nch = 0 := rfl
@[simp] theorem prepared_zero_len : Prepared.zero.len = 0 := rfl
@[simp] theorem snapshot_zero_base : Snapshot.zero.base = 0 := rfl
@[simp] theorem snapshot_zero_sweep : Snapshot.zero.sweep = 0 := rfl
@[simp] theorem snapshot_zero_inc : Snapshot.zero.inc = 0 := rfl
@[simp] theorem snapshot_zero_fb : Snapshot.zero.fb = 0 := rfl
@[simp] theorem snapshot_zero_mix : Snapshot.zero.mix = 0 := rfl
@[simp] theorem snapshot_zero_wave : Snapshot.zero.wave = 0 := rfl
@[simp] theorem snapshot_zero_interp : Snapshot.zero.interp = 0 := rfl
@[simp] theorem snapshot_zero_inv : Snapshot.zero.inv = 0 := rfl

end Zero

end Sys2Proof.Machine
end

