-- ==== Sys2Proof/Laws/Ops.lean ====
section
/-! SUPPORT. The shared operations, each said once: answering and refusing a command, the error bits, the register
map, and what a step does with the next word. -/

namespace Sys2Proof.Machine

/-! ## Responses and refusals (30 R83, 60 R243) -/

theorem responseWord_toNat (st : Status) (d : U32) :
    (responseWord st d).toNat = st.code * 2 ^ 32 + d.toNat := by
  unfold responseWord
  rw [BitVec.toNat_append, BitVec.toNat_append, shiftLeft_or _ _ 32 d.isLt, shiftLeft_or _ _ 8 (BitVec.isLt _)]
  cases st <;> simp [Status.code]

/-- The status of a response word (30 R83). -/
theorem responseWord_status (st : Status) (d : U32) : (responseWord st d).toNat / 2 ^ 32 = st.code := by
  have := d.isLt
  rw [responseWord_toNat]; omega

/-- The data of a response word (30 R83). -/
theorem responseWord_data (st : Status) (d : U32) : (responseWord st d).toNat % 2 ^ 32 = d.toNat := by
  have := d.isLt
  rw [responseWord_toNat]; omega

theorem Status.code_inj {a b : Status} : a.code = b.code ↔ a = b := by cases a <;> cases b <;> decide

theorem Status.code_le (a : Status) : a.code ≤ 10 := by cases a <;> decide

theorem Status.code_eq_zero {a : Status} : a.code = 0 ↔ a = .ok := by cases a <;> decide

/-- A command that gives one response has answered with that response's status and data. -/
theorem answered_of_io {s t : State} {st : Status} {d : U32} (h : t.io = s.io.answer st d) :
    Answered s t st.code d := by
  unfold Answered
  rw [h]
  exact ⟨rfl, _, rfl, responseWord_toNat st d⟩

/-- The response of an answer is unique. -/
theorem answered_iff {s t : State} {st : Status} {d : U32} (h : t.io = s.io.answer st d) (k : Nat) (e : U32) :
    Answered s t k e ↔ k = st.code ∧ e = d := by
  constructor
  · rintro ⟨-, r, hr, hv⟩
    rw [h, answer_responses] at hr
    obtain ⟨rfl, -⟩ := List.cons.inj hr
    rw [responseWord_toNat] at hv
    have := d.isLt; have := e.isLt
    exact ⟨by omega, BitVec.eq_of_toNat_eq (by omega)⟩
  · rintro ⟨rfl, rfl⟩
    exact answered_of_io h

/-- The state after `respond st d` on `s`. -/
def answeredState (st : Status) (d : U32) (s : State) : State := { s with io := s.io.answer st d }

/-- The state after `raise e` on `s`. -/
def refusedState (e : Status) (s : State) : State :=
  { s with err := setErr s.err e, io := s.io.answer e 0 }

theorem respond_eq (st : Status) (d : U32) (s : State) : respond st d s = .next (answeredState st d s) := rfl

theorem raise_eq (e : Status) (s : State) : raise e s = .next (refusedState e s) := rfl

/-! ## Error bits (10 R39, 60 R243) -/

theorem setErr_bit (err : U32) (e : Status) (j : Nat) :
    (setErr err e).getLsbD j = (err.getLsbD j || j == e.code) := by
  unfold setErr
  rw [BitVec.getLsbD_or, BitVec.getLsbD_ofNat, Nat.testBit_two_pow]
  have hc := e.code_le
  by_cases h : j = e.code
  · subst h; simp; omega
  · simp [h, Ne.symm h]

theorem errMask_bit (j : Nat) : errMask.getLsbD j = decide (1 ≤ j ∧ j ≤ 10) := by
  by_cases h : j < 32
  · interval_cases j <;> decide
  · rw [BitVec.getLsbD_of_ge _ _ (by omega)]
    symm; simp; omega

theorem clearErr_bit (err v : U32) (j : Nat) :
    (clearErr err v).getLsbD j = (err.getLsbD j && !(v.getLsbD j && decide (1 ≤ j ∧ j ≤ 10))) := by
  unfold clearErr
  rw [BitVec.getLsbD_and, BitVec.getLsbD_not, BitVec.getLsbD_and, errMask_bit]
  by_cases h : j < 32
  · simp [h]
  · rw [BitVec.getLsbD_of_ge err j (by omega)]; rfl

/-- Taking the exception is being refused with its code (60 R243). -/
theorem refusedWith_refusedState (e : Status) (s : State) : RefusedWith e s (refusedState e s) :=
  ⟨rfl, setErr_bit s.err e, answered_of_io rfl⟩

/-! ## Register map (10 R26) -/

/-- A register number names a register exactly when it exists. -/
theorem ofNumber_isSome (r : Byte) : (Reg.ofNumber r).isSome = regNumberExists r := by
  revert r; decide +kernel

/-- The read-only numbers are those of the read-only registers. -/
theorem mem_readOnlyNumbers (r : Byte) :
    r ∈ readOnlyNumbers ↔ (Reg.ofNumber r).any Reg.readOnly = true := by
  revert r; decide +kernel

/-- The number of a register (10 R26). -/
def Reg.number : Reg → Byte
  | .delayms => 0x00 | .sweep => 0x01 | .speed => 0x02 | .feedback => 0x03
  | .mix => 0x04 | .waveform => 0x05 | .interp => 0x06 | .invert => 0x07
  | .cfgFs => 0x08 | .cfgMaxblk => 0x09 | .cfgNch => 0x0A
  | .status => 0x10 | .err => 0x11 | .len => 0x12 | .widx => 0x13 | .lfophase => 0x14
  | .blkrem => 0x15 | .pFs => 0x16 | .pMaxblk => 0x17 | .pNch => 0x18
  | .sBase => 0x20 | .sSweep => 0x21 | .sInc => 0x22 | .sFb => 0x23
  | .sMix => 0x24 | .sWave => 0x25 | .sInterp => 0x26 | .sInv => 0x27
  | .id => 0x30 | .capNch => 0x31 | .capLen => 0x32

theorem ofNumber_number (reg : Reg) : Reg.ofNumber reg.number = some reg := by cases reg <;> rfl

theorem number_of_ofNumber {r : Byte} {reg : Reg} (h : Reg.ofNumber r = some reg) : r = reg.number := by
  have key : ∀ r, (Reg.ofNumber r).all (fun reg => r == reg.number) = true := by decide +kernel
  simpa [h] using key r

/-- The parameter and configuration registers, in the order of the map (10 R26). -/
def Reg.written : List Reg :=
  [.delayms, .sweep, .speed, .feedback, .mix, .waveform, .interp, .invert, .cfgFs, .cfgMaxblk, .cfgNch]

/-- The status registers. -/
def Reg.statuses : List Reg :=
  [.status, .err, .len, .widx, .lfophase, .blkrem, .pFs, .pMaxblk, .pNch]

/-- The snapshot and identification registers. -/
def Reg.latched : List Reg :=
  [.sBase, .sSweep, .sInc, .sFb, .sMix, .sWave, .sInterp, .sInv, .id, .capNch, .capLen]

/-- Every register. -/
def Reg.list : List Reg := Reg.written ++ Reg.statuses ++ Reg.latched

theorem mem_list (reg : Reg) : reg ∈ Reg.list := by cases reg <;> decide

theorem registerTable_eq (s : State) : registerTable s = Reg.list.map fun reg => (reg.number, readReg reg s) := by
  simp only [Reg.list, Reg.written, Reg.statuses, Reg.latched, List.map_append, List.map_cons, List.map_nil, Reg.number, readReg]
  rfl

/-- The entries of the register table are the registers' numbers with what a read of them answers. -/
theorem mem_registerTable_iff (s : State) (r : Byte) (v : U32) :
    (r, v) ∈ registerTable s ↔ ∃ reg, Reg.ofNumber r = some reg ∧ v = readReg reg s := by
  rw [registerTable_eq, List.mem_map]
  constructor
  · rintro ⟨reg, -, h⟩
    obtain ⟨rfl, rfl⟩ := Prod.mk.inj h
    exact ⟨reg, ofNumber_number reg, rfl⟩
  · rintro ⟨reg, h, rfl⟩
    exact ⟨reg, mem_list reg, by rw [number_of_ofNumber h]⟩

/-! ## Steps (20 R66) -/

/-- A step with no command pending keeps the state. -/
theorem step_of_empty (s : State) (h : s.io.pending = []) : step s = .next s := by
  unfold step takeCommand; rw [h]

/-- A step with a command pending runs the word's instruction, or refuses the word. -/
theorem step_of_pending (s : State) (w : Word64) (rest : List Word64) (h : s.io.pending = w :: rest) :
    step s =
      let s' := { s with io := { s.io with pending := rest } }
      match decode w with
      | .instr i => exec i s'
      | .unknownOpcode => .next (refusedState .eOpc s')
      | .reservedField => .next (refusedState .eRsv s') := by
  unfold step takeCommand; rw [h]; rfl

end Sys2Proof.Machine
end

