-- ==== Sys2Proof/Laws/Meanings.lean ====
section
/-! SUPPORT. Each meaning inverted once: the state it leaves is the success with its guards, or a refusal. -/

namespace Sys2Proof.Machine

/-! ## Waveform generator (41) -/

/-- The phases `MOD` accepts are the legal ones. -/
theorem legalPhase_iff (p : F32) : legalPhase p = true ↔ LegalPhase p := by
  unfold legalPhase LegalPhase
  rw [val_nonneg_iff, val_lt_of p 0x3F800000 1 val_one]
  by_cases hf : isFinite p = true
  · have hz : isNaN 0#32 = false := by decide
    have h1 : isNaN 1065353216#32 = false := by decide
    have hu : units 0#32 = 0 := by decide
    simp [hf, fle, flt, isNaN_of_isFinite hf, hz, h1, hu]
  · simp [hf]

theorem execMod_cases {sel : Byte} {p : F32} {s t : State} (h : execMod sel p s = .next t) :
    (∃ shape, Shape.select sel.toNat = some shape ∧ LegalPhase p ∧
      t = answeredState .ok (modulation (nanSource s) p shape) s) ∨
    (Shape.select sel.toNat = none ∧ t = refusedState .eSel s) ∨
    ((Shape.select sel.toNat).isSome ∧ ¬ LegalPhase p ∧ t = refusedState .eVal s) := by
  unfold execMod at h
  rw [← legalPhase_iff]
  split at h
  · rename_i h0; cases h; exact .inr (.inl ⟨h0, rfl⟩)
  · rename_i shape h0
    split at h
    · rename_i h1; cases h; exact .inl ⟨shape, h0, h1, rfl⟩
    · rename_i h1; cases h; exact .inr (.inr ⟨by rw [h0]; rfl, h1, rfl⟩)

theorem execDly_cases {s t : State} (h : execDly s = .next t) :
    (s.session = .block ∧ t = answeredState .ok (delaySamples s) s) ∨
    (s.session ≠ .block ∧ t = refusedState .eState s) := by
  unfold execDly at h
  split at h <;> rename_i h0 <;> cases h
  · exact .inl ⟨h0, rfl⟩
  · exact .inr ⟨h0, rfl⟩

/-! ## Delay line (42) -/

theorem execPos_cases {s t : State} (h : execPos s = .next t) :
    (s.session = .block ∧ t = answeredState .ok (readPosition s) s) ∨
    (s.session ≠ .block ∧ t = refusedState .eState s) := by
  unfold execPos at h
  split at h <;> rename_i h0 <;> cases h
  · exact .inl ⟨h0, rfl⟩
  · exact .inr ⟨h0, rfl⟩

theorem execDlw_cases {c : Byte} {v : F32} {s t : State} (h : execDlw c v s = .next t) :
    (s.session = .idle ∧ inSession s c = true ∧ t = answeredState .ok 0 (memWrite s c s.widx.toNat v)) ∨
    (s.session ≠ .idle ∧ t = refusedState .eState s) ∨
    (s.session = .idle ∧ inSession s c = false ∧ t = refusedState .eChan s) := by
  unfold execDlw at h
  split at h
  · rename_i h0; cases h; exact .inr (.inl ⟨h0, rfl⟩)
  · rename_i h0
    rw [ne_eq, not_not] at h0
    split at h <;> rename_i h1 <;> cases h
    · exact .inl ⟨h0, h1, rfl⟩
    · exact .inr (.inr ⟨h0, by simpa using h1, rfl⟩)

theorem execDlr_cases {c m : Byte} {p : F32} {s t : State} (h : execDlr c m p s = .next t) :
    (∃ mode, s.session ≠ .unprep ∧ Mode.select m.toNat = some mode ∧ inSession s c = true ∧
      isFinite p = true ∧ t = answeredState .ok (readAt s c (pmod p s.prep.len.toNat) mode) s) ∨
    (s.session = .unprep ∧ t = refusedState .eState s) ∨
    (s.session ≠ .unprep ∧ Mode.select m.toNat = none ∧ t = refusedState .eSel s) ∨
    (s.session ≠ .unprep ∧ (Mode.select m.toNat).isSome ∧ inSession s c = false ∧ t = refusedState .eChan s) ∨
    (s.session ≠ .unprep ∧ (Mode.select m.toNat).isSome ∧ inSession s c = true ∧ isFinite p = false ∧
      t = refusedState .eVal s) := by
  unfold execDlr at h
  split at h
  · rename_i h0; cases h; exact .inr (.inl ⟨h0, rfl⟩)
  · rename_i h0
    split at h
    · rename_i h1; cases h; exact .inr (.inr (.inl ⟨h0, h1, rfl⟩))
    · rename_i mode h1
      have hm : (Mode.select m.toNat).isSome := by rw [h1]; rfl
      split at h
      · rename_i h2; cases h; exact .inr (.inr (.inr (.inl ⟨h0, hm, by simpa using h2, rfl⟩)))
      · rename_i h2
        have hc : inSession s c = true := by simpa using h2
        split at h <;> rename_i h3 <;> cases h
        · exact .inr (.inr (.inr (.inr ⟨h0, hm, hc, by simpa using h3, rfl⟩)))
        · exact .inl ⟨mode, h0, h1, hc, by simpa using h3, rfl⟩

theorem execDla_cases {s t : State} (h : execDla s = .next t) :
    (s.session = .idle ∧ t = answeredState .ok 0 { s with widx := nextIndex s }) ∨
    (s.session ≠ .idle ∧ t = refusedState .eState s) := by
  unfold execDla at h
  split at h <;> rename_i h0 <;> cases h
  · exact .inr ⟨h0, rfl⟩
  · exact .inl ⟨by simpa using h0, rfl⟩

/-! ## Engine (44) -/

theorem execBeg_cases {n : U32} {s t : State} (h : execBeg n s = .next t) :
    (s.session = .idle ∧ n.toNat ≤ s.prep.maxblk.toNat ∧ t = answeredState .ok 0
      { s with snap := latchSnapshot s, blkrem := n, session := if n = 0 then .idle else .block }) ∨
    (s.session ≠ .idle ∧ t = refusedState .eState s) ∨
    (s.session = .idle ∧ s.prep.maxblk.toNat < n.toNat ∧ t = refusedState .eLen s) := by
  unfold execBeg at h
  split at h
  · rename_i h0; cases h; exact .inr (.inl ⟨h0, rfl⟩)
  · rename_i h0
    rw [ne_eq, not_not] at h0
    split at h <;> rename_i h1 <;> cases h
    · exact .inr (.inr ⟨h0, h1, rfl⟩)
    · exact .inl ⟨h0, by omega, rfl⟩

theorem execSmp_cases {c : Byte} {x : F32} {s t : State} (h : execSmp c x s = .next t) :
    (s.session = .block ∧ inSession s c = true ∧ t = answeredState .ok (outputMix s x (wetSample s c))
      (memWrite s c s.widx.toNat (storedSample s x (wetSample s c)))) ∨
    (s.session = .block ∧ inSession s c = false ∧ t = answeredState .ok 0 s) ∨
    (s.session ≠ .block ∧ t = refusedState .eState s) := by
  unfold execSmp at h
  split at h
  · rename_i h0; cases h; exact .inr (.inr ⟨h0, rfl⟩)
  · rename_i h0
    rw [ne_eq, not_not] at h0
    split at h <;> rename_i h1 <;> cases h
    · exact .inr (.inl ⟨h0, by simpa using h1, rfl⟩)
    · exact .inl ⟨h0, by simpa using h1, rfl⟩

theorem execTck_cases {s t : State} (h : execTck s = .next t) :
    (s.session = .block ∧ t = answeredState .ok 0
      { s with
        widx := nextIndex s, lfophase := phaseNext (nanSource s) s.lfophase s.snap.inc
        blkrem := s.blkrem - 1, session := if s.blkrem - 1 = 0 then .idle else .block }) ∨
    (s.session ≠ .block ∧ t = refusedState .eState s) := by
  unfold execTck at h
  split at h <;> rename_i h0 <;> cases h
  · exact .inr ⟨h0, rfl⟩
  · exact .inl ⟨by simpa using h0, rfl⟩

/-! ## Configuration surface and session (45) -/

theorem execWrp_cases {r : Byte} {v : U32} {s t : State} (h : execWrp r v s = .next t) :
    (∃ reg x, Reg.ofNumber r = some reg ∧ reg.readOnly = false ∧ storedValue reg v s = some x ∧
      t = answeredState .ok 0 (writeReg reg x s)) ∨
    (Reg.ofNumber r = none ∧ t = refusedState .eReg s) ∨
    (∃ reg, Reg.ofNumber r = some reg ∧ reg.readOnly = true ∧ t = refusedState .eRo s) ∨
    (∃ reg, Reg.ofNumber r = some reg ∧ reg.readOnly = false ∧ storedValue reg v s = none ∧
      t = refusedState .eVal s) := by
  unfold execWrp at h
  split at h
  · rename_i h0; cases h; exact .inr (.inl ⟨h0, rfl⟩)
  · rename_i reg h0
    split at h
    · rename_i h1; cases h; exact .inr (.inr (.inl ⟨reg, h0, h1, rfl⟩))
    · rename_i h1
      split at h
      · rename_i h2; cases h; exact .inr (.inr (.inr ⟨reg, h0, by simpa using h1, h2, rfl⟩))
      · rename_i x h2; cases h; exact .inl ⟨reg, x, h0, by simpa using h1, h2, rfl⟩

theorem execRdp_cases {r : Byte} {s t : State} (h : execRdp r s = .next t) :
    (∃ reg, Reg.ofNumber r = some reg ∧ t = answeredState .ok (readReg reg s) s) ∨
    (Reg.ofNumber r = none ∧ t = refusedState .eReg s) := by
  unfold execRdp at h
  split at h
  · rename_i h0; cases h; exact .inr ⟨h0, rfl⟩
  · rename_i reg h0; cases h; exact .inl ⟨reg, h0, rfl⟩

/-- The state a successful `PREP` leaves. -/
def preparedState (s : State) : State :=
  answeredState .ok 0
    { s with
      prep := ⟨s.cfg.fs, s.cfg.maxblk, s.cfg.nch, BitVec.ofNat 32 (lineLength s.cfg.fs)⟩
      dm := dmZero s.dm s.cfg.nch.toNat (lineLength s.cfg.fs), widx := 0, lfophase := 0, blkrem := 0
      snap := .zero, session := .idle }

theorem execPrep_cases {s t : State} (h : execPrep s = .next t) :
    (s.session ≠ .block ∧ validConfig s.cfg = true ∧ lineLength s.cfg.fs ≤ Config.lmax ∧ t = preparedState s) ∨
    (s.session = .block ∧ t = refusedState .eState s) ∨
    (s.session ≠ .block ∧ (validConfig s.cfg = false ∨ Config.lmax < lineLength s.cfg.fs) ∧
      t = refusedState .eCfg s) := by
  unfold execPrep at h
  split at h
  · rename_i h0; cases h; exact .inr (.inl ⟨h0, rfl⟩)
  · rename_i h0
    split at h
    · rename_i h1; cases h; exact .inr (.inr ⟨h0, .inl (by simpa using h1), rfl⟩)
    · rename_i h1
      dsimp only at h
      split at h <;> rename_i h2 <;> cases h
      · exact .inr (.inr ⟨h0, .inr h2, rfl⟩)
      · exact .inl ⟨h0, by simpa using h1, by omega, rfl⟩

theorem execClr_cases {s t : State} (h : execClr s = .next t) :
    (s.session = .idle ∧ t = answeredState .ok 0
      { s with dm := dmZero s.dm s.prep.nch.toNat s.prep.len.toNat, widx := 0, lfophase := 0 }) ∨
    (s.session ≠ .idle ∧ t = refusedState .eState s) := by
  unfold execClr at h
  split at h <;> rename_i h0 <;> cases h
  · exact .inr ⟨h0, rfl⟩
  · exact .inl ⟨by simpa using h0, rfl⟩

/-- The valid configurations, by exact values (45 R216). -/
theorem validConfig_iff (c : Cfg) : validConfig c = true ↔
    (isFinite c.fs = true ∧ 0 < val c.fs) ∧ 1 ≤ c.maxblk.toNat ∧ 1 ≤ c.nch.toNat ∧ c.nch.toNat ≤ Config.nchMax := by
  have hv : 0 < val c.fs ↔ 0 < units c.fs := by
    have := val_lt_val 0x00000000 c.fs
    rw [val_zero] at this
    rw [this]; rfl
  have hz : isNaN 0#32 = false := by decide
  have hu : units 0#32 = 0 := by decide
  unfold validConfig
  rw [hv]
  by_cases hf : isFinite c.fs = true
  · simp [hf, flt, isNaN_of_isFinite hf, hz, hu, and_assoc]
  · simp [hf]

/-- Rounding a quotient up, on naturals. -/
theorem ceil_div_natCast (n d : Nat) (hd : 0 < d) : ⌈(n : ℚ) / (d : ℚ)⌉ = (((n + (d - 1)) / d : Nat) : ℤ) := by
  have hq : (0 : ℚ) < d := by exact_mod_cast hd
  have h1 := Nat.div_add_mod (n + (d - 1)) d
  have h2 := Nat.mod_lt (n + (d - 1)) hd
  rw [Int.ceil_eq_iff, lt_div_iff₀ hq, div_le_iff₀ hq]
  generalize (n + (d - 1)) / d = k at *
  have hle : n ≤ k * d := by rw [Nat.mul_comm]; omega
  have hlt : k * d < n + d := by rw [Nat.mul_comm]; omega
  constructor
  · have : (k * d : ℚ) < n + d := by exact_mod_cast hlt
    push_cast; linarith
  · exact_mod_cast hle

/-- The length of the line, by the rate's exact value (45 R218). -/
theorem lineLength_eq (fs : F32) (h : 0 ≤ units fs) : (lineLength fs : ℤ) = max 1 ⌈val fs * 3 / 100⌉ := by
  obtain ⟨u, hu⟩ := Int.eq_ofNat_of_zero_le h
  have e : val fs * 3 / 100 = ((u * 3 : Nat) : ℚ) / ((100 * one149 : Nat) : ℚ) := by
    have := one149_rat_pos.ne'
    unfold val
    rw [hu]
    push_cast
    field_simp
  rw [e, ceil_div_natCast _ _ (by have := one149_pos; omega)]
  unfold lineLength
  rw [hu, Int.toNat_natCast, Nat.cast_max, Nat.cast_one]

end Sys2Proof.Machine
end

