-- ==== Sys2Proof/Laws/Invariants.lean ====
section
/-! SUPPORT. What the commands write is legal: clamped parameters, the latched snapshot, the next phase, the error
bits, the cursor (10 R52). -/

namespace Sys2Proof.Machine

/-! ## Bounds on patterns -/

/-- Bounds by the values of two patterns, on units. -/
theorem finiteIn_iff (lo hi : ℚ) (l h f : F32) (hl : val l = lo) (hh : val h = hi) :
    FiniteIn lo hi f ↔ isFinite f = true ∧ units l ≤ units f ∧ units f ≤ units h := by
  unfold FiniteIn
  rw [le_val_of f l lo hl, val_le_of f h hi hh]

/-- A clamped value lies between finite bounds (45 R212). -/
theorem clamp_legal (v lo hi : F32) (hv : isNaN v = false) (hl : isFinite lo = true) (hh : isFinite hi = true)
    (h : units lo ≤ units hi) : FiniteIn (val lo) (val hi) (clamp v lo hi) := by
  rw [finiteIn_iff _ _ lo hi _ rfl rfl]
  unfold clamp flt
  have hln := isNaN_of_isFinite hl
  have hhn := isNaN_of_isFinite hh
  split
  · exact ⟨hl, le_refl _, h⟩
  · rename_i h1
    split
    · exact ⟨hh, h, le_refl _⟩
    · rename_i h2
      simp only [hv, hln, hhn, Bool.not_false, Bool.true_and, decide_eq_true_eq, not_lt] at h1 h2
      refine ⟨?_, h1, h2⟩
      rw [isFinite_iff] at hl hh ⊢
      by_contra hc
      have hi' : magBits v = 0x7F800000 := by
        by_contra hne
        have : isNaN v = true := (isNaN_iff v).2 (by omega)
        rw [hv] at this; exact absurd this (by decide)
      have a1 := natAbs_units v
      have a2 := natAbs_units lo
      have a3 := natAbs_units hi
      rw [hi'] at a1
      have b2 := magOf_strictMono hl
      have b3 := magOf_strictMono hh
      omega

theorem clampedParam_legal {v lo hi x : F32} (h : clampedParam v lo hi = some x) (hl : isFinite lo = true)
    (hh : isFinite hi = true) (hb : units lo ≤ units hi) : FiniteIn (val lo) (val hi) x := by
  unfold clampedParam at h
  split at h
  · cases h
  · rename_i hv
    cases h
    exact clamp_legal v lo hi (by simpa using hv) hl hh hb

theorem checkedSelector_legal {v x : U32} {top : Nat} (h : checkedSelector v top = some x) :
    x = v ∧ x.toNat ≤ top := by
  unfold checkedSelector at h
  split at h
  · cases h
  · rename_i hv
    cases h
    exact ⟨rfl, by omega⟩

/-! ## Registers -/

/-- The live registers stay legal under `WRP` (10 R27 to R34). -/
theorem legalLive_writeReg {s : State} {reg : Reg} {v x : U32} (hs : LegalLive s.live)
    (h : storedValue reg v s = some x) : LegalLive (writeReg reg x s).live := by
  cases reg <;> simp only [storedValue, reduceCtorEq] at h <;> try exact hs
  · have := clampedParam_legal h (by decide) (by decide) (by decide)
    rw [val_five, val_twenty_five] at this
    exact { hs with delayms := this }
  · have := clampedParam_legal h (by decide) (by decide) (by decide)
    rw [val_zero, val_one] at this
    exact { hs with sweep := this }
  · have := clampedParam_legal h (by decide) (by decide) (by decide)
    rw [val_zero, val_ten] at this
    exact { hs with speed := this }
  · have := clampedParam_legal h (by decide) (by decide) (by decide)
    rw [val_zero] at this
    exact { hs with feedback := this }
  · have := clampedParam_legal h (by decide) (by decide) (by decide)
    rw [val_zero, val_one] at this
    exact { hs with mix := this }
  · exact { hs with waveform := (checkedSelector_legal h).2 }
  · exact { hs with interp := (checkedSelector_legal h).2 }
  · exact { hs with invert := (checkedSelector_legal h).2 }

/-- `WRP` leaves the reserved bits of `ERR` zero (10 R39). -/
theorem err_writeReg {s : State} {reg : Reg} {v x : U32} (hs : ∀ j, s.err.getLsbD j = true → 1 ≤ j ∧ j ≤ 10)
    (h : storedValue reg v s = some x) : ∀ j, (writeReg reg x s).err.getLsbD j = true → 1 ≤ j ∧ j ≤ 10 := by
  cases reg <;> simp only [storedValue, reduceCtorEq] at h <;> try exact hs
  cases h
  intro j hj
  change (clearErr s.err v).getLsbD j = true at hj
  rw [clearErr_bit, Bool.and_eq_true] at hj
  exact hs j hj.1

/-- A refusal sets one of the bits 1 to 10 (60 R243). -/
theorem err_setErr {err : U32} {e : Status} (he : e ≠ .ok) (hs : ∀ j, err.getLsbD j = true → 1 ≤ j ∧ j ≤ 10) :
    ∀ j, (setErr err e).getLsbD j = true → 1 ≤ j ∧ j ≤ 10 := by
  intro j hj
  rw [setErr_bit, Bool.or_eq_true] at hj
  rcases hj with hj | hj
  · exact hs j hj
  · have : j = e.code := by simpa using hj
    subst this
    exact ⟨Nat.pos_of_ne_zero fun h => he (Status.code_eq_zero.1 h), e.code_le⟩

/-! ## Session -/

/-- The fields of the session are legal after `PREP` (10 R40, R42). -/
theorem legalPrepared_of_prep {c : Cfg} (hv : validConfig c = true) (hl : lineLength c.fs ≤ Config.lmax) :
    LegalPrepared ⟨c.fs, c.maxblk, c.nch, BitVec.ofNat 32 (lineLength c.fs)⟩ := by
  have h := (validConfig_iff c).1 hv
  have hu : 0 ≤ units c.fs := (val_nonneg_iff _).1 h.1.2.le
  have hlen : (BitVec.ofNat 32 (lineLength c.fs)).toNat = lineLength c.fs := by
    rw [BitVec.toNat_ofNat]
    exact Nat.mod_eq_of_lt (lt_of_le_of_lt hl (by norm_num [Config.lmax]))
  exact ⟨h.1, h.2.1, h.2.2, by rw [hlen]; exact lineLength_eq _ hu, by rw [hlen]; exact hl⟩

/-- A prepared rate in units: the line holds 30 ms of it, so it is bounded by the line's length. -/
theorem prepared_rate_bound {p : Prepared} (h : LegalPrepared p) :
    0 < units p.fs ∧ units p.fs * 3 ≤ 819200 * one149 := by
  have hpos : 0 < units p.fs := by
    have := (val_lt_val 0x00000000 p.fs).1 (by rw [val_zero]; exact h.fs.2)
    exact this
  refine ⟨hpos, ?_⟩
  have hl := h.len
  have hf := h.fits
  have h1 : ⌈val p.fs * 3 / 100⌉ ≤ (8192 : ℤ) := by
    have h2 : (p.len.toNat : ℤ) ≤ 8192 := by exact_mod_cast hf
    rw [hl] at h2
    exact (le_max_right _ _).trans h2
  have h2 := Int.ceil_le.1 h1
  have hp := one149_rat_pos
  unfold val at h2
  rw [div_mul_eq_mul_div, div_div, div_le_iff₀ (by positivity)] at h2
  have h3 : ((units p.fs * 3 : ℤ) : ℚ) ≤ ((819200 * one149 : ℤ) : ℚ) := by push_cast at h2 ⊢; linarith
  exact_mod_cast h3

/-- The line of a prepared session is not empty. -/
theorem prepared_len_pos {p : Prepared} (h : LegalPrepared p) : 0 < p.len.toNat := by
  have := h.len
  have := le_max_left 1 ⌈val p.fs * 3 / 100⌉
  omega

theorem nextIndex_toNat (s : State) (h : 0 < s.prep.len.toNat) :
    (nextIndex s).toNat = (s.widx.toNat + 1) % s.prep.len.toNat := by
  unfold nextIndex
  rw [BitVec.toNat_ofNat]
  exact Nat.mod_eq_of_lt (lt_trans (Nat.mod_lt _ h) s.prep.len.isLt)

theorem nextIndex_lt (s : State) (h : 0 < s.prep.len.toNat) : (nextIndex s).toNat < s.prep.len.toNat := by
  rw [nextIndex_toNat s h]; exact Nat.mod_lt _ h

/-! ## Snapshot and phase -/

/-- The value of the largest line: `LMAX` samples. -/
theorem val_lmax : val 0x46000000 = (Config.lmax : ℚ) := by
  have : val 0x46000000 = 8192 := by decide +kernel
  rw [this]; norm_num [Config.lmax]

theorem units_le_of_val {f g : F32} {q : ℚ} (hg : val g = q) (h : val f ≤ q) : units f ≤ units g := by
  rw [← hg] at h; exact (val_le_val _ _).1 h

theorem units_nonneg_of_val {f : F32} (h : 0 ≤ val f) : 0 ≤ units f := (val_nonneg_iff f).1 h

/-- A non-negative fraction bounded by a finite pattern rounds to a legal value of positive sign. -/
theorem rndq_legal {n : ℤ} {d : Nat} (g : F32) (hg : isFinite g = true) (hg0 : 0 ≤ units g) (hn : 0 ≤ n)
    (hd : 0 < d) (h : n * one149 ≤ units g * d) :
    FiniteIn 0 (val g) (rndq n d) ∧ signBit (rndq n d) = false := by
  obtain ⟨h1, h2, h3⟩ := rndq_le_pattern g hg hg0 hn hd h
  refine ⟨⟨h1, (val_nonneg_iff _).2 h2, (val_le_val _ _).2 h3⟩, ?_⟩
  rw [signBit_rndq]
  exact decide_eq_false (by omega)

/-- The snapshot a `BEG` latches is legal (10 R43 to R45). -/
theorem legalSnapshot_latch {s : State} (hl : LegalLive s.live) (hp : LegalPrepared s.prep) :
    LegalSnapshot (latchSnapshot s) := by
  obtain ⟨f0, f1⟩ := prepared_rate_bound hp
  have d0 := units_nonneg_of_val (le_trans (by norm_num) hl.delayms.2.1)
  have d1 := units_le_of_val val_twenty_five hl.delayms.2.2
  have w0 := units_nonneg_of_val hl.sweep.2.1
  have w1 := units_le_of_val val_one hl.sweep.2.2
  have o : (0 : ℤ) < one149 := by exact_mod_cast one149_pos
  have u25 : units 0x41C80000 = 25 * (one149 : ℤ) := units_of_val (by rw [val_twenty_five, Int.cast_ofNat])
  have um : units 0x46000000 = 8192 * (one149 : ℤ) := units_of_val (by rw [val_lmax]; rfl)
  have o3 := mul_pos (mul_pos o o) o
  rw [u25] at d1
  rw [units_one] at w1
  have hd : units s.live.delayms * units s.prep.fs * 3 ≤ 25 * one149 * (819200 * one149) := by
    rw [mul_assoc]
    exact mul_le_mul d1 f1 (by positivity) (by positivity)
  have hw : units s.live.sweep * units s.prep.fs * 3 ≤ one149 * (819200 * one149) := by
    rw [mul_assoc]
    exact mul_le_mul w1 f1 (by positivity) (by positivity)
  have hD : 0 < one149 * one149 * 1000 := Nat.mul_pos (Nat.mul_pos one149_pos one149_pos) (by norm_num)
  have hW : 0 < one149 * one149 * 200 := Nat.mul_pos (Nat.mul_pos one149_pos one149_pos) (by norm_num)
  have m0 := Int.emod_nonneg (units s.live.speed) f0.ne'
  have m1 := Int.emod_lt_of_pos (units s.live.speed) f0
  refine ⟨?_, ?_, ?_, hl.feedback, hl.mix, hl.waveform, hl.interp, hl.invert⟩
  · rw [← val_lmax]
    refine rndq_legal 0x46000000 (by decide) (by decide) (by positivity) hD ?_
    rw [um]; push_cast
    linarith [mul_le_mul_of_nonneg_right hd o.le]
  · rw [← val_lmax]
    refine rndq_legal 0x46000000 (by decide) (by decide) (by positivity) hW ?_
    rw [um]; push_cast
    linarith [mul_le_mul_of_nonneg_right hw o.le]
  · have := (rndq_legal (n := units s.live.speed % units s.prep.fs) (d := (units s.prep.fs).toNat) 0x3F800000
      (by decide) (by decide) m0 (by omega) (by
        rw [units_one, Int.toNat_of_nonneg f0.le, mul_comm]
        exact mul_le_mul_of_nonneg_left m1.le o.le)).1
    rwa [val_one] at this

/-- The sum of a phase and an increment: finite, not negative, exact value rounded (41 R141). -/
theorem fadd_phase (nan p inc : F32) (hp : LegalPhase p) (hi : FiniteIn 0 1 inc) :
    isFinite (fadd nan p inc) = true ∧ 0 ≤ units (fadd nan p inc) := by
  have p0 := units_nonneg_of_val hp.2.1
  have p1 := units_le_of_val val_one hp.2.2.le
  have i0 := units_nonneg_of_val hi.2.1
  have i1 := units_le_of_val val_one hi.2.2
  have u2 : units 0x40000000 = 2 * (one149 : ℤ) := units_of_val (by rw [val_two, Int.cast_ofNat])
  rw [units_one] at p1 i1
  rw [fadd_finite _ _ _ hp.1 hi.1]
  split
  · unfold zeroOf
    split <;> exact ⟨by decide, by decide⟩
  · have := rndq_le_pattern (n := units p + units inc) (d := one149) 0x40000000 (by decide) (by decide) (by omega)
      one149_pos (by rw [u2]; exact mul_le_mul_of_nonneg_right (by omega) (by positivity))
    exact ⟨this.1, this.2.1⟩

/-- The fractional part of a non-negative finite pattern is a legal phase (40 R109, 10 R22). -/
theorem legalPhase_fracVal (a : F32) (ha : isFinite a = true) (h0 : 0 ≤ units a) : LegalPhase (fracVal a) := by
  obtain ⟨h1, h2, -⟩ := fracVal_spec a ha h0
  have o : (0 : ℤ) < one149 := by exact_mod_cast one149_pos
  have e0 := Int.emod_nonneg (units a) o.ne'
  have e1 := Int.emod_lt_of_pos (units a) o
  refine ⟨h1, (val_nonneg_iff _).2 (by omega), ?_⟩
  rw [← val_one, val_lt_val, units_one, h2]
  exact e1

/-- The next phase is legal (41 R141). -/
theorem legalPhase_phaseNext (k : NaNs) (p inc : F32) (hp : LegalPhase p) (hi : FiniteIn 0 1 inc) :
    LegalPhase (phaseNext k p inc) := by
  obtain ⟨h1, h2⟩ := fadd_phase (k 0) p inc hp hi
  exact legalPhase_fracVal _ h1 h2

/-- The snapshot of no session is legal. -/
theorem legalSnapshot_zero : LegalSnapshot .zero := by
  have h0 : val 0x00000000 = 0 := val_zero
  have hf : FiniteIn 0 1 0x00000000 := ⟨by decide, by rw [h0], by rw [h0]; norm_num⟩
  have hm : FiniteIn 0 Config.lmax 0x00000000 := ⟨by decide, by rw [h0], by rw [h0]; norm_num [Config.lmax]⟩
  have hb : FiniteIn 0 (val 0x3F7D70A4) 0x00000000 := ⟨by decide, by rw [h0], by rw [val_le_val]; decide⟩
  exact ⟨⟨hm, by decide⟩, ⟨hm, by decide⟩, hf, hb, hf, by decide, by decide, by decide⟩

theorem legalPhase_zero : LegalPhase 0 := ⟨by decide, by rw [val_zero], by rw [val_zero]; norm_num⟩

end Sys2Proof.Machine
end

