-- ==== Sys2Proof/Laws/PerInstr.lean ====
section
/-! SUPPORT. Statements for every instruction, one lemma per constructor. -/

/-- The opcode of an instruction's word and its zero `RSV` field (30 R81, R86). -/
def Sys2Proof.Laws.EncodedOpcode.Statement : Sys2Proof.Instr → Prop := fun i =>
  Sys2Proof.fieldRsv (Sys2Proof.encode i) = 0 ∧
    ∃ f, Sys2Proof.opcodeRow (Sys2Proof.encode i) = some (f, i)

namespace Sys2Proof.Laws.EncodedOpcode

theorem nop : Statement .nop := by constructor <;> simp [encode, opcodeRow]
theorem wrp (r : Byte) (v : U32) : Statement (.wrp r v) := by constructor <;> simp [encode, opcodeRow]
theorem rdp (r : Byte) : Statement (.rdp r) := by constructor <;> simp [encode, opcodeRow]
theorem prep : Statement .prep := by constructor <;> simp [encode, opcodeRow]
theorem rel : Statement .rel := by constructor <;> simp [encode, opcodeRow]
theorem clr : Statement .clr := by constructor <;> simp [encode, opcodeRow]
theorem beg (n : U32) : Statement (.beg n) := by constructor <;> simp [encode, opcodeRow]
theorem smp (c : Byte) (x : F32) : Statement (.smp c x) := by constructor <;> simp [encode, opcodeRow]
theorem tck : Statement .tck := by constructor <;> simp [encode, opcodeRow]
theorem mod (s : Byte) (p : F32) : Statement (.mod s p) := by constructor <;> simp [encode, opcodeRow]
theorem dly : Statement .dly := by constructor <;> simp [encode, opcodeRow]
theorem pos : Statement .pos := by constructor <;> simp [encode, opcodeRow]
theorem dlw (c : Byte) (v : F32) : Statement (.dlw c v) := by constructor <;> simp [encode, opcodeRow]
theorem dlr (c m : Byte) (p : F32) : Statement (.dlr c m p) := by constructor <;> simp [encode, opcodeRow]
theorem dla : Statement .dla := by constructor <;> simp [encode, opcodeRow]

end Sys2Proof.Laws.EncodedOpcode
end

