-- ==== Sys2Proof/Laws/Sine.lean ====
section
/-! SUPPORT. The fixed-point sine is within `2^-62` of the real one on every legal phase (40 R112, log 5). -/

namespace Sys2Proof.Machine

/-! ## The series, on reals -/

/-- The terms of `sinSeries`, computed exactly. -/
noncomputable def sinSeriesReal : Nat → Nat → ℝ → ℝ → ℝ
  | 0, _, _, _ => 0
  | steps + 1, n, x2, t => t - sinSeriesReal steps (n + 2) x2 (t * x2 / ((n + 1) * (n + 2)))

/-- The exact terms are those of the sine series from degree `n`. -/
theorem sinSeriesReal_eq_sum (steps n : Nat) (x : ℝ) :
    sinSeriesReal steps n (x ^ 2) (x ^ n / n.factorial) =
      ∑ j ∈ Finset.range steps, (-1) ^ j * (x ^ (n + 2 * j) / (n + 2 * j).factorial) := by
  induction steps generalizing n with
  | zero => simp [sinSeriesReal]
  | succ steps ih =>
    have e : x ^ n / n.factorial * x ^ 2 / ((n + 1) * (n + 2)) = x ^ (n + 2) / (n + 2).factorial := by
      rw [Nat.factorial_succ (n + 1), Nat.factorial_succ n, pow_add]
      push_cast
      have h1 : (n : ℝ) + 1 ≠ 0 := by positivity
      have h2 : (n : ℝ) + 2 ≠ 0 := by positivity
      have h3 : (n.factorial : ℝ) ≠ 0 := by positivity
      rw [show (n : ℝ) + 1 + 1 = n + 2 by ring]
      field_simp
    rw [sinSeriesReal, e, ih, Finset.sum_range_succ']
    simp only [pow_succ, mul_zero, add_zero, pow_zero, one_mul]
    rw [sub_eq_add_neg, add_comm, ← Finset.sum_neg_distrib]
    congr 1
    apply Finset.sum_congr rfl
    intro j _
    rw [show n + 2 + 2 * j = n + 2 * (j + 1) by ring]
    ring

/-- The imaginary part of the exponential's partial sum on the imaginary axis. -/
theorem im_sum_exp (x : ℝ) (k : Nat) :
    (∑ m ∈ Finset.range (2 * k), ((x : ℂ) * Complex.I) ^ m / (m.factorial : ℂ)).im =
      ∑ j ∈ Finset.range k, (-1) ^ j * (x ^ (1 + 2 * j) / ((1 + 2 * j).factorial : ℝ)) := by
  induction k with
  | zero => simp
  | succ k ih =>
    rw [show 2 * (k + 1) = 2 * k + 1 + 1 by ring, Finset.sum_range_succ, Finset.sum_range_succ, Complex.add_im,
      Complex.add_im, ih, Finset.sum_range_succ, add_assoc]
    congr 1
    have even : ((x : ℂ) * Complex.I) ^ (2 * k) / ((2 * k).factorial : ℂ) =
        (((-1) ^ k * x ^ (2 * k) / (2 * k).factorial : ℝ) : ℂ) := by
      rw [mul_pow, pow_mul Complex.I, Complex.I_sq]; push_cast; ring
    have odd : ((x : ℂ) * Complex.I) ^ (2 * k + 1) / ((2 * k + 1).factorial : ℂ) =
        (((-1) ^ k * (x ^ (1 + 2 * k) / (1 + 2 * k).factorial) : ℝ) : ℂ) * Complex.I := by
      rw [mul_pow, pow_succ Complex.I, pow_mul Complex.I, Complex.I_sq, show 1 + 2 * k = 2 * k + 1 by ring]
      push_cast; ring
    rw [even, odd, Complex.ofReal_im, Complex.im_ofReal_mul, Complex.I_im, mul_one, zero_add]

/-- Forty terms of the series give the sine to `2^-180` on a quarter turn. -/
theorem sinSeriesReal_near_sin (x : ℝ) (h0 : 0 ≤ x) (h1 : x ≤ 8 / 5) :
    |Real.sin x - sinSeriesReal 40 1 (x ^ 2) x| ≤ 1 / 2 ^ 180 := by
  have hn : ‖(x : ℂ) * Complex.I‖ = x := by simp [abs_of_nonneg h0]
  have hb := Complex.exp_bound' (x := (x : ℂ) * Complex.I) (n := 2 * 40) (by rw [hn]; norm_num; linarith)
  have hs := sinSeriesReal_eq_sum 40 1 x
  simp only [pow_one, Nat.factorial_one, Nat.cast_one, div_one] at hs
  have him : (Complex.exp ((x : ℂ) * Complex.I) - ∑ m ∈ Finset.range (2 * 40),
      ((x : ℂ) * Complex.I) ^ m / (m.factorial : ℂ)).im = Real.sin x - sinSeriesReal 40 1 (x ^ 2) x := by
    rw [Complex.sub_im, im_sum_exp, hs, Complex.exp_ofReal_mul_I_im]
  rw [← him]
  refine (Complex.abs_im_le_norm _).trans (hb.trans ?_)
  rw [hn]
  have hp : x ^ (2 * 40) ≤ (8 / 5) ^ (2 * 40) := pow_le_pow_left₀ h0 h1 _
  have hf : (0 : ℝ) < ((2 * 40).factorial : ℝ) := by positivity
  calc x ^ (2 * 40) / ((2 * 40).factorial : ℝ) * 2
      ≤ (8 / 5) ^ (2 * 40) / ((2 * 40).factorial : ℝ) * 2 := by gcongr
    _ ≤ 1 / 2 ^ 180 := by norm_num [Nat.factorial]

/-! ## The fixed-point series -/

theorem sinScale_pos : 0 < sinScale := by norm_num [sinScale]

theorem sinScale_cast_pos : (0 : ℝ) < sinScale := by exact_mod_cast sinScale_pos

theorem one149_cast_pos : (0 : ℝ) < one149 := by exact_mod_cast one149_pos

/-- A quotient of naturals is the exact quotient rounded down. -/
theorem natDiv_near (a b : Nat) (hb : 0 < b) :
    ((a / b : Nat) : ℝ) ≤ (a : ℝ) / b ∧ (a : ℝ) / b ≤ ((a / b : Nat) : ℝ) + 1 := by
  refine ⟨Nat.cast_div_le, (div_le_iff₀ (Nat.cast_pos.2 hb)).2 ?_⟩
  rw [mul_comm]
  exact_mod_cast (Nat.lt_mul_div_succ a hb).le

/-- One term of the fixed-point series follows its exact term from below, within four units. -/
theorem sinTerm_near (n x2 t : Nat) (ξ τ : ℝ) (hn : 1 ≤ n) (hx : (x2 : ℝ) ≤ 3 * sinScale)
    (ht : (t : ℝ) ≤ 2 * sinScale) (hξ : (x2 : ℝ) ≤ ξ) (hξ' : ξ ≤ x2 + 1) (hτ : (t : ℝ) ≤ τ) (hτ' : τ ≤ t + 4) :
    let t' := t * x2 / sinScale / ((n + 1) * (n + 2))
    let τ' := τ * ξ / sinScale / ((n + 1) * (n + 2))
    (t' : ℝ) ≤ 2 * sinScale ∧ (t' : ℝ) ≤ τ' ∧ τ' ≤ t' + 4 := by
  intro t' τ'
  have hS := sinScale_cast_pos
  have hS4 : (4 : ℝ) ≤ sinScale := by norm_num [sinScale]
  have hm : (6 : ℝ) ≤ (n + 1) * (n + 2) := by
    exact_mod_cast Nat.mul_le_mul (show 2 ≤ n + 1 by omega) (show 3 ≤ n + 2 by omega)
  obtain ⟨f1, f2⟩ := natDiv_near (t * x2) sinScale sinScale_pos
  obtain ⟨g1, g2⟩ := natDiv_near (t * x2 / sinScale) ((n + 1) * (n + 2)) (Nat.mul_pos n.succ_pos (n + 1).succ_pos)
  push_cast at f1 f2 g1 g2
  change (t' : ℝ) ≤ _ at g1
  change _ ≤ (t' : ℝ) + 1 at g2
  change _ ∧ _ ≤ τ * ξ / sinScale / ((n + 1) * (n + 2)) ∧ τ * ξ / sinScale / ((n + 1) * (n + 2)) ≤ _
  generalize ((n : ℝ) + 1) * (n + 2) = m at *
  generalize (t' : ℝ) = r at *
  generalize ((t * x2 / sinScale : Nat) : ℝ) = f at *
  generalize (sinScale : ℝ) = S at *
  have ht0 : (0 : ℝ) ≤ t := Nat.cast_nonneg t
  have hx0 : (0 : ℝ) ≤ x2 := Nat.cast_nonneg x2
  have hm0 : 0 < m := by linarith
  have k1 : (t * x2 : ℝ) / S ≤ τ * ξ / S :=
    div_le_div_of_nonneg_right (mul_le_mul hτ hξ hx0 (ht0.trans hτ)) hS.le
  have k2 : τ * ξ / S ≤ t * x2 / S + 15 := by
    have h : τ * ξ ≤ (t + 4) * (x2 + 1) := mul_le_mul hτ' hξ' (hx0.trans hξ) (by linarith)
    rw [div_add' _ _ _ hS.ne', div_le_div_iff_of_pos_right hS]
    rw [show ((t : ℝ) + 4) * (x2 + 1) = t * x2 + t + 4 * x2 + 4 by ring] at h
    linarith
  have k3 : (t * x2 : ℝ) / S ≤ 6 * S := by
    rw [div_le_iff₀ hS, show 6 * S * S = 2 * S * (3 * S) by ring]
    exact mul_le_mul ht hx hx0 (by linarith)
  have hf : f ≤ (r + 1) * m := (div_le_iff₀ hm0).1 g2
  refine ⟨g1.trans ((div_le_iff₀ hm0).2 ?_), g1.trans (div_le_div_of_nonneg_right (f1.trans k1) hm0.le),
    (div_le_iff₀ hm0).2 ?_⟩
  · have := mul_le_mul_of_nonneg_left hm (show 0 ≤ 2 * S by linarith)
    linarith
  · rw [show (r + 4) * m = (r + 1) * m + 3 * m by ring]
    linarith

/-- The fixed-point series is within four units a step of the exact one. -/
theorem sinSeries_near (steps : Nat) : ∀ (n x2 t : Nat) (ξ τ : ℝ), 1 ≤ n → (x2 : ℝ) ≤ 3 * sinScale →
    (t : ℝ) ≤ 2 * sinScale → (x2 : ℝ) ≤ ξ → ξ ≤ x2 + 1 → (t : ℝ) ≤ τ → τ ≤ t + 4 →
    |(sinSeries steps n x2 t : ℝ) - sinScale * sinSeriesReal steps n (ξ / sinScale) (τ / sinScale)| ≤ 4 * steps := by
  have hS := sinScale_cast_pos
  induction steps with
  | zero => intros; simp [sinSeries, sinSeriesReal]
  | succ steps ih =>
    intro n x2 t ξ τ hn hx ht hξ hξ' hτ hτ'
    obtain ⟨h1, h2, h3⟩ := sinTerm_near n x2 t ξ τ hn hx ht hξ hξ' hτ hτ'
    have hr := ih (n + 2) x2 _ ξ _ (by omega) hx h1 hξ hξ' h2 h3
    have e : τ * ξ / sinScale / (((n : ℝ) + 1) * (n + 2)) / sinScale =
        τ / sinScale * (ξ / sinScale) / ((n + 1) * (n + 2)) := by
      have := hS.ne'
      field_simp
    rw [e] at hr
    rw [sinSeries, sinSeriesReal, mul_sub, mul_div_cancel₀ _ hS.ne']
    rw [abs_le] at hr ⊢
    push_cast at hr ⊢
    constructor <;> linarith [hr.1, hr.2]

/-! ## Angles -/

/-- `twoPi` is `2 * pi` to `2^-64`. -/
theorem twoPi_near : |(twoPi : ℝ) / sinScale - 2 * Real.pi| ≤ 1 / 2 ^ 64 := by
  have h1 := Real.pi_gt_d20
  have h2 := Real.pi_lt_d20
  have k1 : (2 * 3.14159265358979323846 : ℝ) ≤ twoPi / sinScale := by norm_num [twoPi, sinScale]
  have k2 : (twoPi / sinScale : ℝ) ≤ 2 * 3.14159265358979323847 := by norm_num [twoPi, sinScale]
  rw [abs_le]
  constructor <;> norm_num at k1 k2 h1 h2 ⊢ <;> linarith

/-- The fixed-point angle of a quarter turn. -/
theorem sinAngle_near (u : Nat) (hu : u ≤ 2 ^ 147) :
    ((twoPi * u / one149 : Nat) : ℝ) / sinScale ≤ 8 / 5 ∧
      |((twoPi * u / one149 : Nat) : ℝ) / sinScale - 2 * Real.pi * (u / one149)| ≤ 1 / 2 ^ 63 := by
  have hS := sinScale_cast_pos
  have hv : (u : ℝ) / one149 ≤ 1 / 4 := by
    rw [div_le_div_iff₀ one149_cast_pos (by norm_num)]
    have : u * 4 ≤ 1 * one149 := by unfold one149; omega
    exact_mod_cast this
  have hv0 : (0 : ℝ) ≤ (u : ℝ) / one149 := by positivity
  have hS5 : (twoPi : ℝ) / 4 ≤ 8 / 5 * sinScale := by norm_num [twoPi, sinScale]
  have hS1 : (1 : ℝ) ≤ 1 / 2 ^ 65 * sinScale := by norm_num [sinScale]
  have hp := twoPi_near
  obtain ⟨x1, x2⟩ := natDiv_near (twoPi * u) one149 one149_pos
  rw [Nat.cast_mul, mul_div_assoc] at x1 x2
  generalize ((twoPi * u / one149 : Nat) : ℝ) = x at *
  generalize (u : ℝ) / one149 = v at *
  generalize (twoPi : ℝ) = P at *
  generalize (sinScale : ℝ) = S at *
  have hP : 0 ≤ P := by
    rw [abs_le] at hp
    have : 0 ≤ P / S := by linarith [hp.1, Real.pi_gt_three]
    exact (div_nonneg_iff.1 this).elim (·.1) fun h => absurd h.2 (not_le.2 hS)
  constructor
  · rw [div_le_iff₀ hS]
    have := mul_le_mul_of_nonneg_left hv hP
    linarith
  · have q : |x / S - P * v / S| ≤ 1 / 2 ^ 65 := by
      rw [← sub_div, abs_div, abs_of_pos hS, div_le_iff₀ hS]
      refine le_trans ?_ hS1
      rw [abs_le]; constructor <;> linarith
    have r : |P * v / S - 2 * Real.pi * v| ≤ 1 / 2 ^ 64 * (1 / 4) := by
      rw [show P * v / S - 2 * Real.pi * v = (P / S - 2 * Real.pi) * v by ring, abs_mul, abs_of_nonneg hv0]
      exact mul_le_mul hp hv hv0 (by positivity)
    refine (abs_sub_le (x / S) (P * v / S) (2 * Real.pi * v)).trans ((add_le_add q r).trans ?_)
    norm_num

/-- The fixed-point series of an angle up to `8 / 5`. -/
theorem sinSeries_angle_near (x : Nat) (hx : (x : ℝ) / sinScale ≤ 8 / 5) :
    |(sinSeries 40 1 (x * x / sinScale) x : ℝ) / sinScale -
      sinSeriesReal 40 1 (((x : ℝ) / sinScale) ^ 2) (x / sinScale)| ≤ 1 / 2 ^ 200 := by
  have hS := sinScale_cast_pos
  have hS1 : (4 : ℝ) * (40 : Nat) ≤ 1 / 2 ^ 200 * sinScale := by norm_num [sinScale]
  have hl : (x : ℝ) ≤ 8 / 5 * sinScale := (div_le_iff₀ hS).1 hx
  have hx0 : (0 : ℝ) ≤ x := Nat.cast_nonneg x
  obtain ⟨y1, y2⟩ := natDiv_near (x * x) sinScale sinScale_pos
  rw [Nat.cast_mul] at y1 y2
  have y3 : (x * x : ℝ) / sinScale ≤ 3 * sinScale := by
    rw [div_le_iff₀ hS]
    have h := mul_le_mul hl hl hx0 (hx0.trans hl)
    have := mul_pos hS hS
    rw [show 8 / 5 * (sinScale : ℝ) * (8 / 5 * sinScale) = 64 / 25 * (sinScale * sinScale) by ring] at h
    linarith
  have a := sinSeries_near 40 1 (x * x / sinScale) x (x * x / sinScale) x le_rfl (y1.trans y3) (by linarith)
    y1 y2 le_rfl (by linarith)
  rw [show (x * x : ℝ) / sinScale / sinScale = ((x : ℝ) / sinScale) ^ 2 by rw [sq, div_mul_div_comm, div_div]] at a
  generalize (sinSeries 40 1 (x * x / sinScale) x : ℝ) = f at *
  generalize sinSeriesReal 40 1 (((x : ℝ) / sinScale) ^ 2) (x / sinScale) = g at *
  rw [show f / sinScale - g = (f - sinScale * g) / sinScale by rw [sub_div, mul_div_cancel_left₀ _ hS.ne'],
    abs_div, abs_of_pos hS, div_le_iff₀ hS]
  exact a.trans hS1

/-- The fixed-point sine of a quarter turn is within `2^-62` of the sine. -/
theorem sinQuarter_near (u : Nat) (hu : u ≤ 2 ^ 147) :
    |(sinQuarter u : ℝ) / sinScale - Real.sin (2 * Real.pi * (u / one149))| ≤ 1 / 2 ^ 62 := by
  obtain ⟨h, d⟩ := sinAngle_near u hu
  have f := sinSeries_angle_near _ h
  have h0 : (0 : ℝ) ≤ ((twoPi * u / one149 : Nat) : ℝ) / sinScale := by positivity
  have b := sinSeriesReal_near_sin _ h0 h
  change |(sinQuarter u : ℝ) / sinScale - _| ≤ _ at f
  generalize ((twoPi * u / one149 : Nat) : ℝ) / sinScale = x at *
  rw [abs_sub_comm] at b
  have c := (Real.abs_sin_sub_sin_le x (2 * Real.pi * (u / one149))).trans d
  refine (abs_sub_le _ _ _).trans ((add_le_add f ((abs_sub_le _ _ _).trans (add_le_add b c))).trans ?_)
  norm_num

/-- The fixed-point sine of a turn is within `2^-62` of the sine. -/
theorem sinTurn_near (u : Nat) (hu : u < one149) :
    |(sinTurn u : ℝ) / sinScale - Real.sin (2 * Real.pi * (u / one149))| ≤ 1 / 2 ^ 62 := by
  have hOq : (one149 : ℝ) = 4 * 2 ^ 147 := by norm_num [one149]
  have hq : u / 2 ^ 147 < 4 := by rw [Nat.div_lt_iff_lt_mul (by norm_num)]; unfold one149 at hu; omega
  have hr := Nat.mod_lt u (show 0 < 2 ^ 147 by norm_num)
  have hd := Nat.div_add_mod u (2 ^ 147)
  have hs : sinTurn u = match u / 2 ^ 147 with
      | 0 => sinQuarter (u % 2 ^ 147)
      | 1 => sinQuarter (2 ^ 147 - u % 2 ^ 147)
      | 2 => -sinQuarter (u % 2 ^ 147)
      | _ => -sinQuarter (2 ^ 147 - u % 2 ^ 147) := rfl
  generalize u % 2 ^ 147 = r at *
  have hA := sinQuarter_near r hr.le
  have hB := sinQuarter_near (2 ^ 147 - r) (Nat.sub_le _ _)
  have hc : ((2 ^ 147 - r : Nat) : ℝ) = 2 ^ 147 - r := by rw [Nat.cast_sub hr.le]; norm_num
  have hu' : (u : ℝ) = 2 ^ 147 * (u / 2 ^ 147 : Nat) + r := by exact_mod_cast hd.symm
  have comp : 2 * Real.pi * ((2 ^ 147 - r) / one149) = Real.pi / 2 - 2 * Real.pi * (r / one149) := by
    rw [hOq]; field_simp; ring
  rw [hc, comp, Real.sin_pi_div_two_sub] at hB
  have angle : 2 * Real.pi * ((u : ℝ) / one149) = 2 * Real.pi * (r / one149) + (u / 2 ^ 147 : Nat) * (Real.pi / 2) := by
    rw [hu', hOq]; field_simp; ring
  rw [angle, hs]
  generalize 2 * Real.pi * ((r : ℝ) / one149) = θ at *
  have neg : ∀ (a : ℤ) (b : ℝ), |(a : ℝ) / sinScale - b| ≤ 1 / 2 ^ 62 →
      |((-a : ℤ) : ℝ) / sinScale - -b| ≤ 1 / 2 ^ 62 := by
    intro a b h
    rwa [Int.cast_neg, neg_div, show -((a : ℝ) / sinScale) - -b = -((a : ℝ) / sinScale - b) by ring, abs_neg]
  interval_cases u / 2 ^ 147
  · simpa using hA
  · rw [Nat.cast_one, one_mul, Real.sin_add_pi_div_two]; exact hB
  · rw [show θ + ((2 : ℕ) : ℝ) * (Real.pi / 2) = θ + Real.pi by push_cast; ring, Real.sin_add_pi]
    exact neg _ _ hA
  · rw [show θ + ((3 : ℕ) : ℝ) * (Real.pi / 2) = θ + Real.pi / 2 + Real.pi by push_cast; ring, Real.sin_add_pi,
      Real.sin_add_pi_div_two]
    exact neg _ _ hB

/-- Holding a number to `[-1, 1]` brings it no farther from a number in there. -/
theorem abs_clamp_sub_le (a b : ℝ) (h1 : -1 ≤ b) (h2 : b ≤ 1) : |max (-1) (min 1 a) - b| ≤ |a - b| := by
  rw [abs_le]
  rcases le_total a 1 with h | h <;> rcases le_total (-1) a with h' | h' <;> simp only [h, h', min_eq_left, min_eq_right,
    max_eq_left, max_eq_right, neg_le_self_iff, zero_le_one] <;> constructor <;>
    linarith [le_abs_self (a - b), neg_abs_le (a - b), abs_nonneg (a - b)]

/-- The fixed-point sine of a legal phase is within `2^-62` of the sine of the phase's exact value (log 5). -/
theorem sinApprox_near (p : F32) (hp : LegalPhase p) :
    |(sinApprox p : ℝ) / sinScale - Real.sin (2 * Real.pi * (val p : ℝ))| ≤ 1 / 2 ^ 62 := by
  have hS := sinScale_cast_pos
  have hu0 : 0 ≤ units p := (val_nonneg_iff p).1 hp.2.1
  have hu1 : units p < one149 := by
    rw [← units_one]; exact (val_lt_of p _ 1 val_one).1 hp.2.2
  have hv : (val p : ℝ) = ((units p).toNat : ℝ) / one149 := by
    have : ((units p).toNat : ℤ) = units p := Int.toNat_of_nonneg hu0
    unfold val
    push_cast
    rw [← this]; push_cast; rfl
  have h := sinTurn_near (units p).toNat (by omega)
  rw [hv]
  have e : (sinApprox p : ℝ) / sinScale = max (-1) (min 1 ((sinTurn (units p).toNat : ℝ) / sinScale)) := by
    unfold sinApprox
    push_cast
    rw [← max_div_div_right hS.le, ← min_div_div_right hS.le, neg_div, div_self hS.ne']
  rw [e]
  exact (abs_clamp_sub_le _ _ (Real.neg_one_le_sin _) (Real.sin_le_one _)).trans h

/-! ## The reference sine -/

/-- Below 1 the magnitude of a rounded fraction is within `2^124` units of the fraction. -/
theorem magOf_roundMag_near (n d : Nat) (hd : 0 < d) (h : n < d * 2 ^ 149) :
    |(magOf (roundMag n d) : ℝ) * d - n| ≤ 2 ^ 124 * d := by
  have hv : n / d < 2 ^ 149 := by rw [Nat.div_lt_iff_lt_mul hd, Nat.mul_comm]; exact h
  have hk : binade (n / d) ≤ 125 := by
    unfold binade
    rcases Nat.eq_zero_or_pos (n / d) with hz | hp
    · rw [hz]; simp
    · have := (Nat.log2_lt hp.ne').2 hv
      omega
  have hs := significand_le n d hd
  have hlt : roundMag n d < 0x7F800000 := by rw [roundMag_eq]; omega
  rw [magOf_roundMag n d hd hlt]
  generalize binade (n / d) = k at *
  obtain ⟨h1, h2, -⟩ := roundHalfEven_spec n (d * 2 ^ k) (Nat.mul_pos hd (Nat.two_pow_pos _))
  generalize roundHalfEven n (d * 2 ^ k) = r at *
  have hkr : (2 : ℝ) ^ k ≤ 2 ^ 125 := pow_le_pow_right₀ (by norm_num) hk
  have hdr : (0 : ℝ) < d := by exact_mod_cast hd
  have h1' : 2 * (n : ℝ) ≤ 2 * r * (d * 2 ^ k) + d * 2 ^ k := by exact_mod_cast h1
  have h2' : 2 * r * ((d : ℝ) * 2 ^ k) ≤ 2 * n + d * 2 ^ k := by exact_mod_cast h2
  have h3 : (d : ℝ) * 2 ^ k ≤ d * 2 ^ 125 := by gcongr
  push_cast
  rw [abs_le]
  constructor <;> linarith

theorem magOf_one : magOf 0x3F800000 = one149 := by decide +kernel

theorem roundMag_one : roundMag (sinScale * one149) sinScale = 0x3F800000 := by
  rw [Nat.mul_comm, ← magOf_one]; exact roundMag_exact _ _ sinScale_pos (by norm_num)

theorem natAbs_sinApprox_le (p : F32) : (sinApprox p).natAbs ≤ sinScale := by unfold sinApprox; omega

/-- `SIN2PI.finite` of the reference sine (40 R112). -/
theorem sinRef_finite (p : F32) : FiniteIn (-1) 1 (sinRef p) := by
  have hm : roundMag ((sinApprox p).natAbs * one149) sinScale ≤ 0x3F800000 := by
    rw [← roundMag_one]
    exact roundMag_mono sinScale_pos sinScale_pos
      (Nat.mul_le_mul_right _ (Nat.mul_le_mul_right _ (natAbs_sinApprox_le p)))
  have hu : |units (sinRef p)| ≤ (one149 : ℤ) := by
    rw [Int.abs_eq_natAbs, natAbs_units, sinRef, rndq_eq_pattern, magBits_pattern _ _ (roundMag_lt _ _), ← magOf_one]
    exact_mod_cast magOf_strictMono.monotone hm
  have hu' := abs_le.1 hu
  refine ⟨?_, ?_, ?_⟩
  · rw [isFinite_iff, sinRef, rndq_eq_pattern, magBits_pattern _ _ (roundMag_lt _ _)]
    exact lt_of_le_of_lt hm (by norm_num)
  · unfold val
    rw [le_div_iff₀ one149_rat_pos, neg_mul, one_mul]
    exact_mod_cast hu'.1
  · unfold val
    rw [div_le_iff₀ one149_rat_pos, one_mul]
    exact_mod_cast hu'.2

/-- The reference sine is within `2^-25` of the fixed-point one. -/
theorem sinRef_near (p : F32) : |(val (sinRef p) : ℝ) - (sinApprox p : ℝ) / sinScale| ≤ 1 / 2 ^ 25 := by
  have hSn := sinScale_pos
  have hS := sinScale_cast_pos
  have hO := one149_cast_pos
  have hb := natAbs_sinApprox_le p
  unfold sinRef val
  generalize sinApprox p = n at *
  have hm : |(magOf (roundMag (n.natAbs * one149) sinScale) : ℝ) * sinScale - (n.natAbs * one149 : ℝ)| ≤
      2 ^ 124 * sinScale := by
    rcases Nat.lt_or_ge n.natAbs sinScale with h | h
    · exact_mod_cast magOf_roundMag_near (n.natAbs * one149) sinScale hSn (Nat.mul_lt_mul_of_pos_right h one149_pos)
    · have e : n.natAbs = sinScale := by omega
      rw [e, roundMag_one, magOf_one, mul_comm, sub_self, abs_zero]
      positivity
  have key : ((units (rndq n sinScale) : ℝ)) * sinScale - n * one149 =
      (if n < 0 then -1 else 1) *
        ((magOf (roundMag (n.natAbs * one149) sinScale) : ℝ) * sinScale - n.natAbs * one149) := by
    have hna : (n.natAbs : ℝ) = |(n : ℝ)| := by rw [Nat.cast_natAbs, Int.cast_abs]
    rw [units_rndq, hna]
    split
    · rename_i h
      rw [abs_of_neg (by exact_mod_cast h)]; push_cast; ring
    · rename_i h
      rw [abs_of_nonneg (by exact_mod_cast not_lt.1 h)]; push_cast; ring
  have habs : |(units (rndq n sinScale) : ℝ) * sinScale - n * one149| ≤ 2 ^ 124 * sinScale := by
    rw [key, abs_mul]
    split <;> simpa using hm
  push_cast
  rw [div_sub_div _ _ hO.ne' hS.ne', abs_div, abs_of_pos (mul_pos hO hS), div_le_iff₀ (mul_pos hO hS),
    mul_comm (one149 : ℝ) (n : ℝ)]
  refine habs.trans (le_of_eq ?_)
  have : (one149 : ℝ) = 2 ^ 149 := by norm_num [one149]
  rw [this]; ring

/-! ## `SIN2PI` (40 R112) -/

/-- The reference sine has the properties of `SIN2PI`. -/
theorem isSin2Pi_sinRef : IsSin2Pi sinRef := by
  refine ⟨fun p hp => ⟨sinRef_finite p, ?_⟩, ?_⟩
  · refine (abs_sub_le _ ((sinApprox p : ℝ) / sinScale) _).trans
      ((add_le_add (sinRef_near p) (sinApprox_near p hp)).trans ?_)
    norm_num [Config.epsSinLog]
  · decide +kernel

/-- The arms of `sin2pi` for the quarter points change nothing: it is the function chosen. -/
theorem sin2pi_eq {sine : F32 → F32} (hs : IsSin2Pi sine)
    (h : (Config.freeSin IsSin2Pi).elim sinRef Subtype.val = sine) : sin2pi = sine := by
  obtain ⟨-, h0, h1, -, h3⟩ := hs
  funext p
  rw [sin2pi, h]
  split_ifs with e0 e1 e3
  · rw [e0, h0]
  · rw [e1, h1]
  · rw [e3, h3]
  · rfl

/-- Every function with the properties of `SIN2PI` is `SIN2PI`, for some free value. -/
theorem sin2pi_of_some {sine : {f : F32 → F32 // IsSin2Pi f}} (h : Config.freeSin IsSin2Pi = some sine) :
    sin2pi = sine.1 :=
  sin2pi_eq sine.2 (by rw [h]; rfl)

theorem sin2pi_of_none (h : Config.freeSin IsSin2Pi = none) : sin2pi = sinRef :=
  sin2pi_eq isSin2Pi_sinRef (by rw [h]; rfl)

end Sys2Proof.Machine
end

