-- ==== Sys2Proof/Tests/Slice0.lean ====
section
/-! SUPPORT. Tests: well-formedness, decoding, one or two steps of each instruction against the spec's vectors (95), and
a witness of the hypotheses of each statement. -/

namespace Sys2Proof.Tests

open Sys2Proof Sys2Proof.Machine

/-! ## Well-formedness: each check refuses an ill-formed term (10 R26, 30 R85) -/

theorem test_wf_wrp_absent_register : (Instr.wrp 0x0B 1).wellFormed = false := by decide
theorem test_wf_rdp_absent_register : (Instr.rdp 0x33).wellFormed = false := by decide
theorem test_wf_mod_absent_shape : (Instr.mod 4 0).wellFormed = false := by decide
theorem test_wf_dlr_absent_mode : (Instr.dlr 0 3 0).wellFormed = false := by decide
theorem test_wf_accepts : (Instr.wrp 0x0A 1).wellFormed ∧ (Instr.rdp 0x32).wellFormed ∧
    (Instr.mod 3 0).wellFormed ∧ (Instr.dlr 255 2 0).wellFormed := by decide

/-! ## Decoding: words written out from the encoding tables (30 R81 to R86, 95) -/

theorem test_decode_nop : decode 0x0000000000000000 = .instr .nop := by decide
theorem test_decode_wrp : decode 0x010300003F7D70A4 = .instr (.wrp 0x03 0x3F7D70A4) := by decide
theorem test_decode_rdp : decode 0x0211000000000000 = .instr (.rdp 0x11) := by decide
theorem test_decode_prep : decode 0x1000000000000000 = .instr .prep := by decide
theorem test_decode_rel : decode 0x1100000000000000 = .instr .rel := by decide
theorem test_decode_clr : decode 0x1200000000000000 = .instr .clr := by decide
theorem test_decode_beg : decode 0x20000000000002BC = .instr (.beg 700) := by decide
theorem test_decode_smp : decode 0x2101000041800000 = .instr (.smp 1 0x41800000) := by decide
theorem test_decode_tck : decode 0x2200000000000000 = .instr .tck := by decide
theorem test_decode_mod : decode 0x300100003E000000 = .instr (.mod 1 0x3E000000) := by decide
theorem test_decode_dly : decode 0x3100000000000000 = .instr .dly := by decide
theorem test_decode_pos : decode 0x3200000000000000 = .instr .pos := by decide
theorem test_decode_dlw : decode 0x4000000041100000 = .instr (.dlw 0 0x41100000) := by decide
theorem test_decode_dlr : decode 0x4101020040F00000 = .instr (.dlr 1 2 0x40F00000) := by decide
theorem test_decode_dla : decode 0x4200000000000000 = .instr .dla := by decide
theorem test_decode_unknown : decode 0x0300000000000000 = .unknownOpcode ∧ decode 0x2300000000000000 = .unknownOpcode ∧
    decode 0xFFFFFFFFFFFFFFFF = .unknownOpcode := by decide
theorem test_decode_reserved : decode 0x1000000000000001 = .reservedField ∧
    decode 0x2100010000000000 = .reservedField ∧ decode 0x4100000100000000 = .reservedField ∧
    decode 0x2001000000000004 = .reservedField ∧ decode 0x0200000000000005 = .reservedField := by decide

/-! ## Small states -/

/-- The squares 0, 1, 4, ... 49 in bank 0 (95 program P4). -/
def squares : DelayMem :=
  [(1 * 256, 0x3F800000), (2 * 256, 0x40800000), (3 * 256, 0x41100000), (4 * 256, 0x41800000),
   (5 * 256, 0x41C80000), (6 * 256, 0x42100000), (7 * 256, 0x42440000)]

/-- A session at 250 Hz, 4 frames a block, one channel, 8 slots (95 section 6.1). -/
def idle : State :=
  { State.reset with session := .idle, cfg := ⟨0x437A0000, 4, 1⟩, prep := ⟨0x437A0000, 4, 1, 8⟩, dm := squares }

/-- The snapshot of 95 section 6.1, cubic. -/
def snap61 : Snapshot := ⟨0x3FA00000, 0x3FA00000, 0x3D23D70A, 0x3F000000, 0x3F000000, 1, 2, 1⟩

/-- The block of 95 section 6.1 before its first frame. -/
def block : State := { idle with session := .block, blkrem := 2, snap := snap61 }

/-- The same with two channels. -/
def block2 : State := { block with prep := ⟨0x437A0000, 4, 2, 8⟩ }

/-- The response of a step on a word, none where the machine stops. -/
def response (s : State) (w : Nat) : Option Word64 :=
  match step (s.withFetchWord 64 w) with
  | .next t => t.io.responses.head?
  | .fault _ => none
  | .refused _ => none

/-- What a function reads from the state after a step on a word. -/
def after {α : Type} (s : State) (w : Nat) (f : State → α) : Option α :=
  match step (s.withFetchWord 64 w) with
  | .next t => some (f t)
  | .fault _ => none
  | .refused _ => none

/-! ## One step of each instruction (95) -/

theorem test_nop : response block 0x0000000000000000 = some 0 := by decide
theorem test_wrp_clamps : after idle 0x0100000042C80000 (fun t => t.live.delayms) = some 0x41C80000 := by decide
theorem test_wrp_keeps_minus_zero : after idle 0x0101000080000000 (fun t => t.live.sweep) = some 0x80000000 := by decide
theorem test_rdp_id : response State.reset 0x0230000000000000 = some 0x00000000424A4631 := by decide
theorem test_rdp_absent : response State.reset 0x020B000000000000 = some 0x0000000400000000 := by decide
theorem test_prep : after { State.reset with cfg := ⟨0x472C4400, 16, 1⟩ } 0x1000000000000000
    (fun t => (t.prep.len, t.session)) = some (1323, .idle) := by decide
theorem test_prep_too_long : response { State.reset with cfg := ⟨0x48855556, 16, 1⟩ } 0x1000000000000000 =
    some 0x0000000A00000000 := by decide
theorem test_rel : after block 0x1100000000000000 (fun t => (t.session, t.prep, t.cfg.fs)) =
    some (.unprep, .zero, 0x437A0000) := by decide
theorem test_clr : after { idle with widx := 3 } 0x1200000000000000 (fun t => (t.dm, t.widx)) = some ([], 0) := by
  decide
theorem test_beg : after { idle with live := { idle.live with sweep := 0x3F800000, speed := 0x41200000 } }
    0x2000000000000004 (fun t => (t.snap.base, t.snap.sweep, t.snap.inc, t.blkrem)) =
    some (0x3FA00000, 0x3FA00000, 0x3D23D70A, 4) := by decide +kernel
theorem test_beg_too_long : response idle 0x2000000000000005 = some 0x0000000900000000 := by decide
theorem test_smp : response block 0x2100000040000000 = some 0x00000000C0388000 := by decide +kernel
theorem test_smp_stores : after block 0x2100000040000000 (fun t => slot t 0 0) = some 0x40DC4000 := by decide +kernel
theorem test_tck : after block 0x2200000000000000 (fun t => (t.widx, t.lfophase, t.blkrem, t.session)) =
    some (1, 0x3D23D70A, 1, .block) := by decide +kernel
theorem test_tck_wraps : after { block with widx := 7, lfophase := 0x3F7FFFFF, blkrem := 1 } 0x2200000000000000
    (fun t => (t.widx, t.session)) = some (0, .idle) := by decide +kernel
theorem test_mod : response State.reset 0x300300003E000000 = some 0x3F200000 := by decide +kernel
/-- 41 R131, the reference sine at 0.125. -/
theorem test_reference_sine : modulationWith sinRef (fun _ => 0x7FC00000) 0x3E000000 .sine = 0x3F5A827A := by decide +kernel
theorem test_mod_refuses_one : response State.reset 0x300000003F800000 = some 0x0000000800000000 := by decide +kernel
theorem test_dly : response block 0x3100000000000000 = some 0x3FF00000 := by decide +kernel
theorem test_dly_idle : response idle 0x3100000000000000 = some 0x0000000300000000 := by decide
theorem test_pos : response block 0x3200000000000000 = some 0x40480000 := by decide +kernel
theorem test_dlw : after idle 0x4000000041100000 (fun t => (slot t 0 0, slot t 0 1)) = some (0x41100000, 0x3F800000) := by
  decide
theorem test_dlw_no_bank : response idle 0x400100003F800000 = some 0x0000000600000000 := by decide
theorem test_dlr_cubic_wraps : response idle 0x41000200BF000000 = some 0x41CA0000 := by decide +kernel
theorem test_dlr_refuses_infinity : response idle 0x410000007F800000 = some 0x0000000800000000 := by decide
theorem test_dla_wraps : after { idle with widx := 7 } 0x4200000000000000 (fun t => t.widx) = some 0 := by decide

/-! ## Witnesses: concrete states and operands that meet the hypotheses of each statement -/

theorem inv_idle : Inv idle := by
  refine ⟨by decide, fun h => absurd h (by decide), fun _ => ⟨?_, by decide, by decide⟩, legalPhase_zero, ?_,
    legalSnapshot_zero, by simp [idle, State.reset], by decide⟩
  · have h := legalPrepared_of_prep (c := ⟨0x437A0000, 4, 1⟩) (by decide) (by decide +kernel)
    have e : lineLength 0x437A0000 = 8 := by decide +kernel
    rw [e] at h
    exact h
  · refine ⟨⟨by decide, ?_, ?_⟩, ⟨by decide, ?_, ?_⟩, ⟨by decide, ?_, ?_⟩, ⟨by decide, ?_, ?_⟩,
      ⟨by decide, ?_, ?_⟩, by decide, by decide, by decide⟩ <;> decide +kernel

theorem inv_block : Inv block := by
  have h := inv_idle
  refine ⟨by decide, fun h => absurd h (by decide), fun _ => ⟨(h.prepared (by decide)).1, by decide, by decide⟩,
    legalPhase_zero, h.live, ?_, by simp [block, idle, State.reset], by decide⟩
  refine ⟨⟨⟨by decide, ?_, ?_⟩, by decide⟩, ⟨⟨by decide, ?_, ?_⟩, by decide⟩, ⟨by decide, ?_, ?_⟩,
    ⟨by decide, ?_, ?_⟩, ⟨by decide, ?_, ?_⟩, by decide, by decide, by decide⟩ <;> decide +kernel

theorem inv_block2 : Inv block2 := by
  have h := inv_block
  have hp := (h.prepared (by decide)).1
  exact ⟨h.1, fun h => absurd h (by decide),
    fun _ => ⟨⟨hp.fs, hp.maxblk, by decide, hp.len, hp.fits⟩, by decide, by decide⟩, h.4, h.5, h.6, h.7, h.8⟩

theorem witness_EncodeOfDecodedIsTheWord : decode 0x4100020040F00000 = .instr (.dlr 0 2 0x40F00000) := by decide

theorem witness_StepRunsTheDecodedInstruction :
    (idle.withFetchWord 64 0).io.pending = (0 : Word64) :: [] ∧ decode 0 = .instr .nop := by decide

theorem witness_UndecodableWordsAreRefused :
    (idle.withFetchWord 64 0x7F00000000000000).io.pending = (0x7F00000000000000 : Word64) :: [] ∧
    (0x7F00000000000000 : Word64).toNat / 2 ^ 56 ∉
      [0x00, 0x01, 0x02, 0x10, 0x11, 0x12, 0x20, 0x21, 0x22, 0x30, 0x31, 0x32, 0x40, 0x41, 0x42] ∧
    (idle.withFetchWord 64 1).io.pending = (1 : Word64) :: [] ∧ decode 1 = .reservedField := by decide

theorem witness_OneResponsePerCommand : ∃ t, (idle.withFetchWord 64 0).io.pending = (0 : Word64) :: [] ∧
    step (idle.withFetchWord 64 0) = .next t := ⟨_, rfl, rfl⟩

theorem witness_RefusedCommandsChangeOnlyErr : ∃ t r, (idle.withFetchWord 64 1).io.pending = (1 : Word64) :: [] ∧
    step (idle.withFetchWord 64 1) = .next t ∧ t.io.responses = r :: (idle.withFetchWord 64 1).io.responses ∧
    r.toNat / 2 ^ 32 ≠ 0 := ⟨_, _, rfl, rfl, rfl, by decide⟩

theorem witness_ErrIsClearedOnlyByWrpErr : ∃ t, exec (.wrp 0x11 8) { idle with err := 8 } = .next t ∧
    (8 : U32).getLsbD 3 = true ∧ t.err.getLsbD 3 = false := ⟨_, rfl, by decide, by decide⟩

theorem witness_SessionStateFollowsTheTable : permitted .tck Session.unprep = false ∧
    (∃ t, exec (.beg 4) idle = .next t ∧ ∃ d, Answered idle t 0 d) ∧
    (∃ t, exec (.beg 5) idle = .next t ∧ ∃ k, k ≠ 0 ∧ Answered idle t k 0) :=
  ⟨rfl, ⟨_, rfl, 0, answered_of_io (st := .ok) rfl⟩, ⟨_, rfl, 9, by decide, answered_of_io (st := .eLen) rfl⟩⟩

theorem witness_OnlyTheListedCommandsWriteEachRegister : ∃ t, exec .nop block = .next t ∧
    (∀ v, Instr.nop ≠ .wrp 0x11 v) ∧ ∃ d, Answered block t 0 d :=
  ⟨_, rfl, by simp, 0, answered_of_io (st := .ok) rfl⟩

theorem witness_SamplePathIgnoresLiveRegisters : (∃ t, exec (.smp 0 0x40000000) block = .next t) ∧
    (∃ t, exec .tck block = .next t) ∧ (∃ t, exec .dly block = .next t) ∧ (∃ t, exec .pos block = .next t) ∧
    (∃ t, exec (.dlr 0 2 0x40F00000) block = .next t) := ⟨⟨_, rfl⟩, ⟨_, rfl⟩, ⟨_, rfl⟩, ⟨_, rfl⟩, ⟨_, rfl⟩⟩

theorem witness_EveryStepKeepsTheInvariants : ∃ t, Inv block ∧ step block = .next t := ⟨_, inv_block, rfl⟩

theorem witness_ReachableStatesHaveTheInvariants :
    Reachable { State.reset with io := { State.reset.io with pending := [] ++ [0x1000000000000000] } } :=
  .deliver _ _ .reset

theorem witness_SnapshotIsHeldInABlock : ∃ t, block.session = .block ∧
    step (block.withFetchWord 64 0x2200000000000000) = .next t ∧ t.session ≠ .unprep := ⟨_, rfl, rfl, by decide⟩

theorem witness_RndqRoundsToNearestEven : (0 : Nat) < 1 ∧ (0 : Nat) < 1000 := by decide

theorem witness_FaddFollowsItsRule :
    isNaN 0x7FC00000 = true ∧ (isInf 0x7F800000 = true ∧ isInf 0xFF800000 = true ∧ 0x7F800000#32 ≠ 0xFF800000#32) ∧
    isFinite 0x7F7FFFFF = true ∧ val 0x7F7FFFFF + val 0x00000001 ≠ 0 ∧
    val 0x3F800000 + val 0xBF800000 = 0 ∧ (val 0x80000000 + val 0x80000000 = 0 ∧ signBit 0x80000000 = true) := by
  decide +kernel

theorem witness_FmulFollowsItsRule :
    isNaN 0x7F800001 = true ∧ (isInf 0xFF800000 = true ∧ isZero 0x80000000 = true) ∧
    (isInf 0x7F800000 = true ∧ isNaN 0x00000001 = false ∧ isZero 0x00000001 = false) ∧
    (isFinite 0x00000001 = true ∧ isFinite 0x3F000000 = true ∧ val 0x00000001 * val 0x3F000000 ≠ 0) ∧
    val 0x80000000 * val 0x40A00000 = 0 := by decide +kernel

theorem witness_FnegAndFsubFollowTheirRule : isNaN 0x7F800000 = false ∧ isNaN 0xFF800001 = true := by decide

theorem witness_ComparisonsFollowTheOrder :
    isFinite 0x7F7FFFFF = true ∧ isFinite 0x80000000 = true ∧ isInf 0xFF800000 = true ∧ isNaN 0xFFFFFFFF = true := by
  decide

theorem witness_ArithmeticIdentities : isNaN 0xFF800000 = false ∧ (0xFF800000#32 ≠ 0x80000000#32) ∧
    isFinite 0xFF7FFFFF = true := by decide

theorem witness_PmodIsTheRoundedRemainder : isFinite 0xAEDBE6FF = true ∧ (1 : Nat) ≤ 2 ^ 24 ∧
    (isFinite 0x7149F2CA = true ∧ 0 ≤ val 0x7149F2CA) := by decide +kernel

theorem legalPhase_bounds : LegalPhase 0x00000000 ∧ LegalPhase 0x3F7FFFFF ∧ ¬ LegalPhase 0x3F800000 := by
  simp only [← legalPhase_iff]
  decide

theorem witness_FreeValuesKeepTheirProperties : LegalPhase 0x3F7FFFFF := legalPhase_bounds.2.1

theorem witness_ModulationIsBounded : LegalPhase 0x00000000 := legalPhase_bounds.1

theorem witness_ModAnswersTheWaveform : ((3 : Byte).toNat ≤ 3 ∧ LegalPhase 0x3F7FFFFF) ∧
    val 0x3E7FFFFF < 1 / 4 ∧ ¬ val 0x3E800000 < 1 / 4 ∧ val 0x3F3FFFFF < 3 / 4 ∧ ¬ val 0x3F400000 < 3 / 4 ∧
    val 0x3EFFFFFF < 1 / 2 ∧ ¬ val 0x3F000000 < 1 / 2 :=
  ⟨⟨by decide, legalPhase_bounds.2.1⟩, by decide +kernel⟩

theorem witness_ModRefusesBadOperands : 3 < (4 : Byte).toNat ∧ ((3 : Byte).toNat ≤ 3 ∧ ¬ LegalPhase 0x3F800000) :=
  ⟨by decide, by decide, legalPhase_bounds.2.2⟩

theorem witness_block : Inv block ∧ block.session = .block ∧ (0 : Byte).toNat < block.prep.nch.toNat :=
  ⟨inv_block, rfl, by decide⟩

theorem witness_DlyAnswersTheDelay : Inv block ∧ block.session = .block := ⟨inv_block, rfl⟩

theorem witness_PosAnswersTheReadPosition : Inv block ∧ block.session = .block := ⟨inv_block, rfl⟩

theorem witness_DlwStoresAtTheWriteCursor : idle.session = .idle ∧ (0 : Byte).toNat < idle.prep.nch.toNat ∧
    idle.prep.nch.toNat ≤ (1 : Byte).toNat ∧ block.session ≠ .idle := by decide

theorem witness_DlrAnswersTheInterpolation : Inv idle ∧ idle.session ≠ .unprep ∧ (2 : Byte).toNat ≤ 2 ∧
    (0 : Byte).toNat < idle.prep.nch.toNat ∧ isFinite 0xC0400000 = true := ⟨inv_idle, by decide⟩

theorem witness_DlrRefusesBadOperands : idle.session ≠ .unprep ∧ 2 < (3 : Byte).toNat ∧
    ((2 : Byte).toNat ≤ 2 ∧ idle.prep.nch.toNat ≤ (1 : Byte).toNat) ∧
    ((0 : Byte).toNat < idle.prep.nch.toNat ∧ isFinite 0x7FC00000 = false) := by decide

theorem witness_DlaAdvancesTheCursor : idle.session = .idle ∧ 0 < idle.prep.len.toNat ∧
    { idle with widx := 7 }.widx.toNat + 1 = idle.prep.len.toNat := by decide

theorem witness_StoreThenReadReturnsTheValue : ∃ t, Inv idle ∧ idle.session = .idle ∧
    (0 : Byte).toNat < idle.prep.nch.toNat ∧ 2 ≤ idle.prep.len.toNat ∧
    isFinite (slot idle 0 ((idle.widx.toNat + 1) % idle.prep.len.toNat)) = true ∧
    isNaN 0x3F800000 = false ∧ (0x3F800000#32 ≠ 0x80000000#32) ∧ exec (.dlw 0 0x3F800000) idle = .next t :=
  ⟨_, inv_idle, rfl, by decide, by decide, by decide, by decide, by decide, rfl⟩

theorem witness_InterpolationFollowsTheFormulas : 0 < idle.prep.len.toNat ∧ 7 < idle.prep.len.toNat := by decide

theorem witness_LinearIsExactAtIntegers :
    (isFinite 0x7F7FFFFF = true ∧ signBit 0x7F7FFFFF = false ∧ isNaN 0x80000000 = false) ∧
    (isFinite 0x80000000 = true ∧ signBit 0x80000000 = true ∧ isNaN 0x7F800000 = false) ∧
    isFinite 0x7F800000 = false ∧ isFinite 0x7FC00000 = false := by decide

theorem witness_SilenceInterpolatesToZero :
    isFinite 0x3F7FFFFF = true ∧ signBit 0x3F7FFFFF = false ∧ val 0x3F7FFFFF < 1 := by decide +kernel

theorem witness_BegLatchesTheSnapshot : Inv idle ∧ idle.session = .idle ∧
    (4 : U32).toNat ≤ idle.prep.maxblk.toNat ∧ (0 : U32).toNat ≤ idle.prep.maxblk.toNat := ⟨inv_idle, by decide⟩

theorem witness_BegRefusesALongBlock : idle.session = .idle ∧ idle.prep.maxblk.toNat < (5 : U32).toNat := by decide

theorem witness_SmpMixesAndStores : Inv block ∧ block.session = .block ∧
    (0 : Byte).toNat < block.prep.nch.toNat := witness_block

theorem witness_SmpBeyondTheSessionIsSilent : block.session = .block ∧
    block.prep.nch.toNat ≤ (1 : Byte).toNat := by decide

theorem witness_SilentBankPassesTheSampleThrough : ∃ t, Inv block2 ∧ block2.session = .block ∧
    (1 : Byte).toNat < block2.prep.nch.toNat ∧ (∀ i, i < block2.prep.len.toNat → slot block2 1 i = 0) ∧
    isFinite 0x00000001 = true ∧ isZero 0x00000001 = false ∧ exec (.smp 1 0x00000001) block2 = .next t :=
  ⟨_, inv_block2, rfl, by decide, by decide, by decide, by decide, rfl⟩

theorem witness_InversionOnlyFlipsTheWetSign : ∃ t u : State,
    let s := { block with snap := { block.snap with inv := 0 } }
    s.session = .block ∧ (0 : Byte).toNat < s.prep.nch.toNat ∧ s.snap.inv = 0 ∧
    exec (.smp 0 0x40000000) s = .next t ∧
    exec (.smp 0 0x40000000) { s with snap := { s.snap with inv := 1 } } = .next u :=
  ⟨_, _, rfl, by decide, rfl, rfl, rfl⟩

theorem witness_SamplesOfDifferentChannelsCommute : ∃ t t' u u', Inv block2 ∧ (0 : Byte) ≠ 1 ∧
    exec (.smp 0 0x40000000) block2 = .next t ∧ exec (.smp 1 0x3F800000) t = .next t' ∧
    exec (.smp 1 0x3F800000) block2 = .next u ∧ exec (.smp 0 0x40000000) u = .next u' :=
  ⟨_, _, _, _, inv_block2, by decide, rfl, rfl, rfl, rfl⟩

theorem witness_TckEndsTheFrame : Inv block ∧ block.session = .block := ⟨inv_block, rfl⟩

theorem witness_TheBlockClosesAfterItsTicks :
    let s := { block with io := { block.io with pending := List.replicate 2 0x2200000000000000 } }
    Inv s ∧ s.session = .block ∧ s.blkrem.toNat = 2 ∧ s.io.pending = List.replicate 2 0x2200000000000000 := by
  have h := inv_block
  exact ⟨⟨h.1, h.2, h.3, h.4, h.5, h.6, h.7, h.8⟩, rfl, rfl, rfl⟩

theorem witness_WrpClampsTheFloatParameters : isNaN 0x7F800000 = false ∧ isNaN 0x80000000 = false ∧
    (isNaN 0x7FC00000 = true ∧ (4 : Byte).toNat ≤ 4) := by decide

theorem witness_WrpChecksTheSelectors : (3 : U32).toNat ≤ 3 ∧ 3 < (4 : U32).toNat ∧ (2 : U32).toNat ≤ 2 ∧
    2 < (3 : U32).toNat ∧ (1 : U32).toNat ≤ 1 ∧ 1 < (2 : U32).toNat := by decide

theorem witness_WrpRefusesReadOnlyAndAbsentRegisters : (0x10 : Byte) ∈ readOnlyNumbers ∧
    (0x0B : Byte) ∉ (registerTable idle).map Prod.fst ∧ (0xFF : Byte) ∉ (registerTable idle).map Prod.fst := by decide

theorem witness_RdpAnswersEveryRegister : ((0x30 : Byte), (0x424A4631 : U32)) ∈ registerTable idle ∧
    (0x33 : Byte) ∉ (registerTable idle).map Prod.fst := by decide

theorem witness_PrepStartsASession :
    let s := { State.reset with cfg := ⟨0x48855555, 1, 2⟩ }
    s.session ≠ .block ∧ isFinite s.cfg.fs = true ∧ 0 < val s.cfg.fs ∧ 1 ≤ s.cfg.maxblk.toNat ∧
    1 ≤ s.cfg.nch.toNat ∧ s.cfg.nch.toNat ≤ Config.nchMax ∧ ((8192 : Nat) : ℤ) = max 1 ⌈val s.cfg.fs * 3 / 100⌉ ∧
    8192 ≤ Config.lmax := by
  have e : lineLength 0x48855555 = 8192 := by decide +kernel
  refine ⟨by decide, by decide, by decide +kernel, by decide, by decide, by decide, ?_, by decide⟩
  rw [← e]
  exact lineLength_eq 0x48855555 (by decide +kernel)

theorem witness_PrepRefusesABadConfiguration : State.reset.session ≠ .block ∧ val State.reset.cfg.fs ≤ 0 ∧
    (Config.lmax : ℤ) < ⌈val 0x48855556 * 3 / 100⌉ := by
  refine ⟨by decide, by decide +kernel, ?_⟩
  rw [Int.lt_ceil]
  decide +kernel

theorem witness_ClrEmptiesTheDelayLine : idle.session = .idle ∧ (0 : Nat) < idle.prep.nch.toNat ∧
    (7 : Nat) < idle.prep.len.toNat ∧ idle.prep.len.toNat ≤ 8 := by decide

end Sys2Proof.Tests
end

section
/-! SUPPORT. The block never halts (00 R17, 60 R248): every meaning completes its command, by a response or by a
refusal, and so every step answers a next state. -/

namespace Sys2Proof.Machine

/-! ## Completing -/

/-- The block goes on: a next state is answered, neither a fault nor a missing meaning. -/
def Completes (r : Result) : Prop := ∃ t, r = .next t

@[simp] theorem completes_next (t : State) : Completes (.next t) := ⟨t, rfl⟩

@[simp] theorem completes_respond (st : Status) (d : U32) (s : State) : Completes (respond st d s) :=
  ⟨_, respond_eq st d s⟩

@[simp] theorem completes_raise (e : Status) (s : State) : Completes (raise e s) := ⟨_, raise_eq e s⟩

/-- A guard keeps completion when both of its branches complete. -/
theorem completes_ite {c : Prop} [Decidable c] {a b : Result} (ha : Completes a) (hb : Completes b) :
    Completes (if c then a else b) := by
  split
  · exact ha
  · exact hb

/-! ## Configuration surface and session (45) -/

theorem execWrp_completes (r : Byte) (v : U32) (s : State) : Completes (execWrp r v s) := by
  unfold execWrp
  cases Reg.ofNumber r with
  | none => exact completes_raise ..
  | some reg =>
    refine completes_ite (completes_raise ..) ?_
    cases storedValue reg v s with
    | none => exact completes_raise ..
    | some x => exact completes_respond ..

theorem execRdp_completes (r : Byte) (s : State) : Completes (execRdp r s) := by
  unfold execRdp
  cases Reg.ofNumber r with
  | none => exact completes_raise ..
  | some reg => exact completes_respond ..

theorem execPrep_completes (s : State) : Completes (execPrep s) :=
  completes_ite (completes_raise ..) <| completes_ite (completes_raise ..) <|
    completes_ite (completes_raise ..) (completes_respond ..)

theorem execClr_completes (s : State) : Completes (execClr s) :=
  completes_ite (completes_raise ..) (completes_respond ..)

/-! ## Engine (44) -/

theorem execBeg_completes (n : U32) (s : State) : Completes (execBeg n s) :=
  completes_ite (completes_raise ..) <| completes_ite (completes_raise ..) (completes_respond ..)

theorem execSmp_completes (c : Byte) (x : F32) (s : State) : Completes (execSmp c x s) :=
  completes_ite (completes_raise ..) <| completes_ite (completes_respond ..) (completes_respond ..)

theorem execTck_completes (s : State) : Completes (execTck s) :=
  completes_ite (completes_raise ..) (completes_respond ..)

/-! ## Waveform generator (41) -/

theorem execMod_completes (sel : Byte) (p : F32) (s : State) : Completes (execMod sel p s) := by
  unfold execMod
  cases Shape.select sel.toNat with
  | none => exact completes_raise ..
  | some shape => exact completes_ite (completes_respond ..) (completes_raise ..)

theorem execDly_completes (s : State) : Completes (execDly s) :=
  completes_ite (completes_respond ..) (completes_raise ..)

/-! ## Delay line (42) -/

theorem execPos_completes (s : State) : Completes (execPos s) :=
  completes_ite (completes_respond ..) (completes_raise ..)

theorem execDlw_completes (c : Byte) (v : F32) (s : State) : Completes (execDlw c v s) :=
  completes_ite (completes_raise ..) <| completes_ite (completes_respond ..) (completes_raise ..)

theorem execDlr_completes (c m : Byte) (p : F32) (s : State) : Completes (execDlr c m p s) := by
  unfold execDlr
  refine completes_ite (completes_raise ..) ?_
  cases Mode.select m.toNat with
  | none => exact completes_raise ..
  | some mode =>
    exact completes_ite (completes_raise ..) <| completes_ite (completes_raise ..) (completes_respond ..)

theorem execDla_completes (s : State) : Completes (execDla s) :=
  completes_ite (completes_raise ..) (completes_respond ..)

/-! ## Commands and steps (20 R66) -/

/-- Every instruction completes in every state: no arm of the dispatch is without a meaning. -/
theorem exec_completes (i : Instr) (s : State) : Completes (exec i s) :=
  match i with
  | .nop => completes_respond ..
  | .wrp r v => execWrp_completes r v s
  | .rdp r => execRdp_completes r s
  | .prep => execPrep_completes s
  | .rel => completes_respond ..
  | .clr => execClr_completes s
  | .beg n => execBeg_completes n s
  | .smp c x => execSmp_completes c x s
  | .tck => execTck_completes s
  | .mod n p => execMod_completes n p s
  | .dly => execDly_completes s
  | .pos => execPos_completes s
  | .dlw c v => execDlw_completes c v s
  | .dlr c m p => execDlr_completes c m p s
  | .dla => execDla_completes s

/-- A step on a pending word completes, whatever the word decodes to. -/
theorem step_completes_of_pending (s : State) (w : Word64) (rest : List Word64) (h : s.io.pending = w :: rest) :
    Completes (step s) := by
  rw [step_of_pending s w rest h]
  cases decode w with
  | instr i => exact exec_completes i _
  | unknownOpcode => exact completes_next _
  | reservedField => exact completes_next _

/-- Settles O9: with nothing pending the state is kept, and every pending word completes. -/
theorem theBlockNeverHalts : Obligations.TheBlockNeverHalts := by
  intro s
  cases hp : s.io.pending with
  | nil => exact ⟨s, step_of_empty s hp, fun _ => rfl⟩
  | cons w rest =>
    obtain ⟨t, ht⟩ := step_completes_of_pending s w rest hp
    exact ⟨t, ht, nofun⟩

end Sys2Proof.Machine
end

section
/-! SUPPORT. What an executed command can do, said once: it is refused, or it completes with the effect of its kind; and
what a step can do with the port's next word. -/

namespace Sys2Proof.Machine

/-! ## The effect of a command that completes -/

/-- The state a successful command leaves, before its response is given, and the guards it passed to make
its change; a command that only reads names none. -/
inductive Effect (s : State) : Instr → State → Prop where
  | nop : Effect s .nop s
  | wrp {r : Byte} {v x : U32} {reg : Reg} (hnum : Reg.ofNumber r = some reg)
      (hval : storedValue reg v s = some x) : Effect s (.wrp r v) (writeReg reg x s)
  | rdp {r : Byte} : Effect s (.rdp r) s
  | prep (hsession : s.session ≠ .block) (hvalid : validConfig s.cfg = true)
      (hfits : lineLength s.cfg.fs ≤ Config.lmax) :
      Effect s .prep
        { s with
          prep := ⟨s.cfg.fs, s.cfg.maxblk, s.cfg.nch, BitVec.ofNat 32 (lineLength s.cfg.fs)⟩
          dm := dmZero s.dm s.cfg.nch.toNat (lineLength s.cfg.fs), widx := 0, lfophase := 0, blkrem := 0
          snap := .zero, session := .idle }
  | rel :
      Effect s .rel
        { s with session := .unprep, blkrem := 0, widx := 0, lfophase := 0, prep := .zero, snap := .zero }
  | clr (hsession : s.session = .idle) :
      Effect s .clr { s with dm := dmZero s.dm s.prep.nch.toNat s.prep.len.toNat, widx := 0, lfophase := 0 }
  | beg {n : U32} (hsession : s.session = .idle) (hlen : n.toNat ≤ s.prep.maxblk.toNat) :
      Effect s (.beg n)
        { s with snap := latchSnapshot s, blkrem := n, session := if n = 0 then .idle else .block }
  | smp {c : Byte} {x : F32} (hsession : s.session = .block) (hchan : inSession s c = true) :
      Effect s (.smp c x) (memWrite s c s.widx.toNat (storedSample s x (wetSample s c)))
  | smpOutside {c : Byte} {x : F32} (hsession : s.session = .block) (hchan : inSession s c = false) :
      Effect s (.smp c x) s
  | tck (hsession : s.session = .block) :
      Effect s .tck
        { s with
          widx := nextIndex s, lfophase := phaseNext (nanSource s) s.lfophase s.snap.inc
          blkrem := s.blkrem - 1, session := if s.blkrem - 1 = 0 then .idle else .block }
  | mod {n : Byte} {p : F32} : Effect s (.mod n p) s
  | dly : Effect s .dly s
  | pos : Effect s .pos s
  | dlw {c : Byte} {v : F32} (hsession : s.session = .idle) (hchan : inSession s c = true) :
      Effect s (.dlw c v) (memWrite s c s.widx.toNat v)
  | dlr {c m : Byte} {p : F32} : Effect s (.dlr c m p) s
  | dla (hsession : s.session = .idle) :
      Effect s .dla { s with widx := nextIndex s }

/-- The two ways a command ends (00 R11, 60 R243): refused with a code that is not 0, or completed. -/
inductive Ends (s : State) (i : Instr) : State → Prop where
  | refused {e : Status} (he : e ≠ .ok) : Ends s i (refusedState e s)
  | done {d : U32} {u : State} (h : Effect s i u) : Ends s i (answeredState .ok d u)

/-! ## Configuration surface and session (45) -/

theorem execWrp_ends {r : Byte} {v : U32} {s t : State} (h : execWrp r v s = .next t) : Ends s (.wrp r v) t := by
  obtain ⟨reg, x, hnum, -, hval, rfl⟩ | ⟨-, rfl⟩ | ⟨-, -, -, rfl⟩ | ⟨-, -, -, -, rfl⟩ := execWrp_cases h
  · exact .done (.wrp hnum hval)
  all_goals exact .refused nofun

theorem execRdp_ends {r : Byte} {s t : State} (h : execRdp r s = .next t) : Ends s (.rdp r) t := by
  obtain ⟨reg, -, rfl⟩ | ⟨-, rfl⟩ := execRdp_cases h
  · exact .done .rdp
  · exact .refused nofun

theorem execPrep_ends {s t : State} (h : execPrep s = .next t) : Ends s .prep t := by
  obtain ⟨hsession, hvalid, hfits, rfl⟩ | ⟨-, rfl⟩ | ⟨-, -, rfl⟩ := execPrep_cases h
  · exact .done (.prep hsession hvalid hfits)
  all_goals exact .refused nofun

theorem execRel_ends {s t : State} (h : execRel s = .next t) : Ends s .rel t := by
  cases h
  exact .done .rel

theorem execClr_ends {s t : State} (h : execClr s = .next t) : Ends s .clr t := by
  obtain ⟨hsession, rfl⟩ | ⟨-, rfl⟩ := execClr_cases h
  · exact .done (.clr hsession)
  · exact .refused nofun

theorem execNop_ends {s t : State} (h : execNop s = .next t) : Ends s .nop t := by
  cases h
  exact .done .nop

/-! ## Engine (44) -/

theorem execBeg_ends {n : U32} {s t : State} (h : execBeg n s = .next t) : Ends s (.beg n) t := by
  obtain ⟨hsession, hlen, rfl⟩ | ⟨-, rfl⟩ | ⟨-, -, rfl⟩ := execBeg_cases h
  · exact .done (.beg hsession hlen)
  all_goals exact .refused nofun

theorem execSmp_ends {c : Byte} {x : F32} {s t : State} (h : execSmp c x s = .next t) : Ends s (.smp c x) t := by
  obtain ⟨hsession, hchan, rfl⟩ | ⟨hsession, hchan, rfl⟩ | ⟨-, rfl⟩ := execSmp_cases h
  · exact .done (.smp hsession hchan)
  · exact .done (.smpOutside hsession hchan)
  · exact .refused nofun

theorem execTck_ends {s t : State} (h : execTck s = .next t) : Ends s .tck t := by
  obtain ⟨hsession, rfl⟩ | ⟨-, rfl⟩ := execTck_cases h
  · exact .done (.tck hsession)
  · exact .refused nofun

/-! ## Waveform generator (41) -/

theorem execMod_ends {n : Byte} {p : F32} {s t : State} (h : execMod n p s = .next t) : Ends s (.mod n p) t := by
  obtain ⟨shape, -, -, rfl⟩ | ⟨-, rfl⟩ | ⟨-, -, rfl⟩ := execMod_cases h
  · exact .done .mod
  all_goals exact .refused nofun

theorem execDly_ends {s t : State} (h : execDly s = .next t) : Ends s .dly t := by
  obtain ⟨-, rfl⟩ | ⟨-, rfl⟩ := execDly_cases h
  · exact .done .dly
  · exact .refused nofun

/-! ## Delay line (42) -/

theorem execPos_ends {s t : State} (h : execPos s = .next t) : Ends s .pos t := by
  obtain ⟨-, rfl⟩ | ⟨-, rfl⟩ := execPos_cases h
  · exact .done .pos
  · exact .refused nofun

theorem execDlw_ends {c : Byte} {v : F32} {s t : State} (h : execDlw c v s = .next t) : Ends s (.dlw c v) t := by
  obtain ⟨hsession, hchan, rfl⟩ | ⟨-, rfl⟩ | ⟨-, -, rfl⟩ := execDlw_cases h
  · exact .done (.dlw hsession hchan)
  all_goals exact .refused nofun

theorem execDlr_ends {c m : Byte} {p : F32} {s t : State} (h : execDlr c m p s = .next t) :
    Ends s (.dlr c m p) t := by
  obtain ⟨-, -, -, -, -, rfl⟩ | ⟨-, rfl⟩ | ⟨-, -, rfl⟩ | ⟨-, -, -, rfl⟩ | ⟨-, -, -, -, rfl⟩ := execDlr_cases h
  · exact .done .dlr
  all_goals exact .refused nofun

theorem execDla_ends {s t : State} (h : execDla s = .next t) : Ends s .dla t := by
  obtain ⟨hsession, rfl⟩ | ⟨-, rfl⟩ := execDla_cases h
  · exact .done (.dla hsession)
  · exact .refused nofun

/-! ## Commands and steps (20 R66) -/

/-- Every executed command is refused or completes with its effect. -/
theorem exec_ends : ∀ {i : Instr} {s t : State}, exec i s = .next t → Ends s i t
  | .nop, _, _, h => execNop_ends h
  | .wrp _ _, _, _, h => execWrp_ends h
  | .rdp _, _, _, h => execRdp_ends h
  | .prep, _, _, h => execPrep_ends h
  | .rel, _, _, h => execRel_ends h
  | .clr, _, _, h => execClr_ends h
  | .beg _, _, _, h => execBeg_ends h
  | .smp _ _, _, _, h => execSmp_ends h
  | .tck, _, _, h => execTck_ends h
  | .mod _ _, _, _, h => execMod_ends h
  | .dly, _, _, h => execDly_ends h
  | .pos, _, _, h => execPos_ends h
  | .dlw _ _, _, _, h => execDlw_ends h
  | .dlr _ _ _, _, _, h => execDlr_ends h
  | .dla, _, _, h => execDla_ends h

/-- A step keeps the state, executes the instruction of the word it takes, or refuses that word. -/
theorem step_cases {s t : State} (h : step s = .next t) :
    (s.io.pending = [] ∧ t = s) ∨
    ∃ w rest, s.io.pending = w :: rest ∧
      ((∃ i, decode w = .instr i ∧ exec i { s with io := { s.io with pending := rest } } = .next t) ∨
       (decode w = .unknownOpcode ∧ t = refusedState .eOpc { s with io := { s.io with pending := rest } }) ∨
       (decode w = .reservedField ∧ t = refusedState .eRsv { s with io := { s.io with pending := rest } })) := by
  cases hp : s.io.pending with
  | nil =>
    rw [step_of_empty s hp] at h
    cases h
    exact .inl ⟨rfl, rfl⟩
  | cons w rest =>
    rw [step_of_pending s w rest hp] at h
    refine .inr ⟨w, rest, rfl, ?_⟩
    cases hd : decode w <;> rw [hd] at h
    case instr i => exact .inl ⟨i, rfl, h⟩
    case unknownOpcode => cases h; exact .inr (.inl ⟨rfl, rfl⟩)
    case reservedField => cases h; exact .inr (.inr ⟨rfl, rfl⟩)

end Sys2Proof.Machine
end

section
/-! SUPPORT. The invariants of 10 R52: they hold at reset, every command and every step keeps them, and so every
reachable state has them. -/

namespace Sys2Proof.Machine

/-! ## Parts of the state the invariants do not read, or read alone -/

/-- The command port plays no part in the invariants. -/
theorem inv_with_io {s : State} (h : Inv s) (io : Port) : Inv { s with io := io } := { h with }

theorem inv_answeredState {s : State} (h : Inv s) (st : Status) (d : U32) : Inv (answeredState st d s) :=
  inv_with_io h _

/-- A refusal sets an error bit and nothing else, and no refusal has the code 0 (60 R243). -/
theorem inv_refusedState {s : State} (h : Inv s) {e : Status} (he : e ≠ .ok) : Inv (refusedState e s) :=
  { h with err := err_setErr he h.err }

theorem inv_memWrite {s : State} (h : Inv s) (c : Byte) (i : Int) (v : F32) : Inv (memWrite s c i v) :=
  { h with memory := wf_dmWrite _ _ _ h.memory }

/-- `WRP` writes a live register, a configuration register or `ERR`, and each of them a legal value. -/
theorem inv_writeReg {s : State} (h : Inv s) {reg : Reg} {v x : U32} (hval : storedValue reg v s = some x) :
    Inv (writeReg reg x s) where
  block_iff := by simpa using h.block_iff
  unprep := by simpa using h.unprep
  prepared := by simpa using h.prepared
  phase := by simpa using h.phase
  live := legalLive_writeReg h.live hval
  snap := by simpa using h.snap
  err := err_writeReg h.err hval
  memory := by simpa using h.memory

/-! ## The cursor and the session -/

/-- In a session the cursor is below `LEN`, and so is the next one (42 R158). -/
theorem nextIndex_lt_of_inv {s : State} (h : Inv s) (hs : s.session ≠ .unprep) :
    (nextIndex s).toNat < s.prep.len.toNat :=
  nextIndex_lt s (prepared_len_pos (h.prepared hs).1)

/-- The session `BEG` and `TCK` leave with `n` frames to go is an open block exactly when `n` is not 0. -/
theorem ite_block_iff (n : U32) : (if n = 0 then Session.idle else .block) = .block ↔ 0 < n.toNat := by
  have hn : n = 0 ↔ n.toNat = 0 := BitVec.toNat_inj.symm
  rw [Nat.pos_iff_ne_zero, ne_eq, ← hn]
  split
  · rename_i h; exact ⟨nofun, absurd h⟩
  · rename_i h; exact ⟨fun _ => h, fun _ => rfl⟩

theorem ite_ne_unprep (n : U32) : (if n = 0 then Session.idle else .block) ≠ .unprep := by
  split <;> nofun

/-! ## One command at a time -/

section Commands
variable {s u : State} (h : Inv s)
include h

theorem inv_wrp {r : Byte} {v : U32} : Effect s (.wrp r v) u → Inv u
  | .wrp _ hval => inv_writeReg h hval

theorem inv_prep : Effect s .prep u → Inv u
  | .prep _ hvalid hfits =>
    have hprep := legalPrepared_of_prep hvalid hfits
    { h with
      block_iff := by simp
      unprep := nofun
      prepared := fun _ => ⟨hprep, prepared_len_pos hprep, Nat.zero_le _⟩
      phase := legalPhase_zero
      snap := legalSnapshot_zero
      memory := wf_dmZero _ _ _ h.memory }

theorem inv_rel : Effect s .rel u → Inv u
  | .rel =>
    { h with
      block_iff := by simp
      unprep := fun _ => ⟨rfl, rfl, rfl, rfl, rfl⟩
      prepared := fun hs => absurd rfl hs
      phase := legalPhase_zero
      snap := legalSnapshot_zero }

theorem inv_clr : Effect s .clr u → Inv u
  | .clr hsession =>
    have hs : s.session ≠ .unprep := by rw [hsession]; nofun
    have ⟨hprep, _, hrem⟩ := h.prepared hs
    { h with
      unprep := fun hu => absurd hu hs
      prepared := fun _ => ⟨hprep, prepared_len_pos hprep, hrem⟩
      phase := legalPhase_zero
      memory := wf_dmZero _ _ _ h.memory }

theorem inv_beg {n : U32} : Effect s (.beg n) u → Inv u
  | .beg hsession hlen =>
    have ⟨hprep, hwidx, _⟩ := h.prepared (by rw [hsession]; nofun)
    { h with
      block_iff := ite_block_iff n
      unprep := fun hu => absurd hu (ite_ne_unprep n)
      prepared := fun _ => ⟨hprep, hwidx, hlen⟩
      snap := legalSnapshot_latch h.live hprep }

theorem inv_smp {c : Byte} {x : F32} : Effect s (.smp c x) u → Inv u
  | .smp _ _ => inv_memWrite h ..
  | .smpOutside _ _ => h

/-- `TCK` in an open block has a frame to count down, so the count does not wrap (44 R197). -/
theorem inv_tck : Effect s .tck u → Inv u
  | .tck hsession =>
    have hs : s.session ≠ .unprep := by rw [hsession]; nofun
    have ⟨hprep, _, hrem⟩ := h.prepared hs
    have hopen : 0 < s.blkrem.toNat := h.block_iff.1 hsession
    have hdown : (s.blkrem - 1).toNat ≤ s.blkrem.toNat := by bv_omega
    { h with
      block_iff := ite_block_iff _
      unprep := fun hu => absurd hu (ite_ne_unprep _)
      prepared := fun _ => ⟨hprep, nextIndex_lt_of_inv h hs, hdown.trans hrem⟩
      phase := legalPhase_phaseNext _ _ _ h.phase h.snap.inc }

theorem inv_dlw {c : Byte} {v : F32} : Effect s (.dlw c v) u → Inv u
  | .dlw _ _ => inv_memWrite h ..

theorem inv_dla : Effect s .dla u → Inv u
  | .dla hsession =>
    have hs : s.session ≠ .unprep := by rw [hsession]; nofun
    have ⟨hprep, _, hrem⟩ := h.prepared hs
    { h with
      unprep := fun hu => absurd hu hs
      prepared := fun _ => ⟨hprep, nextIndex_lt_of_inv h hs, hrem⟩ }

end Commands

/-! ## Every command, every step, every reachable state -/

theorem inv_effect {s u : State} {i : Instr} (h : Inv s) (he : Effect s i u) : Inv u := by
  cases i with
  | wrp => exact inv_wrp h he
  | prep => exact inv_prep h he
  | rel => exact inv_rel h he
  | clr => exact inv_clr h he
  | beg => exact inv_beg h he
  | smp => exact inv_smp h he
  | tck => exact inv_tck h he
  | dlw => exact inv_dlw h he
  | dla => exact inv_dla h he
  | nop | rdp | mod | dly | pos | dlr => cases he; exact h

/-- Every command keeps the invariants. -/
theorem inv_exec {s t : State} {i : Instr} (h : Inv s) (hx : exec i s = .next t) : Inv t := by
  cases exec_ends hx with
  | refused he => exact inv_refusedState h he
  | done he => exact inv_answeredState (inv_effect h he) ..

/-- Settles O16: the word is taken from the port, which the invariants do not read, and then executed or refused. -/
theorem everyStepKeepsTheInvariants : Obligations.EveryStepKeepsTheInvariants := by
  intro s t h hstep
  obtain ⟨-, rfl⟩ | ⟨w, rest, -, ⟨i, -, hx⟩ | ⟨-, rfl⟩ | ⟨-, rfl⟩⟩ := step_cases hstep
  · exact h
  · exact inv_exec (inv_with_io h _) hx
  · exact inv_refusedState (inv_with_io h _) nofun
  · exact inv_refusedState (inv_with_io h _) nofun

/-- The live registers after reset: a delay of 5 ms and every other parameter zero (70 R270). -/
theorem legalLive_reset : LegalLive State.reset.live where
  delayms := ⟨by decide, val_five.ge, val_five.trans_le (by norm_num)⟩
  sweep := legalSnapshot_zero.mix
  speed := ⟨by decide, val_zero.ge, val_zero.trans_le (by norm_num)⟩
  feedback := legalSnapshot_zero.fb
  mix := legalSnapshot_zero.mix
  waveform := by decide
  interp := by decide
  invert := by decide

/-- Settles O17: the block is unprepared, with the live registers at their legal reset values. -/
theorem resetHasTheInvariants : Obligations.ResetHasTheInvariants where
  block_iff := by decide
  unprep := fun _ => ⟨rfl, rfl, rfl, rfl, rfl⟩
  prepared := fun hs => absurd rfl hs
  phase := legalPhase_zero
  live := legalLive_reset
  snap := legalSnapshot_zero
  err := fun j hj => by simp [State.reset] at hj
  memory := wf_reset

/-- Settles O18, by induction on how the state was reached. -/
theorem reachableStatesHaveTheInvariants : Obligations.ReachableStatesHaveTheInvariants := by
  intro s hs
  induction hs with
  | reset => exact resetHasTheInvariants
  | deliver s ws _ ih => exact inv_with_io ih _
  | step s t _ hstep ih => exact everyStepKeepsTheInvariants s t ih hstep

end Sys2Proof.Machine
end

section
/-! SUPPORT. Which commands write each piece of state (10 R26), one frame lemma per piece, and the snapshot of an open
block. -/

namespace Sys2Proof.Machine

/-! ## What the effect of a command leaves unchanged -/

section Frame
variable {s u : State} {i : Instr} (h : Effect s i u)
include h

theorem Effect.live_cfg_eq (hwrp : ∀ r v, i ≠ .wrp r v) : u.live = s.live ∧ u.cfg = s.cfg := by
  cases h with
  | wrp => exact absurd rfl (hwrp _ _)
  | _ => exact ⟨rfl, rfl⟩

theorem Effect.snap_eq (hbeg : ∀ n, i ≠ .beg n) (hprep : i ≠ .prep) (hrel : i ≠ .rel) : u.snap = s.snap := by
  cases h with
  | beg => exact absurd rfl (hbeg _)
  | prep => exact absurd rfl hprep
  | rel => exact absurd rfl hrel
  | wrp => exact writeReg_snap ..
  | _ => rfl

theorem Effect.prep_eq (hprep : i ≠ .prep) (hrel : i ≠ .rel) : u.prep = s.prep := by
  cases h with
  | prep => exact absurd rfl hprep
  | rel => exact absurd rfl hrel
  | wrp => exact writeReg_prep ..
  | _ => rfl

theorem Effect.widx_eq (hprep : i ≠ .prep) (hrel : i ≠ .rel) (hclr : i ≠ .clr) (htck : i ≠ .tck)
    (hdla : i ≠ .dla) : u.widx = s.widx := by
  cases h with
  | prep => exact absurd rfl hprep
  | rel => exact absurd rfl hrel
  | clr => exact absurd rfl hclr
  | tck => exact absurd rfl htck
  | dla => exact absurd rfl hdla
  | wrp => exact writeReg_widx ..
  | _ => rfl

theorem Effect.lfophase_eq (hprep : i ≠ .prep) (hrel : i ≠ .rel) (hclr : i ≠ .clr) (htck : i ≠ .tck) :
    u.lfophase = s.lfophase := by
  cases h with
  | prep => exact absurd rfl hprep
  | rel => exact absurd rfl hrel
  | clr => exact absurd rfl hclr
  | tck => exact absurd rfl htck
  | wrp => exact writeReg_lfophase ..
  | _ => rfl

theorem Effect.blkrem_session_eq (hbeg : ∀ n, i ≠ .beg n) (hprep : i ≠ .prep) (hrel : i ≠ .rel)
    (htck : i ≠ .tck) : u.blkrem = s.blkrem ∧ u.session = s.session := by
  cases h with
  | beg => exact absurd rfl (hbeg _)
  | prep => exact absurd rfl hprep
  | rel => exact absurd rfl hrel
  | tck => exact absurd rfl htck
  | wrp => exact ⟨writeReg_blkrem .., writeReg_session ..⟩
  | _ => exact ⟨rfl, rfl⟩

theorem Effect.dm_eq (hsmp : ∀ c x, i ≠ .smp c x) (hdlw : ∀ c v, i ≠ .dlw c v) (hprep : i ≠ .prep)
    (hclr : i ≠ .clr) : u.dm = s.dm := by
  cases h with
  | smp => exact absurd rfl (hsmp _ _)
  | dlw => exact absurd rfl (hdlw _ _)
  | prep => exact absurd rfl hprep
  | clr => exact absurd rfl hclr
  | wrp => exact writeReg_dm ..
  | _ => rfl

end Frame

/-- A `WRP` of any register but `ERR` keeps `ERR`. -/
theorem writeReg_err_of_ne {reg : Reg} (h : reg ≠ .err) (x : U32) (s : State) : (writeReg reg x s).err = s.err := by
  cases reg with
  | err => exact absurd rfl h
  | _ => rfl

/-- A command that completes writes `ERR` only as a `WRP` of register 0x11 (10 R39). -/
theorem Effect.err_eq {s u : State} {i : Instr} (h : Effect s i u) (hwrp : ∀ v, i ≠ .wrp 0x11 v) :
    u.err = s.err := by
  cases h with
  | @wrp r v x reg hnum _ =>
    refine writeReg_err_of_ne (fun hreg => hwrp v ?_) x s
    rw [number_of_ofNumber hnum, hreg]
    rfl
  | _ => rfl

/-- No refusal answers with the status 0 (60 R243). -/
theorem not_answered_zero_refusedState {e : Status} (he : e ≠ .ok) (s : State) (d : U32) :
    ¬ Answered s (refusedState e s) 0 d := fun h =>
  have hio : (refusedState e s).io = s.io.answer e 0 := rfl
  he (Status.code_eq_zero.1 ((answered_iff hio 0 d).1 h).1.symm)

/-- Settles O14: a refusal writes only `ERR`, and the effect of each command has the frames above. -/
theorem onlyTheListedCommandsWriteEachRegister : Obligations.OnlyTheListedCommandsWriteEachRegister := by
  intro i s t hx
  cases exec_ends hx with
  | refused he =>
    exact ⟨fun _ => ⟨rfl, rfl⟩, fun _ _ _ => rfl, fun _ _ => rfl, fun _ _ _ _ _ => rfl, fun _ _ _ _ => rfl,
      fun _ _ _ _ => ⟨rfl, rfl⟩, fun _ _ _ _ _ => rfl,
      fun _ ⟨d, hd⟩ => absurd hd (not_answered_zero_refusedState he s d)⟩
  | done h =>
    exact ⟨h.live_cfg_eq, h.snap_eq, h.prep_eq, h.widx_eq, h.lfophase_eq, h.blkrem_session_eq,
      fun hsmp hdlw hprep hclr _ => h.dm_eq hsmp hdlw hprep hclr, fun hwrp _ => h.err_eq hwrp⟩

/-! ## The snapshot of an open block (20 R68) -/

/-- In an open block `BEG` and `PREP` cannot complete, and `REL` ends the session. -/
theorem Effect.snap_eq_of_block {s u : State} {i : Instr} (h : Effect s i u) (hblock : s.session = .block)
    (hu : u.session ≠ .unprep) : u.snap = s.snap := by
  refine h.snap_eq ?_ ?_ ?_
  · rintro n rfl
    cases h with
    | beg hidle => rw [hblock] at hidle; cases hidle
  · rintro rfl
    cases h with
    | prep hne => exact hne hblock
  · rintro rfl
    cases h with
    | rel => exact hu rfl

theorem exec_snap_of_block {s t : State} {i : Instr} (hblock : s.session = .block) (hx : exec i s = .next t)
    (ht : t.session ≠ .unprep) : t.snap = s.snap := by
  cases exec_ends hx with
  | refused => rfl
  | done h => exact h.snap_eq_of_block hblock ht

/-- Settles O19: taking or refusing a word keeps the snapshot, and so does every command that keeps the session. -/
theorem snapshotIsHeldInABlock : Obligations.SnapshotIsHeldInABlock := by
  intro s t hblock hstep ht
  obtain ⟨-, rfl⟩ | ⟨w, rest, -, ⟨i, -, hx⟩ | ⟨-, rfl⟩ | ⟨-, rfl⟩⟩ := step_cases hstep
  · rfl
  · exact exec_snap_of_block (s := { s with io := { s.io with pending := rest } }) hblock hx ht
  · rfl
  · rfl

end Sys2Proof.Machine
end

section
/-! SUPPORT. The sample path reads no live and no configuration register (10 R50, 20 R68): two runs that differ in them
alone take the same branches. -/

namespace Sys2Proof.Machine

/-- `r'` answers what `r` answers, but with the live and configuration registers `l` and `c`. -/
def SameButSettings (l : Live) (c : Cfg) (r r' : Result) : Prop :=
  ∀ t, r = .next t → r' = .next { t with live := l, cfg := c }

section Settings
variable {l : Live} {cfg : Cfg} {s : State}

theorem sameButSettings_respond {st : Status} {d : U32} :
    SameButSettings l cfg (respond st d s) (respond st d { s with live := l, cfg := cfg }) := by
  rintro _ ⟨⟩
  rfl

theorem sameButSettings_raise {e : Status} :
    SameButSettings l cfg (raise e s) (raise e { s with live := l, cfg := cfg }) := by
  rintro _ ⟨⟩
  rfl

/-- A guard that reads neither kind of register takes the same branch in both runs. -/
theorem sameButSettings_ite {p : Prop} [Decidable p] {a b a' b' : Result}
    (ha : SameButSettings l cfg a a') (hb : SameButSettings l cfg b b') :
    SameButSettings l cfg (if p then a else b) (if p then a' else b') := by
  split
  · exact ha
  · exact hb

theorem execSmp_sameButSettings (c : Byte) (x : F32) :
    SameButSettings l cfg (execSmp c x s) (execSmp c x { s with live := l, cfg := cfg }) :=
  sameButSettings_ite sameButSettings_raise <|
    sameButSettings_ite sameButSettings_respond sameButSettings_respond

theorem execTck_sameButSettings : SameButSettings l cfg (execTck s) (execTck { s with live := l, cfg := cfg }) :=
  sameButSettings_ite sameButSettings_raise sameButSettings_respond

theorem execDly_sameButSettings : SameButSettings l cfg (execDly s) (execDly { s with live := l, cfg := cfg }) :=
  sameButSettings_ite sameButSettings_respond sameButSettings_raise

theorem execPos_sameButSettings : SameButSettings l cfg (execPos s) (execPos { s with live := l, cfg := cfg }) :=
  sameButSettings_ite sameButSettings_respond sameButSettings_raise

theorem execDlr_sameButSettings (c m : Byte) (p : F32) :
    SameButSettings l cfg (execDlr c m p s) (execDlr c m p { s with live := l, cfg := cfg }) := by
  unfold execDlr
  refine sameButSettings_ite sameButSettings_raise ?_
  cases Mode.select m.toNat with
  | none => exact sameButSettings_raise
  | some mode =>
    exact sameButSettings_ite sameButSettings_raise <|
      sameButSettings_ite sameButSettings_raise sameButSettings_respond

end Settings

/-- Settles O15, one command of the sample path at a time. -/
theorem samplePathIgnoresLiveRegisters : Obligations.SamplePathIgnoresLiveRegisters := by
  intro i s t l c hi hx
  obtain ⟨ch, x, rfl⟩ | rfl | rfl | rfl | ⟨ch, m, p, rfl⟩ := hi
  · exact execSmp_sameButSettings ch x t hx
  · exact execTck_sameButSettings t hx
  · exact execDly_sameButSettings t hx
  · exact execPos_sameButSettings t hx
  · exact execDlr_sameButSettings ch m p t hx

end Sys2Proof.Machine
end

section
/-! SUPPORT. The arithmetic that is exact, namely small integers, a factor one and a zero addend, and bounds on rounded
results, which show that a computation stays finite (40 R104 to R111). -/

namespace Sys2Proof.Machine

/-! ## Small integers (40 R109) -/

theorem one149_ne_zero : (one149 : ℤ) ≠ 0 := by exact_mod_cast one149_pos.ne'

/-- Integers below `2^24` are representable, so `i2f` is exact on them and gives no `-0.0`. -/
theorem i2f_spec {n : Nat} (hn : n < 2 ^ 24) :
    isFinite (i2f n) = true ∧ units (i2f n) = n * one149 ∧ signBit (i2f n) = false := by
  obtain ⟨m, hm, hmag⟩ := exists_magOf 149 n hn (by norm_num)
  have hx : i2f n = pattern false m := by
    unfold i2f
    rw [rndq_exact (d := 1) hm one_pos (by rw [mul_one, hmag, Int.natAbs_natCast, one149]), decide_eq_false (by omega)]
  rw [hx]
  refine ⟨?_, ?_, signBit_pattern _ _ (by omega)⟩
  · rw [isFinite_iff, magBits_pattern _ _ (by omega)]; exact hm
  · rw [units_pattern _ _ (by omega), hmag]; norm_cast

/-- A pattern of positive sign is not `-0.0`. -/
theorem ne_neg_zero_of_signBit {a : F32} (h : signBit a = false) : a ≠ 0x80000000 := by
  rintro rfl; exact absurd h (by decide)

theorem floorVal_i2f {n : Nat} (hn : n < 2 ^ 24) : floorVal (i2f n) = n := by
  rw [floorVal, (i2f_spec hn).2.1, Int.mul_ediv_cancel _ one149_ne_zero]

theorem fracVal_i2f {n : Nat} (hn : n < 2 ^ 24) : fracVal (i2f n) = 0x00000000 := by
  rw [fracVal, (i2f_spec hn).2.1, Int.mul_emod_left]
  simpa only [show units 0x00000000 = 0 by decide] using rndq_units 0x00000000 (by decide) (by decide)

/-- An integer below the modulus is its own remainder (40 R111). -/
theorem pmod_i2f {n l : Nat} (hn : n < 2 ^ 24) (hl : n < l) : pmod (i2f n) l = i2f n := by
  obtain ⟨hfin, hunits, hsign⟩ := i2f_spec hn
  have hlt : units (i2f n) < ((l * one149 : ℕ) : ℤ) := by
    rw [hunits]; exact_mod_cast Nat.mul_lt_mul_of_pos_right hl one149_pos
  have hnonneg : 0 ≤ units (i2f n) := by rw [hunits]; exact Int.natCast_nonneg (n * one149)
  rw [pmod, Int.emod_eq_of_lt hnonneg hlt]
  exact rndq_units _ hfin (ne_neg_zero_of_signBit hsign)

/-! ## Exact products and sums (40 R104, R106) -/

theorem units_zeroOf (s : Bool) : units (zeroOf s) = 0 := by cases s <;> decide

theorem isFinite_zeroOf (s : Bool) : isFinite (zeroOf s) = true := by cases s <;> decide

theorem signBit_zeroOf (s : Bool) : signBit (zeroOf s) = s := by cases s <;> decide

/-- A pattern that is neither a NaN nor finite is the infinity of its sign. -/
theorem eq_infOf {a : F32} (hn : isNaN a = false) (hf : isFinite a = false) :
    isInf a = true ∧ a = infOf (signBit a) := by
  have hm : magBits a = 0x7F800000 := by
    rw [← Bool.not_eq_true, isNaN_iff] at hn
    rw [← Bool.not_eq_true, isFinite_iff] at hf
    omega
  refine ⟨(isInf_iff a).2 hm, ?_⟩
  rw [← pattern_eta a, hm]
  cases signBit a <;> decide

/-- A zero is the zero of its sign. -/
theorem eq_zeroOf {a : F32} (h : isZero a = true) : a = zeroOf (signBit a) := by
  conv_lhs => rw [← pattern_eta a, (isZero_iff a).1 h]
  cases signBit a <;> rfl

/-- Rounding a fraction does not depend on a common factor. -/
theorem rndq_mul_left {c d : Nat} (hc : 0 < c) (n : ℤ) (hd : 0 < d) : rndq (c * n) (c * d) = rndq n d := by
  have hsign : (c : ℤ) * n < 0 ↔ n < 0 := by
    rw [← not_le, ← not_le, mul_nonneg_iff_of_pos_left (by exact_mod_cast hc)]
  have hmag : roundMag ((c * n).natAbs * one149) (c * d) = roundMag (n.natAbs * one149) d :=
    roundMag_congr (Nat.mul_pos hc hd) hd (by rw [Int.natAbs_mul, Int.natAbs_natCast]; ring)
  rw [rndq_eq_pattern, rndq_eq_pattern, hmag, decide_eq_decide.2 hsign]

/-- A factor one returns the other operand bit for bit, infinities and zeros included. -/
theorem fmul_one_left (nan : F32) {a : F32} (ha : isNaN a = false) : fmul nan 0x3F800000 a = a := by
  cases hf : isFinite a with
  | false =>
    obtain ⟨hinf, heq⟩ := eq_infOf ha hf
    obtain ⟨hnan1, hzero1, hsign1⟩ :
        isNaN 0x3F800000 = false ∧ isZero 0x3F800000 = false ∧ signBit 0x3F800000 = false := by decide
    have hz : isZero a = false := by rw [heq]; cases signBit a <;> decide
    unfold fmul
    dsimp only
    rw [flush_eq, flush_eq, hnan1, hzero1, hsign1, ha, hinf, hz]
    simpa using heq.symm
  | true =>
    rw [fmul_finite _ _ _ (by decide) hf, units_one]
    split
    · rename_i h
      have hz := (units_eq_zero_iff a).1 ((mul_eq_zero.1 h).resolve_left one149_ne_zero)
      rw [show signBit 0x3F800000 = false by decide, Bool.false_xor]
      exact (eq_zeroOf hz).symm
    · rename_i h
      have hne : a ≠ 0x80000000 := by
        rintro rfl; exact h (by rw [show units 0x80000000 = 0 by decide, mul_zero])
      conv_rhs => rw [← rndq_units a hf hne]
      exact rndq_mul_left one149_pos _ one149_pos

/-- A zero addend of either sign returns the other operand bit for bit, unless that is `-0.0`. -/
theorem fadd_zeroOf_left (nan : F32) (s : Bool) {a : F32} (ha : isNaN a = false) (hne : a ≠ 0x80000000) :
    fadd nan (zeroOf s) a = a := by
  cases hf : isFinite a with
  | false =>
    obtain ⟨hinf, -⟩ := eq_infOf ha hf
    have hz := isFinite_zeroOf s
    unfold fadd
    simp [ha, hinf, isNaN_of_isFinite hz, isInf_of_isFinite hz]
  | true =>
    rw [fadd_finite _ _ _ (isFinite_zeroOf s) hf, units_zeroOf, zero_add]
    split
    · rename_i h
      have heq := eq_zeroOf ((units_eq_zero_iff a).1 h)
      cases hs : signBit a with
      | false => rw [Bool.and_false, heq, hs]
      | true => exact absurd (by rw [heq, hs]; rfl) hne
    · exact rndq_units a hf hne

/-- The weight of the slot a linear read stands on (43 R172). -/
theorem fsub_one_zero (nan : F32) : fsub nan 0x3F800000 0x00000000 = 0x3F800000 := by
  rw [fsub, if_neg (by decide), fadd_finite _ _ _ (by decide) (by decide), show units (fneg 0x00000000) = 0 by decide,
    add_zero, units_one, if_neg one149_ne_zero, ← units_one]
  exact rndq_units 0x3F800000 (by decide) (by decide)

/-! ## Bounded results -/

/-- A finite pattern of magnitude at most `n`. -/
def Within (n : Nat) (a : F32) : Prop := isFinite a = true ∧ (units a).natAbs ≤ n * one149

/-- `Within` is a bound on the exact value. -/
theorem within_of_val {q : ℚ} {n : Nat} {a : F32} (hv : val a = q) (hfin : isFinite a = true) (hq : |q| ≤ n) :
    Within n a := by
  rw [← hv, val, abs_div, abs_of_pos one149_rat_pos, div_le_iff₀ one149_rat_pos] at hq
  refine ⟨hfin, ?_⟩
  rw [← Int.cast_abs, Int.abs_eq_natAbs] at hq
  exact_mod_cast hq

theorem within_of_finiteIn {lo hi : ℚ} {n : Nat} {a : F32} (h : FiniteIn lo hi a) (hlo : -(n : ℚ) ≤ lo)
    (hhi : hi ≤ n) : Within n a :=
  within_of_val rfl h.1 (abs_le.2 ⟨hlo.trans h.2.1, h.2.2.trans hhi⟩)

theorem Within.mono {m n : Nat} {a : F32} (h : Within m a) (hmn : m ≤ n) : Within n a :=
  ⟨h.1, h.2.trans (Nat.mul_le_mul_right _ hmn)⟩

theorem within_ite {c : Prop} [Decidable c] {n : Nat} {a b : F32} (ha : Within n a) (hb : Within n b) :
    Within n (if c then a else b) := by
  split
  · exact ha
  · exact hb

theorem within_zeroOf (n : Nat) (s : Bool) : Within n (zeroOf s) :=
  ⟨isFinite_zeroOf s, by rw [units_zeroOf]; exact Nat.zero_le _⟩

theorem within_i2f {n : Nat} (hn : n < 2 ^ 24) : Within n (i2f n) := by
  obtain ⟨hfin, hunits, -⟩ := i2f_spec hn
  exact ⟨hfin, by rw [hunits, ← Nat.cast_mul, Int.natAbs_natCast]⟩

/-- Rounding stays within a bound that is an integer below `2^24`, since the bound is representable. -/
theorem within_rndq {n : Nat} {q : ℤ} {d : Nat} (hn : n < 2 ^ 24) (hd : 0 < d) (h : q.natAbs ≤ n * d) :
    Within n (rndq q d) := by
  obtain ⟨m, hm, hmag⟩ := exists_magOf 149 n hn (by norm_num)
  have hle : magBits (rndq q d) ≤ m := by
    rw [magBits_rndq, ← roundMag_exact m 1 one_pos hm]
    refine roundMag_mono hd one_pos ?_
    rw [hmag, mul_one, mul_one, mul_right_comm]
    exact Nat.mul_le_mul_right _ h
  refine ⟨(isFinite_iff _).2 (by omega), ?_⟩
  rw [natAbs_units]
  exact (magOf_strictMono.monotone hle).trans hmag.le

theorem within_fadd {l m n : Nat} {a b : F32} (nan : F32) (ha : Within m a) (hb : Within n b)
    (hl : m + n ≤ l ∧ l < 2 ^ 24) : Within l (fadd nan a b) := by
  rw [fadd_finite _ _ _ ha.1 hb.1]
  split
  · exact within_zeroOf ..
  · refine within_rndq hl.2 one149_pos ?_
    calc (units a + units b).natAbs ≤ (units a).natAbs + (units b).natAbs := Int.natAbs_add_le ..
      _ ≤ m * one149 + n * one149 := Nat.add_le_add ha.2 hb.2
      _ = (m + n) * one149 := (add_mul ..).symm
      _ ≤ l * one149 := Nat.mul_le_mul_right _ hl.1

theorem magBits_fneg (a : F32) : magBits (fneg a) = magBits a := by
  conv_lhs => rw [← pattern_eta a, fneg_pattern _ _ (magBits_lt a), magBits_pattern _ _ (magBits_lt a)]

theorem within_fneg {n : Nat} {a : F32} (h : Within n a) : Within n (fneg a) := by
  refine ⟨?_, ?_⟩
  · rw [isFinite_iff, magBits_fneg, ← isFinite_iff]; exact h.1
  · rw [natAbs_units, magBits_fneg, ← natAbs_units]; exact h.2

theorem within_fsub {l m n : Nat} {a b : F32} (nan : F32) (ha : Within m a) (hb : Within n b)
    (hl : m + n ≤ l ∧ l < 2 ^ 24) : Within l (fsub nan a b) := by
  rw [fsub, if_neg (by rw [isNaN_of_isFinite hb.1]; nofun)]
  exact within_fadd nan ha (within_fneg hb) hl

theorem within_fmul {l m n : Nat} {a b : F32} (nan : F32) (ha : Within m a) (hb : Within n b)
    (hl : m * n ≤ l ∧ l < 2 ^ 24) : Within l (fmul nan a b) := by
  rw [fmul_finite _ _ _ ha.1 hb.1]
  split
  · exact within_zeroOf ..
  · refine within_rndq hl.2 (Nat.mul_pos one149_pos one149_pos) ?_
    calc (units a * units b).natAbs = (units a).natAbs * (units b).natAbs := Int.natAbs_mul ..
      _ ≤ m * one149 * (n * one149) := Nat.mul_le_mul ha.2 hb.2
      _ = m * n * (one149 * one149) := mul_mul_mul_comm ..
      _ ≤ l * (one149 * one149) := Nat.mul_le_mul_right _ hl.1

end Sys2Proof.Machine
end

section
/-! SUPPORT. Results up to the pattern of a NaN (40 R108): every operation keeps the relation whichever patterns are
drawn, and the read position of a block, which is finite, does not depend on them at all. -/

namespace Sys2Proof.Machine

/-! ## Operations up to the pattern of a NaN (40 R104 to R108) -/

@[refl] theorem sameUpToNaN_refl (a : F32) : SameUpToNaN a a := .inl rfl

theorem SameUpToNaN.symm {a b : F32} (h : SameUpToNaN a b) : SameUpToNaN b a := h.imp Eq.symm And.symm

theorem SameUpToNaN.eq_of_finite {a b : F32} (h : SameUpToNaN a b) (ha : isFinite a = true) : a = b :=
  h.resolve_right fun hn => by rw [isNaN_of_isFinite ha] at hn; exact absurd hn.1 nofun

theorem isNaN_nanDraw (draw site : Nat) : isNaN (nanDraw draw site) = true := by
  unfold nanDraw
  dsimp only
  split
  · assumption
  · decide

/-- A guard that both runs share keeps the relation. -/
theorem sameUpToNaN_ite {c : Prop} [Decidable c] {a a' b b' : F32} (ha : SameUpToNaN a a') (hb : SameUpToNaN b b') :
    SameUpToNaN (if c then a else b) (if c then a' else b') := by
  split
  · exact ha
  · exact hb

section Operations
variable {n n' a a' b b' : F32} (hn : SameUpToNaN n n') (ha : SameUpToNaN a a') (hb : SameUpToNaN b b')
include hn

/-- On the same operands the two results differ at most where the rule says "a NaN". -/
theorem fadd_sameUpToNaN_self : SameUpToNaN (fadd n a b) (fadd n' a b) :=
  sameUpToNaN_ite hn <| sameUpToNaN_ite (sameUpToNaN_ite (.inl rfl) hn) (.inl rfl)

theorem fmul_sameUpToNaN_self : SameUpToNaN (fmul n a b) (fmul n' a b) :=
  sameUpToNaN_ite hn <| sameUpToNaN_ite (sameUpToNaN_ite hn (.inl rfl)) (.inl rfl)

include ha hb

@[gcongr] theorem fadd_sameUpToNaN : SameUpToNaN (fadd n a b) (fadd n' a' b') := by
  obtain rfl | ⟨h, h'⟩ := ha
  · obtain rfl | ⟨h, h'⟩ := hb
    · exact fadd_sameUpToNaN_self hn
    · simpa [fadd, h, h'] using hn
  · simpa [fadd, h, h'] using hn

@[gcongr] theorem fmul_sameUpToNaN : SameUpToNaN (fmul n a b) (fmul n' a' b') := by
  obtain rfl | ⟨h, h'⟩ := ha
  · obtain rfl | ⟨h, h'⟩ := hb
    · exact fmul_sameUpToNaN_self hn
    · simpa [fmul, h, h'] using hn
  · simpa [fmul, h, h'] using hn

@[gcongr] theorem fsub_sameUpToNaN : SameUpToNaN (fsub n a b) (fsub n' a' b') := by
  obtain rfl | ⟨h, h'⟩ := hb
  · exact sameUpToNaN_ite hn (fadd_sameUpToNaN hn ha (sameUpToNaN_refl _))
  · simpa [fsub, h, h'] using hn

end Operations

/-! ## Modulation and interpolation (41, 43) -/

section Formulas
variable {k k' : NaNs} (hk : ∀ i, SameUpToNaN (k i) (k' i))
include hk

theorem modulation_sameUpToNaN (p : F32) (shape : Shape) :
    SameUpToNaN (modulation k p shape) (modulation k' p shape) := by
  cases shape with
  | sine =>
    refine fadd_sameUpToNaN (hk 1) (sameUpToNaN_refl _) ?_
    gcongr
    apply hk
  | triangle =>
    refine sameUpToNaN_ite ?_ (sameUpToNaN_ite ?_ ?_)
    all_goals gcongr <;> apply hk
  | square => exact sameUpToNaN_refl _
  | sawtooth =>
    refine sameUpToNaN_ite ?_ ?_
    all_goals
      gcongr
      apply hk

/-- The three formulas are built from the three operations alone. -/
theorem interpolateValues_sameUpToNaN (y : Neighbours) (fr : F32) (m : Mode) :
    SameUpToNaN (interpolateValues k y fr m) (interpolateValues k' y fr m) := by
  cases m with
  | linear =>
    dsimp only [interpolateValues, linear]
    gcongr <;> apply hk
  | quadratic =>
    dsimp only [interpolateValues, quadratic]
    gcongr <;> apply hk
  | cubic =>
    dsimp only [interpolateValues, cubic]
    gcongr <;> apply hk

end Formulas

/-! ## The read position is finite (41 R131 to R138, 42 R150) -/

/-- `SIN2PI` has its three properties, whichever function the implementation chose. -/
theorem isSin2Pi_sin2pi : IsSin2Pi sin2pi := by
  cases h : Config.freeSin IsSin2Pi with
  | none => rw [sin2pi_of_none h]; exact isSin2Pi_sinRef
  | some sine => rw [sin2pi_of_some h]; exact sine.2

theorem within_modulation (k : NaNs) {p : F32} (hp : LegalPhase p) (shape : Shape) :
    Within 4 (modulation k p shape) := by
  have hphase : Within 1 p := within_of_finiteIn ⟨hp.1, hp.2.1, hp.2.2.le⟩ (by norm_num) (by norm_num)
  have hhalf : Within 1 0x3F000000 := within_of_val val_half (by decide) (by norm_num)
  have hthreeHalves : Within 2 0x3FC00000 := within_of_val val_three_halves (by decide) (by norm_num)
  have htwo : Within 2 0x40000000 := within_of_val val_two (by decide) (by norm_num)
  cases shape with
  | sine =>
    have hsine : Within 1 (sin2pi p) :=
      within_of_finiteIn (isSin2Pi_sin2pi.1 p hp).1 (by norm_num) (by norm_num)
    have hscaled : Within 1 (fmul (k 0) 0x3F000000 (sin2pi p)) := within_fmul _ hhalf hsine (by norm_num)
    exact within_fadd _ hhalf hscaled (by norm_num)
  | triangle =>
    have hp2 : Within 2 (fmul (k 0) 0x40000000 p) := within_fmul _ htwo hphase (by norm_num)
    refine within_ite ?_ (within_ite ?_ ?_)
    · exact within_fadd _ hhalf hp2 (by norm_num)
    · exact within_fsub _ hthreeHalves hp2 (by norm_num)
    · exact within_fsub _ hp2 hthreeHalves (by norm_num)
  | square =>
    exact within_ite (within_of_val val_one (by decide) (by norm_num)) (within_zeroOf 4 false)
  | sawtooth =>
    refine within_ite ?_ ?_
    · exact within_fadd _ hhalf hphase (by norm_num)
    · exact within_fsub _ hphase hhalf (by norm_num)

/-- The delay is far below overflow: at most `LMAX` plus four times `LMAX`. -/
theorem within_delaySamples {s : State} (h : Inv s) : Within 40960 (delaySamples s) := by
  have hbase : Within 8192 s.snap.base :=
    within_of_finiteIn h.snap.base.1 (by norm_num) (by norm_num [Config.lmax])
  have hsweep : Within 8192 s.snap.sweep :=
    within_of_finiteIn h.snap.sweep.1 (by norm_num) (by norm_num [Config.lmax])
  have hmod := within_modulation (nanSource s) h.phase (snapShape s.snap.wave)
  have hswept : Within 32768 (fmul (nanSource s 2) s.snap.sweep
      (modulation (nanSource s) s.lfophase (snapShape s.snap.wave))) := within_fmul _ hsweep hmod (by norm_num)
  exact within_fadd _ hbase hswept (by norm_num)

/-- In a session the cursor is below the line's length, which is at most `LMAX` (10 R52). -/
theorem cursor_bounds {s : State} (h : Inv s) (hs : s.session ≠ .unprep) :
    s.widx.toNat < s.prep.len.toNat ∧ s.prep.len.toNat ≤ 8192 :=
  have ⟨hprep, hwidx, _⟩ := h.prepared hs
  ⟨hwidx, hprep.fits⟩

theorem within_rawPosition {s : State} (h : Inv s) (hs : s.session ≠ .unprep) : Within 65536 (rawPosition s) := by
  obtain ⟨hwidx, hlen⟩ := cursor_bounds h hs
  have hcursor : Within 8192 (i2f s.widx.toNat) := (within_i2f (by omega)).mono (by omega)
  have hline : Within 8192 (i2f s.prep.len.toNat) := (within_i2f (by omega)).mono hlen
  have hthree : Within 3 0x40400000 := within_of_val val_three (by decide) (by norm_num)
  have ht1 : Within 49152 (fsub (nanSource s 4) (i2f s.widx.toNat) (delaySamples s)) :=
    within_fsub _ hcursor (within_delaySamples h) (by norm_num)
  have ht2 := within_fadd (l := 57344) (nanSource s 5) ht1 hline (by norm_num)
  exact within_fsub _ ht2 hthree (by norm_num)

/-! ## The read position reads registers only (42 R150) -/

section Registers
variable (s : State) (dm : DelayMem) (io : Port)

theorem nanSource_sameUpToNaN (s s' : State) (i : Nat) : SameUpToNaN (nanSource s i) (nanSource s' i) :=
  .inr ⟨isNaN_nanDraw .., isNaN_nanDraw ..⟩

theorem delaySamples_sameUpToNaN :
    SameUpToNaN (delaySamples s) (delaySamples { s with dm := dm, io := io }) := by
  have hk := nanSource_sameUpToNaN s { s with dm := dm, io := io }
  have hmod := modulation_sameUpToNaN hk s.lfophase (snapShape s.snap.wave)
  dsimp only [delaySamples]
  gcongr <;> apply hk

theorem rawPosition_sameUpToNaN :
    SameUpToNaN (rawPosition s) (rawPosition { s with dm := dm, io := io }) := by
  have hk := nanSource_sameUpToNaN s { s with dm := dm, io := io }
  have hdelay := delaySamples_sameUpToNaN s dm io
  dsimp only [rawPosition]
  gcongr <;> apply hk

/-- In a session the read position is one number: neither the delay memory nor the patterns drawn change it. -/
theorem readPosition_of_registers {s : State} (h : Inv s) (hs : s.session ≠ .unprep) :
    readPosition { s with dm := dm, io := io } = readPosition s := by
  have heq := (rawPosition_sameUpToNaN s dm io).eq_of_finite (within_rawPosition h hs).1
  unfold readPosition
  rw [heq]

end Registers

end Sys2Proof.Machine
end

section
/-! SUPPORT. A step runs the decoded command (20 R66), and a value stored in the delay memory is read back (20 R63). -/

namespace Sys2Proof.Machine

/-! ## Steps (20 R66) -/

/-- Settles O7: the oldest pending word is taken from the port and decoded. -/
theorem stepRunsTheDecodedInstruction : Obligations.StepRunsTheDecodedInstruction := by
  intro s w rest i hpending hdecode
  rw [step_of_pending s w rest hpending, hdecode]

/-! ## A store and a linear read at its slot (20 R63, 43 R173) -/

/-- At fraction `+0.0` the linear mode returns the slot it stands on, whatever finite value the next slot holds. -/
theorem linear_at_integer (k : NaNs) (y : Neighbours) (hnext : isFinite y.y1 = true) (hnan : isNaN y.y0 = false)
    (hzero : y.y0 ≠ 0x80000000) : linear k y 0x00000000 = y.y0 := by
  have hahead : fmul (k 8) 0x00000000 y.y1 = zeroOf (signBit y.y1) := by
    rw [fmul_finite _ _ _ (by decide) hnext, show units 0x00000000 = 0 by decide, zero_mul, if_pos rfl,
      show signBit 0x00000000 = false by decide, Bool.false_xor]
  rw [linear, fsub_one_zero, hahead, fmul_one_left _ hnan, fadd_zeroOf_left _ _ hnan hzero]

/-- A read at the integral position `i` stands on slot `i` with fraction `+0.0` (42 R151). -/
theorem readAt_i2f (s : State) (c : Byte) {i : Nat} (m : Mode) (hi : i < s.prep.len.toNat) (hlt : i < 2 ^ 24) :
    readAt s c (i2f i) m = interpolate s c i 0x00000000 m := by
  rw [readAt, splitIndex, splitFraction, floorVal_i2f hlt, fracVal_i2f hlt, slotIndex_natCast, Nat.mod_eq_of_lt hi]

/-- A command that completes answers with the status 0 (30 R83). -/
theorem answered_ok {s t : State} {d : U32} (h : t.io = s.io.answer .ok d) : Answered s t 0 d :=
  (answered_iff h 0 d).2 ⟨rfl, rfl⟩

/-- `DLR` with legal operands answers the interpolation (42 R155). -/
theorem exec_dlr_eq {s : State} {c m : Byte} {p : F32} {mode : Mode} (hs : s.session ≠ .unprep)
    (hm : Mode.select m.toNat = some mode) (hc : inSession s c = true) (hp : isFinite p = true) :
    exec (.dlr c m p) s = .next (answeredState .ok (readAt s c (pmod p s.prep.len.toNat) mode) s) := by
  change execDlr c m p s = _
  unfold execDlr
  rw [if_neg hs, hm]
  simp [hc, hp, respond_eq]

/-- A linear read at the integral position `i`, with a finite slot after it, answers slot `i` (43 R173). -/
theorem linear_read_at_slot {s : State} {c : Byte} {i : Nat} (hi : i < s.prep.len.toNat) (hlt : i < 2 ^ 24)
    (hnext : isFinite (slot s c.toNat ((i + 1) % s.prep.len.toNat)) = true)
    (hnan : isNaN (slot s c.toNat i) = false) (hzero : slot s c.toNat i ≠ 0x80000000) :
    readAt s c (pmod (i2f i) s.prep.len.toNat) .linear = slot s c.toNat i := by
  have hy0 : (neighbours s c i).y0 = slot s c.toNat i := by
    change slot s c.toNat (slotIndex s i) = _
    rw [slotIndex_natCast, Nat.mod_eq_of_lt hi]
  have hy1 : (neighbours s c i).y1 = slot s c.toNat ((i + 1) % s.prep.len.toNat) := by
    change slot s c.toNat (slotIndex s ((i : ℤ) + 1)) = _
    rw [← slotIndex_natCast, Nat.cast_succ]
  rw [pmod_i2f hlt hi, readAt_i2f s c .linear hi hlt, ← hy0]
  exact linear_at_integer _ _ (by rw [hy1]; exact hnext) (by rw [hy0]; exact hnan) (by rw [hy0]; exact hzero)

/-- `DLR` in linear mode at the integral position `i` answers slot `i`. -/
theorem exec_dlr_linear_at_slot {s : State} {c : Byte} {i : Nat} (hs : s.session ≠ .unprep)
    (hc : inSession s c = true) (hi : i < s.prep.len.toNat) (hlt : i < 2 ^ 24)
    (hnext : isFinite (slot s c.toNat ((i + 1) % s.prep.len.toNat)) = true)
    (hnan : isNaN (slot s c.toNat i) = false) (hzero : slot s c.toNat i ≠ 0x80000000) :
    ∃ u, exec (.dlr c 0 (i2f i)) s = .next u ∧ Answered s u 0 (slot s c.toNat i) := by
  refine ⟨_, exec_dlr_eq (mode := .linear) hs rfl hc (i2f_spec hlt).1, ?_⟩
  rw [linear_read_at_slot hi hlt hnext hnan hzero]
  exact answered_ok rfl

/-- A store at the write cursor sets that slot of its bank and keeps the bank's other slots (42 R152). -/
theorem slot_memWrite_cursor {s : State} (c : Byte) (v : F32) (i : Nat) (hwidx : s.widx.toNat < s.prep.len.toNat) :
    slot (memWrite s c s.widx.toNat v) c.toNat i = if i = s.widx.toNat then v else slot s c.toNat i := by
  rw [slot_memWrite s c _ v _ i c.isLt, slotIndex_natCast, Nat.mod_eq_of_lt hwidx]
  simp only [true_and]

/-- On a line of at least two slots the next slot is another one. -/
theorem succ_mod_ne {i l : Nat} (hi : i < l) (hl : 2 ≤ l) : (i + 1) % l ≠ i := by
  rcases Nat.lt_or_ge (i + 1) l with h | h
  · rw [Nat.mod_eq_of_lt h]; omega
  · rw [show i + 1 = l by omega, Nat.mod_self]; omega

/-- Settles O38: the store changes slot `WIDX` alone, and the read stands on that slot. -/
theorem storeThenReadReturnsTheValue : Obligations.StoreThenReadReturnsTheValue := by
  intro s t c v hinv hidle hc hlen hnext hnan hzero hx
  have hs : s.session ≠ .unprep := by rw [hidle]; nofun
  have hchan : inSession s c = true := decide_eq_true hc
  obtain ⟨hwidx, hmax⟩ := cursor_bounds hinv hs
  obtain ⟨-, -, rfl⟩ | ⟨hne, -⟩ | ⟨-, hout, -⟩ := execDlw_cases hx
  · have hself := (slot_memWrite_cursor c v s.widx.toNat hwidx).trans (if_pos rfl)
    have hother := (slot_memWrite_cursor c v _ hwidx).trans (if_neg (succ_mod_ne hwidx hlen))
    rw [← hself] at hnan hzero
    rw [← hother] at hnext
    obtain ⟨u, hu, hanswer⟩ := exec_dlr_linear_at_slot
      (s := answeredState .ok 0 (memWrite s c s.widx.toNat v)) hs hchan hwidx (by omega) hnext hnan hzero
    exact ⟨u, hu, hself ▸ hanswer⟩
  · exact absurd hidle hne
  · rw [hchan] at hout; cases hout

end Sys2Proof.Machine
end

section
/-! SUPPORT. The samples of two channels commute (20 R73): they share the registers, which no sample writes, and no
slot. -/

namespace Sys2Proof.Machine

/-! ## The effect of a sample (44 R189 to R194) -/

/-- The response of `SMP` in an open block. -/
def sampleResponse (s : State) (c : Byte) (x : F32) : F32 :=
  if inSession s c then outputMix s x (wetSample s c) else 0

/-- The delay memory `SMP` leaves in an open block. -/
def sampleMem (s : State) (c : Byte) (x : F32) : DelayMem :=
  if inSession s c then (memWrite s c s.widx.toNat (storedSample s x (wetSample s c))).dm else s.dm

/-- The state `SMP` leaves in an open block: only the delay memory and the port differ. -/
def sampledState (s : State) (c : Byte) (x : F32) : State :=
  { s with dm := sampleMem s c x, io := s.io.answer .ok (sampleResponse s c x) }

theorem exec_smp_of_block {s : State} (hs : s.session = .block) (c : Byte) (x : F32) :
    exec (.smp c x) s = .next (sampledState s c x) := by
  change execSmp c x s = _
  unfold execSmp sampledState sampleMem sampleResponse
  cases hc : inSession s c <;> simp [hs, respond]

theorem answered_sampledState (s : State) (c : Byte) (x : F32) :
    Answered s (sampledState s c x) 0 (sampleResponse s c x) := answered_ok rfl

theorem exec_smp_of_not_block {s : State} (hs : s.session ≠ .block) (c : Byte) (x : F32) :
    exec (.smp c x) s = .next (refusedState .eState s) := if_pos hs

/-- `SMP` writes slot `WIDX` of its own bank and no other. -/
theorem slot_sampledState (s : State) (c : Byte) (x : F32) {b : Nat} (i : Nat) (hb : b < 256) :
    slot (sampledState s c x) b i =
      if inSession s c = true ∧ b = c.toNat ∧ i = slotIndex s s.widx.toNat then storedSample s x (wetSample s c)
      else slot s b i := by
  change dmRead (sampleMem s c x) (slotKey b i) = _
  unfold sampleMem
  cases hc : inSession s c with
  | false => simp [slot]
  | true =>
    simp only [true_and, if_true]
    exact slot_memWrite s c s.widx.toNat (storedSample s x (wetSample s c)) b i hb

theorem slot_sampledState_of_ne (s : State) {c : Byte} (x : F32) {b : Nat} (i : Nat) (hb : b < 256)
    (hne : b ≠ c.toNat) : slot (sampledState s c x) b i = slot s b i := by
  rw [slot_sampledState s c x i hb, if_neg fun h => hne h.2.1]

/-! ## What a sample of one channel reads (20 R73) -/

/-- `s'` is `s` but for the port and the slots of banks other than `c`: a sample of channel `c` sees no difference. -/
inductive SameBank (c : Byte) (s : State) : State → Prop where
  | mk {dm : DelayMem} {io : Port} (hbank : ∀ i, slot { s with dm := dm, io := io } c.toNat i = slot s c.toNat i) :
      SameBank c s { s with dm := dm, io := io }

/-- A sample of another channel leaves the bank alone. -/
theorem sameBank_sampledState (s : State) {c c' : Byte} (x' : F32) (hc : c ≠ c') :
    SameBank c s (sampledState s c' x') :=
  .mk fun i => slot_sampledState_of_ne s x' i c.isLt fun h => hc (BitVec.eq_of_toNat_eq h)

section SameBank
variable {c : Byte} {s s' : State} (h : SameBank c s s') (hinv : Inv s) (hs : s.session = .block)
include h

theorem SameBank.neighbours_eq (i : Nat) : neighbours s' c i = neighbours s c i := by
  obtain ⟨hbank⟩ := h
  simp only [neighbours, memRead_eq_slot, hbank, slotIndex]

include hinv hs

theorem SameBank.readPosition_eq : readPosition s' = readPosition s := by
  obtain ⟨hbank⟩ := h
  exact readPosition_of_registers _ _ hinv (by rw [hs]; nofun)

theorem SameBank.wetSample_same : SameUpToNaN (wetSample s c) (wetSample s' c) := by
  have hvalues := interpolateValues_sameUpToNaN (nanSource_sameUpToNaN s s')
  have hneigh := h.neighbours_eq
  have hposition := h.readPosition_eq hinv hs
  obtain ⟨hbank⟩ := h
  unfold wetSample readAt interpolate
  rw [hposition, hneigh]
  exact hvalues (neighbours s c (splitIndex s (readPosition s))) (splitFraction (readPosition s))
    (snapMode s.snap.interp)

theorem SameBank.storedSample_same (x : F32) :
    SameUpToNaN (storedSample s x (wetSample s c)) (storedSample s' x (wetSample s' c)) := by
  have hwet := h.wetSample_same hinv hs
  have hk := nanSource_sameUpToNaN s s'
  obtain ⟨hbank⟩ := h
  dsimp only [storedSample]
  gcongr <;> apply hk

theorem SameBank.sampleResponse_same (x : F32) :
    SameUpToNaN (sampleResponse s c x) (sampleResponse s' c x) := by
  have hwet := h.wetSample_same hinv hs
  have hk := nanSource_sameUpToNaN s s'
  obtain ⟨hbank⟩ := h
  refine sameUpToNaN_ite (sameUpToNaN_ite ?_ ?_) (sameUpToNaN_refl _)
  all_goals gcongr <;> apply hk

theorem SameBank.slot_same (x : F32) (i : Nat) :
    SameUpToNaN (slot (sampledState s c x) c.toNat i) (slot (sampledState s' c x) c.toNat i) := by
  have hstored := h.storedSample_same hinv hs x
  obtain ⟨hbank⟩ := h
  rw [slot_sampledState _ _ _ _ c.isLt, slot_sampledState _ _ _ _ c.isLt, hbank]
  exact sameUpToNaN_ite hstored (sameUpToNaN_refl _)

end SameBank

/-- In its own bank a sample leaves the same whether it comes before or after the sample of another channel. -/
theorem slot_sample_order {s : State} (hinv : Inv s) (hs : s.session = .block) {c c' : Byte} (hc : c ≠ c')
    (x x' : F32) (i : Nat) : SameUpToNaN (slot (sampledState (sampledState s c x) c' x') c.toNat i)
      (slot (sampledState (sampledState s c' x') c x) c.toNat i) := by
  rw [slot_sampledState_of_ne _ _ _ c.isLt fun h => hc (BitVec.eq_of_toNat_eq h)]
  exact (sameBank_sampledState s x' hc).slot_same hinv hs x i

/-- Every slot is the same in both orders: those of the two banks, and those of the banks neither sample writes. -/
theorem slot_samples_commute {s : State} (hinv : Inv s) (hs : s.session = .block) {c c' : Byte} (hc : c ≠ c')
    (x x' : F32) {b : Nat} (i : Nat) (hb : b < 256) :
    SameUpToNaN (slot (sampledState (sampledState s c x) c' x') b i)
      (slot (sampledState (sampledState s c' x') c x) b i) := by
  by_cases hbc : b = c.toNat
  · rw [hbc]; exact slot_sample_order hinv hs hc x x' i
  · by_cases hbc' : b = c'.toNat
    · rw [hbc']; exact (slot_sample_order hinv hs hc.symm x' x i).symm
    · simp only [slot_sampledState_of_ne _ _ _ hb hbc, slot_sampledState_of_ne _ _ _ hb hbc', sameUpToNaN_refl]

/-- Settles O48: outside a block both samples are refused; in one, each sees its bank as if it came alone. -/
theorem samplesOfDifferentChannelsCommute : Obligations.SamplesOfDifferentChannelsCommute := by
  intro s t t' u u' c c' x x' hinv hc ht ht' hu hu'
  by_cases hs : s.session = .block
  · rw [exec_smp_of_block hs] at ht hu
    cases ht; cases hu
    rw [exec_smp_of_block (by exact hs)] at ht' hu'
    cases ht'; cases hu'
    refine ⟨rfl, rfl, fun b i hb => slot_samples_commute hinv hs hc x x' i hb, fun _ => ?_⟩
    exact ⟨_, _, _, _, answered_sampledState .., answered_sampledState .., answered_sampledState ..,
      answered_sampledState ..,
      (sameBank_sampledState s x' hc).sampleResponse_same hinv hs x,
      ((sameBank_sampledState s x hc.symm).sampleResponse_same hinv hs x').symm⟩
  · rw [exec_smp_of_not_block hs] at ht hu
    cases ht; cases hu
    rw [exec_smp_of_not_block (by exact hs)] at ht' hu'
    cases ht'; cases hu'
    exact ⟨rfl, rfl, fun _ _ _ => sameUpToNaN_refl _, fun h => absurd h hs⟩

end Sys2Proof.Machine
end

section
/-! SUPPORT. The encoding (30): the rows of the opcode map as a relation, the opcodes and the free fields of each format,
and from them that decoding and encoding undo each other, and which words do not decode. -/

namespace Sys2Proof

/-! ## Formats (30 R82) -/

/-- The opcodes of a format's rows (30 R86). -/
def Format.opcodes : Format → List Nat
  | .z => [0x00, 0x10, 0x11, 0x12, 0x22, 0x31, 0x32, 0x42]
  | .r => [0x02]
  | .rd => [0x01]
  | .n => [0x20]
  | .cd => [0x21, 0x40]
  | .cmd => [0x41]
  | .sd => [0x30]

/-- A format leaves `A` free. -/
def Format.hasA : Format → Bool
  | .z | .n => false
  | .r | .rd | .cd | .cmd | .sd => true

/-- A format leaves `B` free. -/
def Format.hasB : Format → Bool
  | .cmd => true
  | .z | .r | .rd | .n | .cd | .sd => false

/-- A format leaves `D` free. -/
def Format.hasD : Format → Bool
  | .z | .r => false
  | .rd | .n | .cd | .cmd | .sd => true

/-- The must-be-zero fields of a format are `RSV` and those it does not leave free. -/
theorem reservedZero_iff (f : Format) (w : Word64) : f.reservedZero w = true ↔
    fieldRsv w = 0 ∧ (f.hasA = false → fieldA w = 0) ∧ (f.hasB = false → fieldB w = 0) ∧
      (f.hasD = false → fieldD w = 0) := by
  cases f <;> simp [Format.reservedZero, Format.hasA, Format.hasB, Format.hasD, and_assoc]

theorem exists_format {p : Format → Prop} :
    (∃ f, p f) ↔ p .z ∨ p .r ∨ p .rd ∨ p .n ∨ p .cd ∨ p .cmd ∨ p .sd := by
  constructor
  · rintro ⟨f, h⟩
    cases f <;> simp [h]
  · rintro (h | h | h | h | h | h | h) <;> exact ⟨_, h⟩

/-! ## The opcode map (30 R86) -/

/-- The rows of the opcode map: the format and the instruction of a word with each of the fifteen opcodes. -/
inductive OpcodeRow (w : Word64) : Format → Instr → Prop where
  | nop (h : opcOf w = 0x00) : OpcodeRow w .z .nop
  | wrp (h : opcOf w = 0x01) : OpcodeRow w .rd (.wrp (fieldA w) (fieldD w))
  | rdp (h : opcOf w = 0x02) : OpcodeRow w .r (.rdp (fieldA w))
  | prep (h : opcOf w = 0x10) : OpcodeRow w .z .prep
  | rel (h : opcOf w = 0x11) : OpcodeRow w .z .rel
  | clr (h : opcOf w = 0x12) : OpcodeRow w .z .clr
  | beg (h : opcOf w = 0x20) : OpcodeRow w .n (.beg (fieldD w))
  | smp (h : opcOf w = 0x21) : OpcodeRow w .cd (.smp (fieldA w) (fieldD w))
  | tck (h : opcOf w = 0x22) : OpcodeRow w .z .tck
  | mod (h : opcOf w = 0x30) : OpcodeRow w .sd (.mod (fieldA w) (fieldD w))
  | dly (h : opcOf w = 0x31) : OpcodeRow w .z .dly
  | pos (h : opcOf w = 0x32) : OpcodeRow w .z .pos
  | dlw (h : opcOf w = 0x40) : OpcodeRow w .cd (.dlw (fieldA w) (fieldD w))
  | dlr (h : opcOf w = 0x41) : OpcodeRow w .cmd (.dlr (fieldA w) (fieldB w) (fieldD w))
  | dla (h : opcOf w = 0x42) : OpcodeRow w .z .dla

theorem opcodeRow_eq_some_iff {w : Word64} {f : Format} {i : Instr} :
    opcodeRow w = some (f, i) ↔ OpcodeRow w f i := by
  constructor
  · intro h
    unfold opcodeRow at h
    split at h <;> cases h <;> constructor <;> exact BitVec.eq_of_toNat_eq ‹_›
  · intro h
    cases h <;> simp [opcodeRow, *]

/-- A format has a row for a word exactly when the word's opcode is one of the format's. -/
theorem exists_row_iff (w : Word64) (f : Format) :
    (∃ i, OpcodeRow w f i) ↔ w.toNat / 2 ^ 56 ∈ f.opcodes := by
  rw [← opcOf_toNat]
  constructor
  · rintro ⟨i, h⟩
    cases h <;> simp [Format.opcodes, *]
  · intro h
    have opc {o : Byte} (ho : (opcOf w).toNat = o.toNat) : opcOf w = o := BitVec.eq_of_toNat_eq ho
    cases f <;> simp only [Format.opcodes, List.mem_cons, List.not_mem_nil, or_false] at h
    case z =>
      obtain h | h | h | h | h | h | h | h := h
      · exact ⟨_, .nop (opc h)⟩
      · exact ⟨_, .prep (opc h)⟩
      · exact ⟨_, .rel (opc h)⟩
      · exact ⟨_, .clr (opc h)⟩
      · exact ⟨_, .tck (opc h)⟩
      · exact ⟨_, .dly (opc h)⟩
      · exact ⟨_, .pos (opc h)⟩
      · exact ⟨_, .dla (opc h)⟩
    case r => exact ⟨_, .rdp (opc h)⟩
    case rd => exact ⟨_, .wrp (opc h)⟩
    case n => exact ⟨_, .beg (opc h)⟩
    case cd => exact h.elim (fun h => ⟨_, .smp (opc h)⟩) fun h => ⟨_, .dlw (opc h)⟩
    case cmd => exact ⟨_, .dlr (opc h)⟩
    case sd => exact ⟨_, .mod (opc h)⟩

/-- The instruction of a row packs the word's opcode and the fields its format leaves free. -/
theorem OpcodeRow.encode_eq {w : Word64} {f : Format} {i : Instr} (h : OpcodeRow w f i) :
    encode i = packWord (opcOf w) (if f.hasA then fieldA w else 0) (if f.hasB then fieldB w else 0)
      (if f.hasD then fieldD w else 0) := by
  cases h <;> simp [encode, Format.hasA, Format.hasB, Format.hasD, *]

/-! ## The decoder (30 R90) -/

theorem decode_eq_instr_iff {w : Word64} {i : Instr} :
    decode w = .instr i ↔ ∃ f, OpcodeRow w f i ∧ f.reservedZero w = true := by
  simp only [← opcodeRow_eq_some_iff]
  unfold decode
  split
  · simp [*]
  · split <;> simp_all

theorem decode_eq_unknownOpcode_iff {w : Word64} :
    decode w = .unknownOpcode ↔ ¬ ∃ f i, OpcodeRow w f i := by
  simp only [← opcodeRow_eq_some_iff]
  unfold decode
  split
  · simp [*]
  · split <;> simp [*]

theorem decode_eq_reservedField_iff {w : Word64} :
    decode w = .reservedField ↔ ∃ f, (∃ i, OpcodeRow w f i) ∧ ¬ f.reservedZero w = true := by
  simp only [← opcodeRow_eq_some_iff]
  unfold decode
  split
  · simp [*]
  · split <;> simp [*]

/-! ## Decoding and encoding (30 R81, R82, R86) -/

/-- Every instruction's word has its row in the opcode map. -/
theorem encodedOpcode : ∀ i : Instr, Laws.EncodedOpcode.Statement i
  | .nop => Laws.EncodedOpcode.nop
  | .wrp r v => Laws.EncodedOpcode.wrp r v
  | .rdp r => Laws.EncodedOpcode.rdp r
  | .prep => Laws.EncodedOpcode.prep
  | .rel => Laws.EncodedOpcode.rel
  | .clr => Laws.EncodedOpcode.clr
  | .beg n => Laws.EncodedOpcode.beg n
  | .smp c x => Laws.EncodedOpcode.smp c x
  | .tck => Laws.EncodedOpcode.tck
  | .mod s p => Laws.EncodedOpcode.mod s p
  | .dly => Laws.EncodedOpcode.dly
  | .pos => Laws.EncodedOpcode.pos
  | .dlw c v => Laws.EncodedOpcode.dlw c v
  | .dlr c m p => Laws.EncodedOpcode.dlr c m p
  | .dla => Laws.EncodedOpcode.dla

/-- The word of an instruction has zeros in every field its format does not leave free. -/
theorem OpcodeRow.reservedZero_encode {f : Format} {i : Instr} (h : OpcodeRow (encode i) f i) :
    f.reservedZero (encode i) = true := by
  have hpack := h.encode_eq
  rw [reservedZero_iff]
  refine ⟨(encodedOpcode i).1, fun hA => ?_, fun hB => ?_, fun hD => ?_⟩
  · simpa [hA] using congrArg fieldA hpack
  · simpa [hB] using congrArg fieldB hpack
  · simpa [hD] using congrArg fieldD hpack

/-- Settles O1: the word has the instruction's own row, and no reserved field of that row is set. -/
theorem decodeOfEncodeIsTheInstruction : Obligations.DecodeOfEncodeIsTheInstruction := by
  intro i
  obtain ⟨-, f, hrow⟩ := encodedOpcode i
  rw [opcodeRow_eq_some_iff] at hrow
  exact decode_eq_instr_iff.2 ⟨f, hrow, hrow.reservedZero_encode⟩

/-- Settles O2: the fields the row does not keep are zero, so packing the kept ones gives the word. -/
theorem encodeOfDecodedIsTheWord : Obligations.EncodeOfDecodedIsTheWord := by
  intro w i hdecode
  obtain ⟨f, hrow, hzero⟩ := decode_eq_instr_iff.1 hdecode
  obtain ⟨hrsv, hA, hB, hD⟩ := (reservedZero_iff f w).1 hzero
  have keep {n : Nat} {b : Bool} {x : BitVec n} (hx : b = false → x = 0) : (if b then x else 0) = x := by
    cases b
    · exact (hx rfl).symm
    · rfl
  rw [hrow.encode_eq, keep hA, keep hB, keep hD, packWord_fields w hrsv]

section PackedNumber
variable (o a : Byte) (d : U32)

/-- The number of a word with an opcode alone (format Z). -/
theorem packWord_opc_toNat : (packWord o 0 0 0).toNat = o.toNat * 2 ^ 56 := by
  simp [packWord_toNat]

/-- The number of a word with an opcode and `A` (format R). -/
theorem packWord_opc_A_toNat : (packWord o a 0 0).toNat = o.toNat * 2 ^ 56 + a.toNat * 2 ^ 48 := by
  simp [packWord_toNat]

/-- The number of a word with an opcode and `D` (format N). -/
theorem packWord_opc_D_toNat : (packWord o 0 0 d).toNat = o.toNat * 2 ^ 56 + d.toNat := by
  simp [packWord_toNat]

/-- The number of a word with an opcode, `A` and `D` (formats RD, CD and SD). -/
theorem packWord_opc_A_D_toNat : (packWord o a 0 d).toNat = o.toNat * 2 ^ 56 + a.toNat * 2 ^ 48 + d.toNat := by
  simp [packWord_toNat]

end PackedNumber

/-- Settles O3, by the format of each row. -/
theorem encodedWordsFollowTheOpcodeMap : Obligations.EncodedWordsFollowTheOpcodeMap :=
  ⟨packWord_opc_toNat 0x00, packWord_opc_A_D_toNat 0x01, packWord_opc_A_toNat 0x02, packWord_opc_toNat 0x10,
    packWord_opc_toNat 0x11, packWord_opc_toNat 0x12, packWord_opc_D_toNat 0x20, packWord_opc_A_D_toNat 0x21,
    packWord_opc_toNat 0x22, packWord_opc_A_D_toNat 0x30, packWord_opc_toNat 0x31, packWord_opc_toNat 0x32,
    packWord_opc_A_D_toNat 0x40, packWord_toNat 0x41, packWord_opc_toNat 0x42⟩

/-! ## Words that do not decode (30 R88, R89) -/

/-- Settles O4: the fifteen opcodes are those of the seven formats. -/
theorem unknownOpcodeIffNotOneOfTheFifteen : Obligations.UnknownOpcodeIffNotOneOfTheFifteen := by
  intro w
  simp only [decode_eq_unknownOpcode_iff, exists_row_iff, exists_format, Format.opcodes, List.mem_cons,
    List.not_mem_nil, or_false]
  omega

theorem fieldA_eq_zero_iff (w : Word64) : fieldA w = 0 ↔ w.toNat / 2 ^ 48 % 256 = 0 := by
  rw [← fieldA_toNat, ← BitVec.toNat_inj]; rfl

theorem fieldB_eq_zero_iff (w : Word64) : fieldB w = 0 ↔ w.toNat / 2 ^ 40 % 256 = 0 := by
  rw [← fieldB_toNat, ← BitVec.toNat_inj]; rfl

theorem fieldRsv_eq_zero_iff (w : Word64) : fieldRsv w = 0 ↔ w.toNat / 2 ^ 32 % 256 = 0 := by
  rw [← fieldRsv_toNat, ← BitVec.toNat_inj]; rfl

theorem fieldD_eq_zero_iff (w : Word64) : fieldD w = 0 ↔ w.toNat % 2 ^ 32 = 0 := by
  rw [← fieldD_toNat, ← BitVec.toNat_inj]; rfl

/-- A word is rejected when its opcode is of a format and `RSV`, or a field which that format does not leave free,
is set. -/
theorem decode_eq_reservedField_iff_format (w : Word64) :
    decode w = .reservedField ↔ ∃ f : Format, w.toNat / 2 ^ 56 ∈ f.opcodes ∧
      (w.toNat / 2 ^ 32 % 256 ≠ 0 ∨ (f.hasA = false ∧ w.toNat / 2 ^ 48 % 256 ≠ 0) ∨
        (f.hasB = false ∧ w.toNat / 2 ^ 40 % 256 ≠ 0) ∨ (f.hasD = false ∧ w.toNat % 2 ^ 32 ≠ 0)) := by
  simp only [decode_eq_reservedField_iff, exists_row_iff, reservedZero_iff, fieldA_eq_zero_iff,
    fieldB_eq_zero_iff, fieldRsv_eq_zero_iff, fieldD_eq_zero_iff, not_and_or, Classical.not_imp, ne_eq]

/-- Settles O5, format by format; the formats RD, CD and SD leave the same fields free and share a clause. -/
theorem reservedFieldIffAMustBeZeroFieldIsSet : Obligations.ReservedFieldIffAMustBeZeroFieldIsSet := by
  intro w o a b v d
  have key : decode w = .reservedField ↔ ∃ f : Format, o ∈ f.opcodes ∧
      (v ≠ 0 ∨ (f.hasA = false ∧ a ≠ 0) ∨ (f.hasB = false ∧ b ≠ 0) ∨ (f.hasD = false ∧ d ≠ 0)) :=
    decode_eq_reservedField_iff_format w
  clear_value o a b v d
  rw [key, exists_format]
  simp only [Format.opcodes, Format.hasA, Format.hasB, Format.hasD, List.mem_cons, List.not_mem_nil, or_false,
    reduceCtorEq, false_and, true_and, false_or]
  grind

/-- Settles O6: the words of 30 R86 and 95 section 9, evaluated. -/
theorem specWordsDecode : Obligations.SpecWordsDecode := by
  unfold Obligations.SpecWordsDecode
  decide

end Sys2Proof
end

section
/-! SUPPORT. A step that takes a command word answers it exactly once (30 R83), and a word that does not decode is refused
(30 R88, R89). -/

namespace Sys2Proof.Machine

/-- Settles O8: the decoder names the failed check, and the step takes the exception of that name. -/
theorem undecodableWordsAreRefused : Obligations.UndecodableWordsAreRefused := by
  intro s w rest hpending s'
  rw [step_of_pending s w rest hpending]
  constructor
  · intro hopc
    rw [(unknownOpcodeIffNotOneOfTheFifteen w).2 hopc]
    exact ⟨_, rfl, refusedWith_refusedState .eOpc s'⟩
  · intro hdecode
    rw [hdecode]
    exact ⟨_, rfl, refusedWith_refusedState .eRsv s'⟩

/-- The effect of a command does not touch the command port: only its answer does. -/
theorem Effect.io_eq {s u : State} {i : Instr} (h : Effect s i u) : u.io = s.io := by
  cases h with
  | wrp => exact writeReg_io ..
  | _ => rfl

/-- A command leaves the port with one answer more, whose data is 0 when its status is not. -/
theorem exec_io {s t : State} {i : Instr} (h : exec i s = .next t) :
    ∃ st d, t.io = s.io.answer st d ∧ (st ≠ .ok → d = 0) := by
  cases exec_ends h with
  | refused => exact ⟨_, 0, rfl, fun _ => rfl⟩
  | @done d _ he => exact ⟨.ok, d, congrArg (Port.answer · .ok d) he.io_eq, fun h => absurd rfl h⟩

/-- A step that takes a word leaves the port without it and with one answer more, refused words included. -/
theorem step_io {s t : State} {w : Word64} {rest : List Word64} (hpending : s.io.pending = w :: rest)
    (h : step s = .next t) :
    ∃ st d, t.io = { s.io with pending := rest }.answer st d ∧ (st ≠ .ok → d = 0) := by
  rw [step_of_pending s w rest hpending] at h
  cases hd : decode w <;> rw [hd] at h
  case instr i => exact exec_io h
  case unknownOpcode => cases h; exact ⟨.eOpc, 0, rfl, fun _ => rfl⟩
  case reservedField => cases h; exact ⟨.eRsv, 0, rfl, fun _ => rfl⟩

/-- Settles O10: the one answer's word has a status code above its data and nothing above that. -/
theorem oneResponsePerCommand : Obligations.OneResponsePerCommand := by
  intro s t w rest hpending hstep
  obtain ⟨st, d, hio, hdata⟩ := step_io hpending hstep
  rw [hio]
  refine ⟨rfl, responseWord st d, rfl, ?_, ?_⟩
  · rw [responseWord_status]
    exact st.code_le
  · rw [responseWord_status, responseWord_data]
    intro hst
    rw [hdata (mt Status.code_eq_zero.2 hst)]
    rfl

end Sys2Proof.Machine
end

section
/-! SUPPORT. Rounding of exact rationals (40 R103): what `roundMag` does on magnitudes, said of signed values. -/

namespace Sys2Proof.Machine

/-! ## Distances in units -/

/-- The distance of a pattern's value from a fraction, with the denominators cleared. -/
theorem abs_val_sub_div (f : F32) (n : ℤ) {d : Nat} (hd : 0 < d) :
    |val f - (n : ℚ) / d| = ((|units f * d - n * one149| : ℤ) : ℚ) / (one149 * d) := by
  have hd' : (0 : ℚ) < d := by exact_mod_cast hd
  rw [val, div_sub_div _ _ one149_rat_pos.ne' hd'.ne', abs_div, abs_of_pos (mul_pos one149_rat_pos hd'),
    mul_comm (one149 : ℚ) (n : ℚ)]
  push_cast
  rfl

/-- Rounding moves the magnitude alone, since it keeps the sign. -/
theorem abs_units_rndq_sub (n : ℤ) (d : Nat) :
    |units (rndq n d) * d - n * one149| =
      |(magOf (roundMag (n.natAbs * one149) d) * d : ℤ) - (n.natAbs * one149 : ℕ)| := by
  rw [units_rndq, Nat.cast_mul]
  split
  · rename_i h
    rw [Int.ofNat_natAbs_of_nonpos h.le, ← abs_neg]
    congr 1
    ring
  · rename_i h
    rw [Int.natAbs_of_nonneg (not_lt.1 h)]

/-- A value is at least as far from a fraction as its magnitude is from the fraction's. -/
theorem abs_magOf_sub_le (g : F32) (n : ℤ) (d : Nat) :
    |(magOf (magBits g) * d : ℤ) - (n.natAbs * one149 : ℕ)| ≤ |units g * d - n * one149| := by
  have h := abs_abs_sub_abs_le (units g * d) (n * one149)
  rwa [Int.abs_eq_natAbs (units g * d), Int.abs_eq_natAbs (n * one149), Int.natAbs_mul, Int.natAbs_mul,
    Int.natAbs_natCast, Int.natAbs_natCast, natAbs_units, Nat.cast_mul] at h

/-! ## Nearest, ties to even (40 R103) -/

@[simp] theorem roundMag_zero (d : Nat) : roundMag 0 d = 0 := by
  simp [roundMag, roundHalfEven]

/-- Below overflow no finite value is nearer than the rounded one, which is even where another is as near. A value of
the other sign is as near only when the fraction is zero. -/
theorem rndq_nearest (n : ℤ) {d : Nat} (hd : 0 < d) (hlt : roundMag (n.natAbs * one149) d < 0x7F800000) (g : F32) :
    |units (rndq n d) * d - n * one149| ≤ |units g * d - n * one149| ∧
      (|units (rndq n d) * d - n * one149| = |units g * d - n * one149| → units g ≠ units (rndq n d) →
        roundMag (n.natAbs * one149) d % 2 = 0) := by
  obtain ⟨hle, htie⟩ := roundMag_nearest (n.natAbs * one149) d (magBits g) hd hlt
  have hg := abs_magOf_sub_le g n d
  rw [← abs_units_rndq_sub] at hle htie
  refine ⟨hle.trans hg, fun heq hne => ?_⟩
  by_cases hmag : magOf (magBits g) = magOf (roundMag (n.natAbs * one149) d)
  · have hopp : units g = -units (rndq n d) := by
      have hu := natAbs_units g
      have hf := natAbs_units (rndq n d)
      rw [magBits_rndq] at hf
      omega
    have hn : n = 0 := by
      rw [hopp, neg_mul, abs_eq_abs] at heq
      have hf : units (rndq n d) * d ≠ 0 := mul_ne_zero (by omega) (by exact_mod_cast hd.ne')
      have hz : n * (one149 : ℤ) = 0 := by omega
      exact (mul_eq_zero.1 hz).resolve_right one149_ne_zero
    rw [hn, Int.natAbs_zero, Nat.zero_mul, roundMag_zero]
  · exact htie (le_antisymm hle (hg.trans heq.ge)) hmag

/-- The overflow threshold in units. -/
theorem overflowAt_le_iff (n : ℤ) {d : Nat} (hd : 0 < d) :
    overflowAt ≤ |(n : ℚ) / d| ↔ roundMag (n.natAbs * one149) d = 0x7F800000 := by
  have hd' : (0 : ℚ) < d := by exact_mod_cast hd
  have hthreshold : overflowAt * one149 = ((2 ^ 25 - 1) * 2 ^ 252 : ℕ) := by norm_num [overflowAt, one149]
  rw [roundMag_overflow _ _ hd, abs_div, abs_of_pos hd', le_div_iff₀ hd', ← mul_le_mul_iff_left₀ one149_rat_pos,
    mul_right_comm, hthreshold, ← Int.cast_abs, Int.abs_eq_natAbs, Int.cast_natCast]
  exact_mod_cast Iff.rfl

theorem pattern_inf (s : Bool) : pattern s 0x7F800000 = infOf s := by cases s <;> rfl

/-- The quotient has the sign of the numerator. -/
theorem div_natCast_neg_iff (n : ℤ) {d : Nat} (hd : 0 < d) : (n : ℚ) / d < 0 ↔ n < 0 := by
  rw [div_lt_iff₀ (by exact_mod_cast hd), zero_mul, Int.cast_lt_zero]

/-- Settles O21: past the threshold the magnitude is the infinity's, and below it nearness holds in units, hence in
values. -/
theorem rndqRoundsToNearestEven : Obligations.RndqRoundsToNearestEven := by
  intro n d hd
  have hsign : decide ((n : ℚ) / d < 0) = decide (n < 0) := decide_eq_decide.2 (div_natCast_neg_iff n hd)
  unfold RoundsTo
  split
  · rename_i hover
    rw [rndq_eq_pattern, (overflowAt_le_iff n hd).1 hover, hsign, pattern_inf]
  · rename_i hover
    have hlt : roundMag (n.natAbs * one149) d < 0x7F800000 :=
      lt_of_le_of_ne (roundMag_le ..) (mt (overflowAt_le_iff n hd).2 hover)
    refine ⟨(isFinite_iff _).2 (by rwa [magBits_rndq]), by rw [signBit_rndq, hsign], fun g _ => ?_⟩
    obtain ⟨hle, htie⟩ := rndq_nearest n hd hlt g
    have hscale : (0 : ℚ) < one149 * d := mul_pos one149_rat_pos (by exact_mod_cast hd)
    rw [abs_val_sub_div _ _ hd, abs_val_sub_div _ _ hd, div_le_div_iff_of_pos_right hscale,
      div_left_inj' hscale.ne', Int.cast_le, Int.cast_inj, ne_eq, val_inj, fraction_eq, magBits_rndq]
    refine ⟨hle, fun heq hne => ?_⟩
    have := htie heq hne
    omega

end Sys2Proof.Machine
end

section
/-! SUPPORT. The operations of `NUM` on every pattern (40 R104 to R112): the cases of each rule, with finite results
rounded once from the exact value. -/

namespace Sys2Proof.Machine

/-! ## Kinds of patterns (40 R100) -/

theorem isNaN_of_isInf {a : F32} (h : isInf a = true) : isNaN a = false := by
  rw [← Bool.not_eq_true, isNaN_iff, (isInf_iff a).1 h]
  exact lt_irrefl _

theorem isFinite_of_isZero {a : F32} (h : isZero a = true) : isFinite a = true := by
  rw [isFinite_iff, (isZero_iff a).1 h]
  norm_num

/-- An infinity is the pattern of its sign. -/
theorem eq_infOf_of_isInf {a : F32} (h : isInf a = true) : a = infOf (signBit a) :=
  (eq_infOf (isNaN_of_isInf h) (by rw [← Bool.not_eq_true, isFinite_iff, (isInf_iff a).1 h]; exact lt_irrefl _)).2

/-- Every pattern is a NaN, an infinity or finite. -/
theorem kind_cases (a : F32) : isNaN a = true ∨ isInf a = true ∨ isFinite a = true := by
  rw [isNaN_iff, isInf_iff, isFinite_iff]
  omega

theorem isZero_zeroOf (s : Bool) : isZero (zeroOf s) = true := by cases s <;> decide

/-- Away from zero the sign bit is the sign of the value. -/
theorem signBit_of_units_ne_zero {a : F32} (h : units a ≠ 0) : signBit a = decide (units a < 0) := by
  have hdef : units a = if signBit a then -(magUnits a : ℤ) else magUnits a := rfl
  cases hs : signBit a <;> simp only [hs, if_true, Bool.false_eq_true, if_false] at hdef
  · exact (decide_eq_false (by omega)).symm
  · exact (decide_eq_true (by omega)).symm

/-! ## Addition and subtraction (40 R104, R105) -/

section Addition
variable (nan : F32) {a b : F32}

theorem fadd_of_isNaN (h : isNaN a = true ∨ isNaN b = true) : fadd nan a b = nan := by
  rw [fadd, if_pos (by simpa using h)]

theorem fadd_inf_inf (ha : isInf a = true) (hb : isInf b = true) : fadd nan a b = if a = b then a else nan := by
  simp [fadd, ha, hb, isNaN_of_isInf]

theorem fadd_inf_finite (ha : isInf a = true) (hb : isFinite b = true) : fadd nan a b = a := by
  simp [fadd, ha, isNaN_of_isInf, isNaN_of_isFinite hb, isInf_of_isFinite hb]

theorem fadd_finite_inf (ha : isFinite a = true) (hb : isInf b = true) : fadd nan a b = b := by
  simp [fadd, hb, isNaN_of_isInf, isNaN_of_isFinite ha, isInf_of_isFinite ha]

theorem fadd_comm (a b : F32) : fadd nan a b = fadd nan b a := by
  obtain ha | ha | ha := kind_cases a
  · rw [fadd_of_isNaN nan (.inl ha), fadd_of_isNaN nan (.inr ha)]
  · obtain hb | hb | hb := kind_cases b
    · rw [fadd_of_isNaN nan (.inr hb), fadd_of_isNaN nan (.inl hb)]
    · rw [fadd_inf_inf nan ha hb, fadd_inf_inf nan hb ha]
      by_cases h : a = b
      · rw [h]
      · rw [if_neg h, if_neg (Ne.symm h)]
    · rw [fadd_inf_finite nan ha hb, fadd_finite_inf nan hb ha]
  · obtain hb | hb | hb := kind_cases b
    · rw [fadd_of_isNaN nan (.inr hb), fadd_of_isNaN nan (.inl hb)]
    · rw [fadd_inf_finite nan hb ha, fadd_finite_inf nan ha hb]
    · rw [fadd_finite nan a b ha hb, fadd_finite nan b a hb ha, add_comm, Bool.and_comm]

end Addition

theorem val_add_eq_div (a b : F32) : val a + val b = ((units a + units b : ℤ) : ℚ) / one149 := by
  rw [val, val, ← add_div, Int.cast_add]

theorem val_add_eq_zero_iff (a b : F32) : val a + val b = 0 ↔ units a + units b = 0 := by
  rw [val_add_eq_div, div_eq_zero_iff, or_iff_left one149_rat_pos.ne', Int.cast_eq_zero]

/-- Settles O22: the exact sum of finite patterns is their sum in units, rounded once, and the kinds of the
operands give the other cases. -/
theorem faddFollowsItsRule : Obligations.FaddFollowsItsRule := by
  intro nan a b
  refine ⟨fadd_of_isNaN nan, fun ha hb hab => ?_, fun ha hb hab => ?_, fadd_inf_finite nan, fadd_finite_inf nan,
    fun ha hb hq => ?_, fun ha hb hq => ?_⟩
  · rw [fadd_inf_inf nan ha hb, if_pos hab]
  · rw [fadd_inf_inf nan ha hb, if_neg hab]
  · rw [fadd_finite nan a b ha hb, if_neg (mt (val_add_eq_zero_iff a b).2 hq), val_add_eq_div]
    exact rndqRoundsToNearestEven _ _ one149_pos
  · rw [fadd_finite nan a b ha hb, if_pos ((val_add_eq_zero_iff a b).1 hq)]
    simp only [zeroOf, Bool.and_eq_true]

/-- The constant of `fneg` is bit 31 alone. -/
theorem getLsbD_fneg (a : F32) (j : Nat) : (fneg a).getLsbD j = (a.getLsbD j ^^ (j == 31)) := by
  have hmask : (0x80000000 : F32) = BitVec.twoPow 32 31 := by decide
  have hbit : decide (31 = j) = (j == 31) := by
    rw [Bool.eq_iff_iff, decide_eq_true_iff, beq_iff_eq, eq_comm]
  rw [fneg, BitVec.getLsbD_xor, hmask, BitVec.getLsbD_twoPow, hbit, decide_eq_true (by norm_num), Bool.true_and]

/-- Settles O24: the negation is an exclusive or with bit 31. -/
theorem fnegAndFsubFollowTheirRule : Obligations.FnegAndFsubFollowTheirRule := by
  refine ⟨getLsbD_fneg, fun nan a b h => ?_, fun nan a b h => ?_⟩
  · rw [fsub, if_neg (by rw [h]; nofun)]
  · rw [fsub, if_pos h]

/-! ## Multiplication (40 R106) -/

section Multiplication
variable (nan : F32) {a b : F32}

theorem fmul_of_isNaN (h : isNaN a = true ∨ isNaN b = true) : fmul nan a b = nan := by
  unfold fmul
  exact if_pos (by simpa using h)

theorem fmul_comm (a b : F32) : fmul nan a b = fmul nan b a := by
  unfold fmul
  dsimp only
  rw [Bool.xor_comm, Bool.or_comm (isNaN a), Bool.or_comm (isInf _), Bool.or_comm (isZero _), mul_comm (units _)]

theorem fmul_inf (ha : isInf a = true) (hb : isNaN b = false) :
    fmul nan a b = if isZero b = true then nan else infOf (signBit a ^^ signBit b) := by
  have hz : isZero a = false := by
    rw [← Bool.not_eq_true, isZero_iff, (isInf_iff a).1 ha]
    norm_num
  simp [fmul, ha, hb, hz, isNaN_of_isInf ha]

end Multiplication

theorem val_mul_eq_div (a b : F32) :
    val a * val b = ((units a * units b : ℤ) : ℚ) / (one149 * one149 : ℕ) := by
  rw [val, val, div_mul_div_comm, Int.cast_mul, Nat.cast_mul]

theorem val_mul_eq_zero_iff (a b : F32) : val a * val b = 0 ↔ units a * units b = 0 := by
  rw [val_mul_eq_div, div_eq_zero_iff, or_iff_left (by exact_mod_cast (Nat.mul_pos one149_pos one149_pos).ne'),
    Int.cast_eq_zero]

/-- The sign bits multiply as the signs of the values do. -/
theorem signBit_xor_of_mul_ne_zero {a b : F32} (h : units a * units b ≠ 0) :
    (signBit a ^^ signBit b) = decide (units a * units b < 0) := by
  obtain ⟨ha, hb⟩ := mul_ne_zero_iff.1 h
  rw [signBit_of_units_ne_zero ha, signBit_of_units_ne_zero hb, Bool.eq_iff_iff, Bool.xor_iff_ne,
    decide_eq_true_eq, mul_neg_iff]
  simp only [ne_eq, decide_eq_decide]
  omega

/-- Settles O23: the exact product of finite patterns is their product in units, rounded once, and an infinite second
operand is an infinite first one by commutativity. -/
theorem fmulFollowsItsRule : Obligations.FmulFollowsItsRule := by
  intro nan a b
  refine ⟨fmul_of_isNaN nan, fun ha hb => ?_, fun ha hb => ?_, fun ha hn hz => ?_, fun hb hn hz => ?_,
    fun ha hb hq => ?_, fun ha hb hq => ?_⟩
  · rw [fmul_inf nan ha (isNaN_of_isFinite (isFinite_of_isZero hb)), if_pos hb]
  · rw [fmul_comm, fmul_inf nan hb (isNaN_of_isFinite (isFinite_of_isZero ha)), if_pos ha]
  · rw [fmul_inf nan ha hn, if_neg (by rw [hz]; nofun)]
  · rw [fmul_comm, fmul_inf nan hb hn, if_neg (by rw [hz]; nofun), Bool.xor_comm]
  · have hne := mt (val_mul_eq_zero_iff a b).2 hq
    rw [fmul_finite nan a b ha hb, if_neg hne, val_mul_eq_div, signBit_rndq, signBit_xor_of_mul_ne_zero hne]
    exact ⟨rndqRoundsToNearestEven _ _ (Nat.mul_pos one149_pos one149_pos), rfl⟩
  · rw [fmul_finite nan a b ha hb, if_pos ((val_mul_eq_zero_iff a b).1 hq)]

/-! ## Comparisons (40 R107) -/

section Comparisons
variable {a b : F32}

theorem flt_iff (ha : isNaN a = false) (hb : isNaN b = false) : flt a b = true ↔ units a < units b := by
  simp [flt, ha, hb]

theorem fle_iff (ha : isNaN a = false) (hb : isNaN b = false) : fle a b = true ↔ units a ≤ units b := by
  simp [fle, ha, hb]

theorem feq_iff (ha : isNaN a = false) (hb : isNaN b = false) : feq a b = true ↔ units a = units b := by
  simp [feq, ha, hb]

/-- Every comparison with a NaN is false. -/
theorem comparisons_of_isNaN (h : isNaN a = true ∨ isNaN b = true) :
    flt a b = false ∧ fle a b = false ∧ feq a b = false := by
  obtain h | h := h <;> simp [flt, fle, feq, h]

/-- A pattern below another in units is so for all three comparisons, in both directions. -/
theorem comparisons_of_units_lt (ha : isNaN a = false) (hb : isNaN b = false) (h : units a < units b) :
    (flt a b = true ∧ fle a b = true ∧ feq a b = false) ∧
      (flt b a = false ∧ fle b a = false ∧ feq b a = false) := by
  simp only [← Bool.not_eq_true, flt_iff ha hb, fle_iff ha hb, feq_iff ha hb, flt_iff hb ha, fle_iff hb ha,
    feq_iff hb ha]
  omega

end Comparisons

/-- The infinities lie outside every finite pattern. -/
theorem units_between_infinities {a : F32} (ha : isFinite a = true) :
    units 0xFF800000 < units a ∧ units a < units 0x7F800000 := by
  have hlt := magOf_strictMono ((isFinite_iff a).1 ha)
  have hmag := natAbs_units a
  have hneg : units 0xFF800000 = -(magOf 0x7F800000 : ℤ) := units_pattern true 0x7F800000 (by norm_num)
  have hpos : units 0x7F800000 = (magOf 0x7F800000 : ℤ) := units_pattern false 0x7F800000 (by norm_num)
  omega

/-- The infinities of two signs compare as the signs do. -/
theorem comparisons_infOf (s t : Bool) :
    flt (infOf s) (infOf t) = (s && !t) ∧ fle (infOf s) (infOf t) = (s || !t) ∧
      feq (infOf s) (infOf t) = (s == t) := by
  cases s <;> cases t <;> decide

/-- Settles O25: finite patterns are ordered as their units, and the infinities' units lie outside them. -/
theorem comparisonsFollowTheOrder : Obligations.ComparisonsFollowTheOrder := by
  refine ⟨fun a b ha hb => ?_, fun a ha => ?_, fun a b ha hb => ?_, fun a b => comparisons_of_isNaN⟩
  · have hna := isNaN_of_isFinite ha
    have hnb := isNaN_of_isFinite hb
    exact ⟨(flt_iff hna hnb).trans (val_lt_val a b).symm, (fle_iff hna hnb).trans (val_le_val a b).symm,
      (feq_iff hna hnb).trans (val_inj a b).symm⟩
  · have hna := isNaN_of_isFinite ha
    obtain ⟨hlo, hhi⟩ := units_between_infinities ha
    obtain ⟨⟨lt, le, eq⟩, lt', le', eq'⟩ := comparisons_of_units_lt (by decide) hna hlo
    obtain ⟨hright, hleft⟩ := comparisons_of_units_lt hna (by decide) hhi
    exact ⟨lt, le, eq, lt', le', eq', hright.1, hright.2.1, hright.2.2, hleft⟩
  · have h := comparisons_infOf (signBit a) (signBit b)
    rwa [← eq_infOf_of_isInf ha, ← eq_infOf_of_isInf hb] at h

/-! ## Identities (40 R116) -/

/-- Settles O26: the identities of 1 and of a zero addend are read from the left, and both operations commute. -/
theorem arithmeticIdentities : Obligations.ArithmeticIdentities := by
  refine ⟨fun nan a => fmul_one_left nan, fun nan a ha hne => ?_, fun nan => ?_, fun nan a ha => ?_, fun nan a b =>
    ⟨fadd_comm nan a b, fmul_comm nan a b⟩⟩
  · rw [fadd_comm]
    exact fadd_zeroOf_left nan false ha hne
  · rw [fadd_finite nan _ _ (by decide) (by decide)]
    rfl
  · rw [fmul_finite nan _ _ (by decide) ha, show units 0x00000000 = 0 by decide, zero_mul, if_pos rfl]
    exact isZero_zeroOf _

/-! ## Position reduction (40 R111) -/

/-- The exact remainder in units. -/
theorem val_sub_floor_eq_div (p : F32) (n : Nat) :
    val p - n * ⌊val p / n⌋ = ((units p % ((n * one149 : ℕ) : ℤ) : ℤ) : ℚ) / one149 := by
  have hfloor : ⌊val p / n⌋ = units p / ((n * one149 : ℕ) : ℤ) := by
    rw [val, div_div, mul_comm, ← Nat.cast_mul, Rat.floor_intCast_div_natCast]
  rw [hfloor, Int.emod_def, val, eq_div_iff one149_rat_pos.ne', sub_mul, div_mul_cancel₀ _ one149_rat_pos.ne']
  push_cast
  ring

/-- Integers up to `2^24` are values of finite patterns. -/
theorem exists_units_eq {n : Nat} (hn : n ≤ 2 ^ 24) : ∃ g : F32, isFinite g = true ∧ units g = n * one149 := by
  obtain hlt | rfl := hn.lt_or_eq
  · obtain ⟨hfin, hunits, -⟩ := i2f_spec hlt
    exact ⟨i2f n, hfin, hunits⟩
  · exact ⟨0x4B800000, by decide, by decide⟩

/-- The remainder of a non-negative position is representable, so it is not rounded. -/
theorem units_pmod_of_nonneg {p : F32} {n : Nat} (hp : isFinite p = true) (hn : 0 < n) (hn' : n ≤ 2 ^ 24)
    (h0 : 0 ≤ units p) : units (pmod p n) = units p % ((n * one149 : ℕ) : ℤ) := by
  obtain ⟨m, hm, hmag⟩ := exists_magOf_mod (magBits p) n ((isFinite_iff p).1 hp) hn' hn
  have hrem : units p % ((n * one149 : ℕ) : ℤ) = (magOf m : ℤ) := by
    rw [units_of_nonneg h0, hmag]
    norm_cast
  rw [pmod, hrem, rndq_exact hm one149_pos (by rw [Int.natAbs_natCast]), units_pattern _ _ (by omega),
    decide_eq_false (by omega)]
  rfl

/-- Settles O27: the remainder in units is rounded once, below the pattern of `n`, which is representable. -/
theorem pmodIsTheRoundedRemainder : Obligations.PmodIsTheRoundedRemainder := by
  intro p n hp hn hn'
  obtain ⟨g, hg, hunits⟩ := exists_units_eq hn'
  obtain ⟨hfin, hlo, hhi⟩ := pmod_le p n hn g hg hunits
  have hval : val g = n := by
    rw [val, hunits]
    push_cast
    exact mul_div_cancel_right₀ _ one149_rat_pos.ne'
  rw [val_sub_floor_eq_div p n, ← hval, FiniteIn, val_nonneg_iff, val_nonneg_iff, val_le_val, val_lt_val, hunits]
  refine ⟨rndqRoundsToNearestEven _ _ one149_pos, ⟨hfin, hlo, hhi⟩, fun h0 => ?_⟩
  rw [val, units_pmod_of_nonneg hp hn hn' h0, ← Nat.cast_mul]
  exact ⟨rfl, Int.emod_lt_of_pos _ (by exact_mod_cast Nat.mul_pos hn one149_pos)⟩

/-! ## Free values (40 R108, R112) -/

/-- Settles O28: the drawn pattern is checked to be a NaN, and the function chosen has the three properties. -/
theorem freeValuesKeepTheirProperties : Obligations.FreeValuesKeepTheirProperties :=
  ⟨isNaN_nanDraw, isSin2Pi_sin2pi⟩

end Sys2Proof.Machine
end

section
/-! SUPPORT. Correctly rounded results (40 R103): their sign and their bounds, and the operations on finite operands as
one rounding of the exact result. -/

namespace Sys2Proof.Machine

/-! ## What a rounded value is (40 R103) -/

theorem signBit_infOf (s : Bool) : signBit (infOf s) = s := by cases s <;> decide

/-- Rounding keeps the sign, in the overflow to an infinity too. -/
theorem RoundsTo.signBit_eq {q : ℚ} {f : F32} (h : RoundsTo q f) : signBit f = decide (q < 0) := by
  unfold RoundsTo at h
  split at h
  · rw [h, signBit_infOf]
  · exact h.2.1

theorem val_nonneg_of_signBit {a : F32} (h : signBit a = false) : 0 ≤ val a := by
  rw [val_nonneg_iff, units, if_neg (by rw [h]; nofun)]
  exact Int.natCast_nonneg _

theorem signBit_of_val_pos {a : F32} (h : 0 < val a) : signBit a = false := by
  rw [← val_zero, val_lt_val, show units 0x00000000 = 0 by decide] at h
  rw [signBit_of_units_ne_zero h.ne', decide_eq_false h.not_gt]

theorem RoundsTo.val_nonneg {q : ℚ} {f : F32} (h : RoundsTo q f) (hq : 0 ≤ q) : 0 ≤ val f :=
  val_nonneg_of_signBit (by rw [h.signBit_eq, decide_eq_false hq.not_gt])

/-- A finite value is its own rounding, so it is below the overflow threshold. -/
theorem abs_val_lt_overflowAt {a : F32} (ha : isFinite a = true) : |val a| < overflowAt := by
  have hlt := (isFinite_iff a).1 ha
  rw [← not_le, val, overflowAt_le_iff _ one149_pos, natAbs_units, roundMag_exact _ _ one149_pos hlt]
  exact hlt.ne

/-- Rounding does not leave an interval whose ends are representable, since each end is a candidate for the nearest. -/
theorem RoundsTo.finiteIn {q : ℚ} {f l g : F32} (h : RoundsTo q f) (hl : isFinite l = true) (hg : isFinite g = true)
    (hlo : val l ≤ q) (hhi : q ≤ val g) : FiniteIn (val l) (val g) f := by
  have hbelow : |q| < overflowAt :=
    (abs_le_max_abs_abs hlo hhi).trans_lt (max_lt (abs_val_lt_overflowAt hl) (abs_val_lt_overflowAt hg))
  rw [RoundsTo, if_neg hbelow.not_ge] at h
  obtain ⟨hfin, -, hnearest⟩ := h
  have hfrom_lo : |val f - q| ≤ q - val l := by
    rw [← abs_of_nonneg (sub_nonneg.2 hlo), abs_sub_comm q]
    exact (hnearest l hl).1
  have hfrom_hi : |val f - q| ≤ val g - q := by
    rw [← abs_of_nonneg (sub_nonneg.2 hhi)]
    exact (hnearest g hg).1
  exact ⟨hfin, by linarith [neg_abs_le (val f - q)], by linarith [le_abs_self (val f - q)]⟩

/-- A representable value is rounded to itself. -/
theorem RoundsTo.val_eq {q : ℚ} {f g : F32} (h : RoundsTo q f) (hg : isFinite g = true) (hq : val g = q) :
    isFinite f = true ∧ val f = q := by
  obtain ⟨hfin, hlo, hhi⟩ := h.finiteIn hg hg hq.le hq.ge
  exact ⟨hfin, (le_antisymm hhi hlo).trans hq⟩

theorem roundsTo_zero : RoundsTo 0 0x00000000 := by
  have h := rndqRoundsToNearestEven 0 1 one_pos
  rwa [Int.cast_zero, zero_div, show rndq 0 1 = 0x00000000 by decide] at h

/-! ## The operations on finite operands (40 R104 to R107) -/

/-- A sum is the exact one rounded once, unless it is a sum of two negative zeros. -/
theorem roundsTo_fadd (nan : F32) {a b : F32} (ha : isFinite a = true) (hb : isFinite b = true)
    (hsign : signBit a = false ∨ signBit b = false) : RoundsTo (val a + val b) (fadd nan a b) := by
  obtain ⟨-, -, -, -, -, hrounds, hzero⟩ := faddFollowsItsRule nan a b
  by_cases hq : val a + val b = 0
  · have hneg : ¬ (signBit a = true ∧ signBit b = true) := by
      rintro ⟨ha', hb'⟩
      rw [ha', hb'] at hsign
      exact absurd hsign (by decide)
    rw [hzero ha hb hq, if_neg hneg, hq]
    exact roundsTo_zero
  · exact hrounds ha hb hq

theorem signBit_fneg (a : F32) : signBit (fneg a) = !signBit a := by
  conv_lhs => rw [← pattern_eta a, fneg_pattern _ _ (magBits_lt a), signBit_pattern _ _ (magBits_lt a)]

theorem isFinite_fneg (a : F32) : isFinite (fneg a) = isFinite a := by
  rw [Bool.eq_iff_iff, isFinite_iff, isFinite_iff, magBits_fneg]

theorem val_fneg (a : F32) : val (fneg a) = -val a := by
  have hunits : units (fneg a) = -units a := by
    rw [units, units, signBit_fneg, magUnits_eq, magUnits_eq, magBits_fneg]
    cases signBit a <;> simp
  rw [val, val, hunits, Int.cast_neg, neg_div]

/-- A difference is the exact one rounded once, unless it takes a positive zero from a negative one. -/
theorem roundsTo_fsub (nan : F32) {a b : F32} (ha : isFinite a = true) (hb : isFinite b = true)
    (hsign : signBit a = false ∨ signBit b = true) : RoundsTo (val a - val b) (fsub nan a b) := by
  rw [fsub, if_neg (by rw [isNaN_of_isFinite hb]; nofun), sub_eq_add_neg, ← val_fneg]
  refine roundsTo_fadd nan ha (by rwa [isFinite_fneg]) (hsign.imp_right fun h => ?_)
  rw [signBit_fneg, h]
  rfl

/-- A product has the value of the exact one rounded once; only the sign of a zero product may differ. -/
theorem exists_roundsTo_fmul (nan : F32) {a b : F32} (ha : isFinite a = true) (hb : isFinite b = true) :
    ∃ h, RoundsTo (val a * val b) h ∧ val h = val (fmul nan a b) := by
  obtain ⟨-, -, -, -, -, hrounds, hzero⟩ := fmulFollowsItsRule nan a b
  by_cases hq : val a * val b = 0
  · refine ⟨0x00000000, hq ▸ roundsTo_zero, ?_⟩
    rw [hzero ha hb hq, val_inj, units_zeroOf]
    decide
  · exact ⟨_, (hrounds ha hb hq).1, rfl⟩

/-- Twice a magnitude below half the overflow bound is a magnitude. -/
theorem exists_magOf_double {m : Nat} (hm : m < 0x7F000000) : ∃ m' < 0x7F800000, magOf m' = 2 * magOf m := by
  by_cases hsub : m < 2 ^ 23
  · have hself := magOf_binade 0 m (.inl rfl) (by omega)
    have hdouble := magOf_binade 0 (2 * m) (.inl rfl) (by omega)
    rw [Nat.zero_mul, Nat.zero_add, pow_zero, Nat.mul_one] at hself hdouble
    exact ⟨2 * m, by omega, by rw [hself, hdouble]⟩
  · refine ⟨m + 2 ^ 23, by omega, ?_⟩
    have hbinade : (m + 2 ^ 23) / 2 ^ 23 - 1 = m / 2 ^ 23 - 1 + 1 := by omega
    have hsignificand : (m + 2 ^ 23) % 2 ^ 23 = m % 2 ^ 23 := by omega
    rw [magOf, magOf, if_neg (by omega), if_neg (by omega), hbinade, hsignificand, pow_succ]
    ring

/-- Twice a value of `[0, 1)` is the value of a pattern. -/
theorem exists_val_double {a : F32} (h0 : 0 ≤ val a) (h1 : val a < 1) :
    ∃ g : F32, isFinite g = true ∧ val g = 2 * val a := by
  have hunits := units_of_nonneg ((val_nonneg_iff a).1 h0)
  have hmag : magBits a < 0x3F800000 := by
    rw [← val_one, val_lt_val, units_one, hunits, ← magOf_one, Nat.cast_lt] at h1
    exact magOf_strictMono.lt_iff_lt.1 h1
  obtain ⟨m, hm, hdouble⟩ := exists_magOf_double (hmag.trans (by norm_num))
  refine ⟨pattern false m, ?_, ?_⟩
  · rwa [isFinite_iff, magBits_pattern _ _ (by omega)]
  · rw [val, val, units_pattern _ _ (by omega), if_neg nofun, hdouble, hunits]
    push_cast
    ring

/-- A comparison with a named pattern is one with the value it stands for. -/
theorem flt_iff_val_lt {a g : F32} {q : ℚ} (ha : isFinite a = true) (hg : isFinite g = true) (hq : val g = q) :
    flt a g = true ↔ val a < q := by
  rw [← hq]
  exact (comparisonsFollowTheOrder.1 a g ha hg).1

end Sys2Proof.Machine
end

section
/-! SUPPORT. The waveform generator (41): the value of each shape at a legal phase, and the commands `MOD` and `DLY`
that answer it. -/

namespace Sys2Proof.Machine

/-! ## The shapes (41 R131 to R134) -/

section Shapes
variable (k : NaNs) {p : F32}

/-- Half of `SIN2PI`, rounded, plus one half, rounded (41 R131). -/
theorem modulation_sine (hp : LegalPhase p) :
    ∃ h, RoundsTo (val (sin2pi p) / 2) h ∧ RoundsTo (1 / 2 + val h) (modulation k p .sine) := by
  have hhalf : Within 1 0x3F000000 := within_of_val val_half (by decide) (by norm_num)
  have hsine : Within 1 (sin2pi p) := within_of_finiteIn (isSin2Pi_sin2pi.1 p hp).1 (by norm_num) (by norm_num)
  have hscaled : Within 1 (fmul (k 0) 0x3F000000 (sin2pi p)) := within_fmul _ hhalf hsine (by norm_num)
  obtain ⟨h, hrounds, hval⟩ := exists_roundsTo_fmul (k 0) hhalf.1 hsine.1
  rw [val_half, one_div_mul_eq_div] at hrounds
  refine ⟨h, hrounds, ?_⟩
  rw [hval, ← val_half]
  exact roundsTo_fadd _ hhalf.1 hscaled.1 (.inl (by decide))

/-- Twice a phase is representable, so the triangle's product is exact (41 R132). -/
theorem fmul_two_phase (nan : F32) (hp : LegalPhase p) :
    isFinite (fmul nan 0x40000000 p) = true ∧ val (fmul nan 0x40000000 p) = 2 * val p := by
  obtain ⟨hfin, h0, h1⟩ := hp
  have hphase : Within 1 p := within_of_finiteIn ⟨hfin, h0, h1.le⟩ (by norm_num) (by norm_num)
  have htwo : Within 2 0x40000000 := within_of_val val_two (by decide) (by norm_num)
  obtain ⟨h, hrounds, hval⟩ := exists_roundsTo_fmul nan htwo.1 hfin
  obtain ⟨g, hg, hdouble⟩ := exists_val_double h0 h1
  rw [val_two] at hrounds
  exact ⟨(within_fmul (l := 2) _ htwo hphase (by norm_num)).1, hval ▸ (hrounds.val_eq hg hdouble).2⟩

/-- The triangle's slopes, each the exact value rounded once (41 R132). -/
theorem modulation_triangle (hp : LegalPhase p) :
    RoundsTo (if val p < 1 / 4 then 1 / 2 + 2 * val p
      else if val p < 3 / 4 then 3 / 2 - 2 * val p else 2 * val p - 3 / 2) (modulation k p .triangle) := by
  obtain ⟨hfin, hval⟩ := fmul_two_phase (k 0) hp
  dsimp only [modulation, modulationWith]
  simp only [flt_iff_val_lt hp.1 (by decide) val_quarter, flt_iff_val_lt hp.1 (by decide) val_three_quarters]
  rw [← hval, ← val_half, ← val_three_halves]
  split_ifs with hquarter hthree
  · exact roundsTo_fadd _ (by decide) hfin (.inl (by decide))
  · exact roundsTo_fsub _ (by decide) hfin (.inl (by decide))
  · exact roundsTo_fsub _ hfin (by decide) (.inl (signBit_of_val_pos (by linarith)))

/-- The two levels of the square (41 R133). -/
theorem modulation_square (hp : isFinite p = true) :
    modulation k p .square = if val p < 1 / 2 then 0x3F800000 else 0x00000000 := by
  simp only [modulation, modulationWith, flt_iff_val_lt hp (by decide) val_half]

/-- The sawtooth's two pieces, each the exact value rounded once (41 R134). -/
theorem modulation_sawtooth (hp : LegalPhase p) :
    RoundsTo (if val p < 1 / 2 then 1 / 2 + val p else val p - 1 / 2) (modulation k p .sawtooth) := by
  dsimp only [modulation, modulationWith]
  simp only [flt_iff_val_lt hp.1 (by decide) val_half]
  rw [← val_half]
  split_ifs with hhalf
  · exact roundsTo_fadd _ (by decide) hp.1 (.inl (by decide))
  · rw [val_half] at hhalf
    exact roundsTo_fsub _ hp.1 (by decide) (.inl (signBit_of_val_pos (by linarith)))

end Shapes

/-- A value of `[0, 1]` stays there when it is rounded. -/
theorem RoundsTo.finiteIn_unit {q : ℚ} {f : F32} (h : RoundsTo q f) (h0 : 0 ≤ q) (h1 : q ≤ 1) : FiniteIn 0 1 f := by
  have hin := h.finiteIn (l := 0x00000000) (g := 0x3F800000) (by decide) (by decide) (by rwa [val_zero])
    (by rwa [val_one])
  rwa [val_zero, val_one] at hin

/-- Settles O29: every shape is a rounding of an exact value in `[0, 1]`, and so is the half of the sine in
`[-1/2, 1/2]`. -/
theorem modulationIsBounded : Obligations.ModulationIsBounded := by
  intro k p shape hp
  have ⟨_, h0, h1⟩ := hp
  cases shape with
  | sine =>
    obtain ⟨h, hhalf, hrounds⟩ := modulation_sine k hp
    obtain ⟨-, hlo, hhi⟩ := (isSin2Pi_sin2pi.1 p hp).1
    have hneg : val 0xBF000000 = -(1 / 2) := (val_fneg 0x3F000000).trans (by rw [val_half])
    have hbounds := hhalf.finiteIn (l := 0xBF000000) (g := 0x3F000000) (by decide) (by decide)
      (by rw [hneg]; linarith) (by rw [val_half]; linarith)
    rw [hneg, val_half] at hbounds
    exact hrounds.finiteIn_unit (by linarith [hbounds.2.1]) (by linarith [hbounds.2.2])
  | triangle =>
    refine (modulation_triangle k hp).finiteIn_unit ?_ ?_
    all_goals split_ifs <;> linarith
  | square =>
    rw [modulation_square k hp.1]
    split_ifs
    · exact ⟨by decide, by rw [val_one]; norm_num, val_one.le⟩
    · exact ⟨by decide, val_zero.ge, by rw [val_zero]; norm_num⟩
  | sawtooth =>
    refine (modulation_sawtooth k hp).finiteIn_unit ?_ ?_
    all_goals split_ifs <;> linarith

/-! ## The command `MOD` (41 R137) -/

theorem exists_select {n : Nat} (h : n ≤ 3) : ∃ shape, Shape.select n = some shape := by
  interval_cases n <;> exact ⟨_, rfl⟩

theorem select_eq_none {n : Nat} (h : 3 < n) : Shape.select n = none := by
  obtain ⟨k, rfl⟩ := Nat.exists_eq_add_of_le' (Nat.succ_le_of_lt h)
  rfl

/-- `MOD` with legal operands answers the modulation. -/
theorem exec_mod_eq {s : State} {n : Byte} {p : F32} {shape : Shape} (hn : Shape.select n.toNat = some shape)
    (hp : LegalPhase p) :
    exec (.mod n p) s = .next (answeredState .ok (modulation (nanSource s) p shape) s) := by
  change execMod n p s = _
  simp only [execMod, hn, (legalPhase_iff p).2 hp, if_true, respond_eq]

theorem exec_mod_of_absent_shape {s : State} {n : Byte} {p : F32} (hn : Shape.select n.toNat = none) :
    exec (.mod n p) s = .next (refusedState .eSel s) := by
  change execMod n p s = _
  simp only [execMod, hn, raise_eq]

theorem exec_mod_of_illegal_phase {s : State} {n : Byte} {p : F32} {shape : Shape}
    (hn : Shape.select n.toNat = some shape) (hp : ¬ LegalPhase p) :
    exec (.mod n p) s = .next (refusedState .eVal s) := by
  change execMod n p s = _
  simp only [execMod, hn, legalPhase_iff, hp, if_false, raise_eq]

/-- Settles O30: the selector names one of the four shapes, whose value is answered. -/
theorem modAnswersTheWaveform : Obligations.ModAnswersTheWaveform := by
  intro s n p hn hp
  obtain ⟨shape, hshape⟩ := exists_select hn
  refine ⟨_, _, exec_mod_eq hshape hp, rfl, answered_ok rfl, fun h => ?_, fun h => ?_, fun h => ?_, fun h => ?_⟩
  all_goals
    rw [h] at hshape
    cases hshape
  · exact modulation_sine _ hp
  · exact modulation_triangle _ hp
  · exact modulation_square _ hp.1
  · exact modulation_sawtooth _ hp

/-- Settles O31: the selector is checked first, then the phase. -/
theorem modRefusesBadOperands : Obligations.ModRefusesBadOperands := by
  intro s n p
  refine ⟨fun hn => ?_, fun hn hp => ?_⟩
  · exact ⟨_, exec_mod_of_absent_shape (select_eq_none hn), refusedWith_refusedState ..⟩
  · obtain ⟨shape, hshape⟩ := exists_select hn
    exact ⟨_, exec_mod_of_illegal_phase hshape hp, refusedWith_refusedState ..⟩

/-! ## The command `DLY` (41 R138, R139) -/

theorem snapShape_eq {v : U32} {shape : Shape} (h : Shape.select v.toNat = some shape) : snapShape v = shape := by
  rw [snapShape, h, Option.getD_some]

/-- The delay is the base plus the swept modulation, each operation rounded once (41 R138). -/
theorem delaySamples_rounds {s : State} (hinv : Inv s) :
    ∃ h, RoundsTo (val s.snap.sweep * val (modulation (nanSource s) s.lfophase (snapShape s.snap.wave))) h ∧
      RoundsTo (val s.snap.base + val h) (delaySamples s) := by
  have hmod := modulationIsBounded (nanSource s) s.lfophase (snapShape s.snap.wave) hinv.phase
  have hswept : Within 8192 (fmul (nanSource s 2) s.snap.sweep
      (modulation (nanSource s) s.lfophase (snapShape s.snap.wave))) :=
    within_fmul (m := 8192) (n := 1) _ (within_of_finiteIn hinv.snap.sweep.1 (by norm_num) (by norm_num [Config.lmax]))
      (within_of_finiteIn hmod (by norm_num) (by norm_num)) (by norm_num)
  obtain ⟨h, hrounds, hval⟩ := exists_roundsTo_fmul (nanSource s 2) hinv.snap.sweep.1.1 hmod.1
  refine ⟨h, hrounds, ?_⟩
  rw [hval]
  exact roundsTo_fadd _ hinv.snap.base.1.1 hswept.1 (.inl hinv.snap.base.2)

/-- In an open block `DLY` answers the delay. -/
theorem exec_dly_eq {s : State} (hs : s.session = .block) :
    exec .dly s = .next (answeredState .ok (delaySamples s) s) := by
  change execDly s = _
  rw [execDly, if_pos hs, respond_eq]

/-- Settles O32: the shape of `S_WAVE` is the one `MOD` selects by the register's low byte, and a sum of values that
are not negative is not negative. -/
theorem dlyAnswersTheDelay : Obligations.DlyAnswersTheDelay := by
  intro s hinv hs
  obtain ⟨shape, hshape⟩ := exists_select hinv.snap.wave
  have hwave : (s.snap.wave.setWidth 8).toNat = s.snap.wave.toNat := by
    rw [BitVec.toNat_setWidth, Nat.mod_eq_of_lt (hinv.snap.wave.trans_lt (by norm_num))]
  obtain ⟨h, hswept, hsum⟩ := delaySamples_rounds hinv
  obtain ⟨-, hm0, -⟩ := modulationIsBounded (nanSource s) s.lfophase (snapShape s.snap.wave) hinv.phase
  have hh0 : 0 ≤ val h := hswept.val_nonneg (mul_nonneg hinv.snap.sweep.1.2.1 hm0)
  rw [snapShape_eq hshape] at hswept
  exact ⟨_, _, _, _, h, s.snap.wave.setWidth 8, exec_dly_eq hs, rfl, answered_ok rfl, hwave,
    exec_mod_eq (by rw [hwave, hshape]) hinv.phase, answered_ok rfl, hswept, hsum, (within_delaySamples hinv).1,
    hsum.val_nonneg (add_nonneg hinv.snap.base.1.2.1 hh0)⟩

end Sys2Proof.Machine
end

section
/-! SUPPORT. The delay line (42): the read position and its split as roundings of exact values, the slot a store sets,
and the commands `POS`, `DLW`, `DLR` and `DLA`. -/

namespace Sys2Proof.Machine

/-! ## The read position (42 R150) -/

theorem val_i2f {n : Nat} (hn : n < 2 ^ 24) : val (i2f n) = n := by
  obtain ⟨-, hunits, -⟩ := i2f_spec hn
  rw [val, hunits, Int.cast_mul, Int.cast_natCast, Int.cast_natCast, mul_div_cancel_right₀ _ one149_rat_pos.ne']

/-- Less a positive value the difference is the exact one rounded once: where it is zero both operands are positive. -/
theorem roundsTo_fsub_of_pos (nan : F32) {a b : F32} (ha : isFinite a = true) (hb : isFinite b = true)
    (hpos : 0 < val b) : RoundsTo (val a - val b) (fsub nan a b) := by
  by_cases ha0 : 0 < val a
  · exact roundsTo_fsub nan ha hb (.inl (signBit_of_val_pos ha0))
  · obtain ⟨-, -, -, -, -, hrounds, -⟩ := faddFollowsItsRule nan a (fneg b)
    rw [fnegAndFsubFollowTheirRule.2.1 nan a b (isNaN_of_isFinite hb), sub_eq_add_neg, ← val_fneg]
    exact hrounds ha (by rwa [isFinite_fneg]) (by rw [val_fneg]; linarith)

/-- The read position before its reduction: three operations, each the exact result rounded once (42 R150). -/
theorem rawPosition_rounds {s : State} (hinv : Inv s) (hs : s.session ≠ .unprep) :
    ∃ t1 t2, RoundsTo (s.widx.toNat - val (delaySamples s)) t1 ∧ RoundsTo (val t1 + s.prep.len.toNat) t2 ∧
      RoundsTo (val t2 - 3) (rawPosition s) := by
  obtain ⟨hwidx, hlen⟩ := cursor_bounds hinv hs
  obtain ⟨hcursor, -, hcursorSign⟩ := i2f_spec (n := s.widx.toNat) (by omega)
  obtain ⟨hline, -, hlineSign⟩ := i2f_spec (n := s.prep.len.toNat) (by omega)
  have hdelay := within_delaySamples hinv
  have ht1 : Within 49152 (fsub (nanSource s 4) (i2f s.widx.toNat) (delaySamples s)) :=
    within_fsub _ ((within_i2f (by omega)).mono (n := 8192) (by omega)) hdelay (by norm_num)
  have ht2 := within_fadd (l := 57344) (nanSource s 5) ht1 ((within_i2f (by omega)).mono hlen) (by norm_num)
  rw [← val_i2f (n := s.widx.toNat) (by omega), ← val_i2f (n := s.prep.len.toNat) (by omega), ← val_three]
  exact ⟨_, _, roundsTo_fsub (nanSource s 4) hcursor hdelay.1 (.inl hcursorSign),
    roundsTo_fadd (nanSource s 5) ht1.1 hline (.inr hlineSign),
    roundsTo_fsub_of_pos (nanSource s 6) ht2.1 (by decide) (by rw [val_three]; norm_num)⟩

/-- In a session a finite position is reduced modulo the line's length into `[0, LEN]`, rounded once (40 R111). -/
theorem pmod_len_rounds {s : State} (hinv : Inv s) (hs : s.session ≠ .unprep) {p : F32} (hp : isFinite p = true) :
    RoundsTo (val p - s.prep.len.toNat * ⌊val p / s.prep.len.toNat⌋) (pmod p s.prep.len.toNat) ∧
      FiniteIn 0 s.prep.len.toNat (pmod p s.prep.len.toNat) := by
  obtain ⟨hwidx, hlen⟩ := cursor_bounds hinv hs
  obtain ⟨hrounds, hrange, -⟩ := pmodIsTheRoundedRemainder p s.prep.len.toNat hp (by omega) (by omega)
  exact ⟨hrounds, hrange⟩

/-- In an open block `POS` answers the read position. -/
theorem exec_pos_eq {s : State} (hs : s.session = .block) :
    exec .pos s = .next (answeredState .ok (readPosition s) s) := by
  change execPos s = _
  rw [execPos, if_pos hs, respond_eq]

/-- Settles O33: the delay of `POS` is the one `DLY` answers from the same state. -/
theorem posAnswersTheReadPosition : Obligations.PosAnswersTheReadPosition := by
  intro s hinv hs
  have hsession : s.session ≠ .unprep := by rw [hs]; nofun
  obtain ⟨t1, t2, ht1, ht2, ht3⟩ := rawPosition_rounds hinv hsession
  obtain ⟨hreduced, hrange⟩ := pmod_len_rounds hinv hsession (within_rawPosition hinv hsession).1
  exact ⟨_, _, _, _, t1, t2, _, exec_pos_eq hs, rfl, answered_ok rfl, exec_dly_eq hs, answered_ok rfl,
    ht1, ht2, ht3, hreduced, hrange⟩

/-! ## Stores (42 R152, R153) -/

theorem inSession_eq_false {s : State} {c : Byte} (h : s.prep.nch.toNat ≤ c.toNat) : inSession s c = false :=
  decide_eq_false h.not_gt

theorem exec_dlw_eq {s : State} {c : Byte} (v : F32) (hs : s.session = .idle) (hc : inSession s c = true) :
    exec (.dlw c v) s = .next (answeredState .ok 0 (memWrite s c s.widx.toNat v)) := by
  change execDlw c v s = _
  rw [execDlw, if_neg (not_not.2 hs), if_pos hc, respond_eq]

theorem exec_dlw_of_absent_bank {s : State} {c : Byte} (v : F32) (hs : s.session = .idle)
    (hc : inSession s c = false) : exec (.dlw c v) s = .next (refusedState .eChan s) := by
  change execDlw c v s = _
  rw [execDlw, if_neg (not_not.2 hs), if_neg (by rw [hc]; nofun), raise_eq]

theorem exec_dlw_of_not_idle {s : State} (c : Byte) (v : F32) (hs : s.session ≠ .idle) :
    exec (.dlw c v) s = .next (refusedState .eState s) := if_pos hs

/-- A write keeps every slot but the one it is at. -/
theorem otherSlotsKept_memWrite (s : State) (c : Byte) (i : Int) (v : F32) :
    OtherSlotsKept s (memWrite s c i v) c.toNat (slotIndex s i) := by
  intro c' i' hc' hne
  rw [slot_memWrite s c i v c' i' hc', if_neg (not_and_or.2 hne)]

/-- Settles O34: the session is checked first, then the channel, and the store is one write at the cursor. -/
theorem dlwStoresAtTheWriteCursor : Obligations.DlwStoresAtTheWriteCursor := by
  intro s c v
  rw [← slotIndex_natCast]
  refine ⟨fun hs hc => ?_, fun hs hc => ?_, fun hs => ?_⟩
  · have hself := (slot_memWrite s c s.widx.toNat v c.toNat _ c.isLt).trans (if_pos ⟨rfl, rfl⟩)
    exact ⟨_, exec_dlw_eq v hs (decide_eq_true hc), rfl, answered_ok rfl, hself,
      otherSlotsKept_memWrite s c s.widx.toNat v⟩
  · exact ⟨_, exec_dlw_of_absent_bank v hs (inSession_eq_false hc), refusedWith_refusedState ..⟩
  · exact ⟨_, exec_dlw_of_not_idle c v hs, refusedWith_refusedState ..⟩

/-! ## The split of a position (42 R151) -/

theorem floorVal_eq_floor (a : F32) : floorVal a = ⌊val a⌋ := by
  rw [val, Rat.floor_intCast_div_natCast, floorVal]

/-- The fractional part is the remainder modulo 1. -/
theorem fracVal_eq_pmod_one (a : F32) : fracVal a = pmod a 1 := by
  rw [fracVal, pmod, one_mul]

/-- The fractional part of a value that is not negative is representable, so it is not rounded (40 R109). -/
theorem fracVal_rounds {a : F32} (ha : isFinite a = true) (h0 : 0 ≤ val a) :
    RoundsTo (Int.fract (val a)) (fracVal a) ∧ val (fracVal a) = Int.fract (val a) := by
  obtain ⟨hrounds, -, hexact⟩ := pmodIsTheRoundedRemainder a 1 ha le_rfl (by norm_num)
  have hfract : val a - (1 : ℕ) * ⌊val a / (1 : ℕ)⌋ = Int.fract (val a) := by
    rw [Nat.cast_one, one_mul, div_one, Int.fract]
  rw [fracVal_eq_pmod_one, ← hfract]
  exact ⟨hrounds, (hexact h0).1⟩

/-- The slot a position that is not negative stands on. -/
theorem splitIndex_eq (s : State) {pos : F32} (h0 : 0 ≤ val pos) :
    splitIndex s pos = ⌊val pos⌋.toNat % s.prep.len.toNat := by
  rw [splitIndex, floorVal_eq_floor, ← slotIndex_natCast, Int.toNat_of_nonneg (Int.floor_nonneg.2 h0)]

/-! ## Fractional reads (42 R155, R156) -/

theorem exists_select_mode {n : Nat} (h : n ≤ 2) : ∃ mode, Mode.select n = some mode := by
  interval_cases n <;> exact ⟨_, rfl⟩

theorem select_mode_eq_none {n : Nat} (h : 2 < n) : Mode.select n = none := by
  obtain ⟨k, rfl⟩ := Nat.exists_eq_add_of_le' (Nat.succ_le_of_lt h)
  rfl

/-- Settles O35: the reduced position is finite and not negative, so its split is exact. -/
theorem dlrAnswersTheInterpolation : Obligations.DlrAnswersTheInterpolation := by
  intro s c m p hinv hs hm hc hp
  obtain ⟨mode, hmode⟩ := exists_select_mode hm
  obtain ⟨hreduced, hfin, h0, -⟩ := pmod_len_rounds hinv hs hp
  obtain ⟨hrounds, hexact⟩ := fracVal_rounds hfin h0
  have hread : readAt s c (pmod p s.prep.len.toNat) mode = interpolate s c
      (⌊val (pmod p s.prep.len.toNat)⌋.toNat % s.prep.len.toNat) (fracVal (pmod p s.prep.len.toNat)) mode := by
    rw [readAt, splitIndex_eq s h0, splitFraction]
  refine ⟨_, _, _, _, mode, exec_dlr_eq hs hmode (decide_eq_true hc) hp, rfl, answered_ok rfl, hreduced, hrounds,
    hexact, fun h => ?_, fun h => ?_, fun h => ?_, hread⟩
  all_goals
    rw [h] at hmode
    exact (Option.some.inj hmode).symm

section Refusals
variable {s : State} {c m : Byte} {p : F32} (hs : s.session ≠ .unprep)
include hs

theorem exec_dlr_of_absent_mode (hm : Mode.select m.toNat = none) :
    exec (.dlr c m p) s = .next (refusedState .eSel s) := by
  change execDlr c m p s = _
  simp only [execDlr, if_neg hs, hm, raise_eq]

theorem exec_dlr_of_absent_bank {mode : Mode} (hm : Mode.select m.toNat = some mode) (hc : inSession s c = false) :
    exec (.dlr c m p) s = .next (refusedState .eChan s) := by
  change execDlr c m p s = _
  simp only [execDlr, if_neg hs, hm, hc, Bool.not_false, if_true, raise_eq]

theorem exec_dlr_of_not_finite {mode : Mode} (hm : Mode.select m.toNat = some mode) (hc : inSession s c = true)
    (hp : isFinite p = false) : exec (.dlr c m p) s = .next (refusedState .eVal s) := by
  change execDlr c m p s = _
  simp only [execDlr, if_neg hs, hm, hc, hp, Bool.not_true, Bool.not_false, Bool.false_eq_true, if_false, if_true,
    raise_eq]

end Refusals

/-- Settles O36: the mode is checked first, then the channel, then the position. -/
theorem dlrRefusesBadOperands : Obligations.DlrRefusesBadOperands := by
  intro s c m p hs
  refine ⟨fun hm => ?_, fun hm hc => ?_, fun hm hc hp => ?_⟩
  · exact ⟨_, exec_dlr_of_absent_mode hs (select_mode_eq_none hm), refusedWith_refusedState ..⟩
  · obtain ⟨mode, hmode⟩ := exists_select_mode hm
    exact ⟨_, exec_dlr_of_absent_bank hs hmode (inSession_eq_false hc), refusedWith_refusedState ..⟩
  · obtain ⟨mode, hmode⟩ := exists_select_mode hm
    exact ⟨_, exec_dlr_of_not_finite hs hmode (decide_eq_true hc) hp, refusedWith_refusedState ..⟩

/-! ## The write cursor (42 R158) -/

theorem exec_dla_eq {s : State} (hs : s.session = .idle) :
    exec .dla s = .next (answeredState .ok 0 { s with widx := nextIndex s }) := by
  change execDla s = _
  rw [execDla, if_neg (not_not.2 hs), respond_eq]

/-- Settles O37: the cursor after the last slot is the first one. -/
theorem dlaAdvancesTheCursor : Obligations.DlaAdvancesTheCursor := by
  intro s hs hlen
  refine ⟨_, exec_dla_eq hs, rfl, answered_ok rfl, (nextIndex_toNat s hlen).trans ?_⟩
  split
  case isTrue hlast => rw [hlast, Nat.mod_self]
  case isFalse => rfl

end Sys2Proof.Machine
end

section
/-! SUPPORT. The interpolator (43): the slots it reads and the NaN patterns it draws, the linear mode at fraction
`+0.0`, and every mode over silence. -/

namespace Sys2Proof.Machine

/-! ## The four neighbours and the patterns drawn (43 R171, 40 R108, R114) -/

/-- One behind the first slot is the last one. -/
theorem slotIndex_pred (s : State) (i : Nat) (h : 0 < s.prep.len.toNat) :
    slotIndex s ((i : Int) - 1) = (i + s.prep.len.toNat - 1) % s.prep.len.toNat := by
  have hcast : ((i + s.prep.len.toNat - 1 : ℕ) : ℤ) = i - 1 + s.prep.len.toNat := by omega
  rw [← slotIndex_natCast, hcast, slotIndex, slotIndex, Int.add_emod_right]

/-- A read ahead of a slot wraps at the end of the line. -/
theorem memRead_add (s : State) (c : Byte) (i n : Nat) :
    memRead s c ((i : Int) + n) = slot s c.toNat ((i + n) % s.prep.len.toNat) := by
  rw [memRead_eq_slot, ← Nat.cast_add, slotIndex_natCast]

/-- The neighbours are slots of the bank, their indices reduced modulo `LEN` without leaving the naturals. -/
theorem neighbours_eq_slots (s : State) (c : Byte) {i : Nat} (hi : i < s.prep.len.toNat) :
    neighbours s c i = {
      ym1 := slot s c.toNat ((i + s.prep.len.toNat - 1) % s.prep.len.toNat)
      y0 := slot s c.toNat i
      y1 := slot s c.toNat ((i + 1) % s.prep.len.toNat)
      y2 := slot s c.toNat ((i + 2) % s.prep.len.toNat) } := by
  have hbehind := slotIndex_pred s i (Nat.zero_lt_of_lt hi)
  have hself : slotIndex s i = i := by rw [slotIndex_natCast, Nat.mod_eq_of_lt hi]
  have hnext : memRead s c ((i : Int) + 1) = _ := memRead_add s c i 1
  have hsecond : memRead s c ((i : Int) + 2) = _ := memRead_add s c i 2
  rw [neighbours, hnext, hsecond, memRead_eq_slot, memRead_eq_slot, hbehind, hself]

/-- The NaN patterns a command of this state draws at the listed sites, counted from 0. -/
def drawnAt (s : State) (sites : List Nat) : NaNs := fun j => nanSource s (sites.getD j 0)

theorem isNaN_drawnAt (s : State) (sites : List Nat) (j : Nat) : isNaN (drawnAt s sites j) = true :=
  isNaN_nanDraw ..

/-- Settles O39: on the neighbours read as slots each mode is its formula by definition, and the sites listed are those
of the formula's operations, in the order in which the statement counts them. -/
theorem interpolationFollowsTheFormulas : Obligations.InterpolationFollowsTheFormulas := by
  intro s c i fr hi
  simp only [interpolate, neighbours_eq_slots s c hi]
  refine ⟨⟨drawnAt s [11, 8, 10, 9], isNaN_drawnAt s _, ?linear⟩,
    ⟨drawnAt s [9, 8, 12, 11, 10, 16, 15, 14, 13], isNaN_drawnAt s _, ?quadratic⟩,
    ⟨drawnAt s [9, 8, 15, 13, 11, 10, 12, 14, 20, 17, 16, 19, 18, 26, 25, 24, 23, 22, 21], isNaN_drawnAt s _,
      ?cubic⟩⟩
  case linear => rfl
  case quadratic => rfl
  case cubic => rfl

/-! ## Zero operands (40 R104 to R106) -/

/-- A sum of zeros is negative only where both are. -/
theorem fadd_zeroOf_zeroOf (nan : F32) (s t : Bool) : fadd nan (zeroOf s) (zeroOf t) = zeroOf (s && t) := by
  rw [fadd_finite nan _ _ (isFinite_zeroOf s) (isFinite_zeroOf t), units_zeroOf, units_zeroOf, if_pos (add_zero 0),
    signBit_zeroOf, signBit_zeroOf]

theorem fadd_zero_zero (nan : F32) : fadd nan 0x00000000 0x00000000 = 0x00000000 :=
  fadd_zeroOf_zeroOf nan false false

theorem fsub_zero_zero (nan : F32) : fsub nan 0x00000000 0x00000000 = 0x00000000 := by
  rw [fsub, if_neg (by decide)]
  exact fadd_zeroOf_zeroOf nan false true

/-- The product of `+0.0` with a finite pattern is the zero of that pattern's sign. -/
theorem fmul_zero_left (nan : F32) {a : F32} (ha : isFinite a = true) :
    fmul nan 0x00000000 a = zeroOf (signBit a) := by
  rw [fmul_finite nan _ _ (by decide) ha, show units 0x00000000 = 0 by decide, zero_mul, if_pos rfl,
    show signBit 0x00000000 = false by decide, Bool.false_xor]

/-- The product of `+0.0` with an infinity or a NaN is a NaN. -/
theorem fmul_zero_left_of_not_finite (nan : F32) {a : F32} (ha : isFinite a = false) :
    fmul nan 0x00000000 a = nan := by
  obtain hnan | hinf | hfin := kind_cases a
  · exact fmul_of_isNaN nan (.inr hnan)
  · rw [fmul_comm, fmul_inf nan hinf (by decide), if_pos (by decide)]
  · rw [ha] at hfin; cases hfin

/-- The product of `+0.0` with a finite pattern of positive sign is `+0.0`. -/
theorem fmul_zero_left_of_pos (nan : F32) {a : F32} (ha : isFinite a = true) (hs : signBit a = false) :
    fmul nan 0x00000000 a = 0x00000000 := by
  rw [fmul_zero_left nan ha, hs]
  rfl

theorem fmul_zero_right_of_pos (nan : F32) {a : F32} (ha : isFinite a = true) (hs : signBit a = false) :
    fmul nan a 0x00000000 = 0x00000000 := by
  rw [fmul_comm, fmul_zero_left_of_pos nan ha hs]

/-! ## Linear interpolation at fraction `+0.0` (43 R173) -/

/-- A slot that holds `-0.0` is added to the zero of the next slot's sign, and the sum keeps that sign. -/
theorem linear_at_integer_of_neg_zero (k : NaNs) (y : Neighbours) (hnext : isFinite y.y1 = true)
    (hzero : y.y0 = 0x80000000) : linear k y 0x00000000 = zeroOf (signBit y.y1) := by
  rw [linear, fsub_one_zero, fmul_zero_left _ hnext, hzero, fmul_one_left _ (by decide)]
  exact (fadd_zeroOf_zeroOf _ _ true).trans (by rw [Bool.and_true])

/-- A next slot that is not finite makes its product with the fraction a NaN, and the sum another. -/
theorem linear_at_integer_of_not_finite (k : NaNs) (hk : ∀ j, isNaN (k j) = true) (y : Neighbours)
    (hnext : isFinite y.y1 = false) : isNaN (linear k y 0x00000000) = true := by
  rw [linear, fmul_zero_left_of_not_finite _ hnext, fadd_of_isNaN _ (.inl (hk 8))]
  exact hk 11

/-- Settles O40: only a slot that holds `-0.0` can be changed by the zero that the next slot contributes. -/
theorem linearIsExactAtIntegers : Obligations.LinearIsExactAtIntegers := by
  refine fun draw y => ⟨fun hnext hnan => ?_,
    linear_at_integer_of_not_finite (nanDraw draw) (isNaN_nanDraw draw) y⟩
  by_cases hzero : y.y0 = 0x80000000
  · rw [linear_at_integer_of_neg_zero _ y hnext hzero]
    cases hsign : signBit y.y1 with
    | false => rw [if_pos ⟨hzero, rfl⟩]; rfl
    | true => rw [if_neg (by rintro ⟨-, h⟩; cases h), hzero]; rfl
  · rw [linear_at_integer _ y hnext hnan hzero, if_neg fun h => hzero h.1]

/-! ## Silence (43 R172, R174 to R176) -/

section Silence
variable (k : NaNs) {fr : F32} (hfin : isFinite fr = true) (hsign : signBit fr = false)
include hfin hsign

/-- The weight of the slot behind a legal fraction is not negative and at most 1 (43 R172). -/
theorem fsub_one_of_fraction (nan : F32) (hlt : val fr < 1) :
    isFinite (fsub nan 0x3F800000 fr) = true ∧ signBit (fsub nan 0x3F800000 fr) = false := by
  have hrounds := roundsTo_fsub nan (a := 0x3F800000) (by decide) hfin (.inl (by decide))
  have hfr := val_nonneg_of_signBit hsign
  rw [val_one] at hrounds
  refine ⟨?_, ?_⟩
  · exact (hrounds.finiteIn (l := 0x00000000) (g := 0x3F800000) (by decide) (by decide)
      (by rw [val_zero]; linarith) (by rw [val_one]; linarith)).1
  · rw [hrounds.signBit_eq, decide_eq_false (by linarith)]

theorem linear_silence (hlt : val fr < 1) : linear k ⟨0, 0, 0, 0⟩ fr = 0 := by
  obtain ⟨hweight, hweightSign⟩ := fsub_one_of_fraction hfin hsign (k 9) hlt
  rw [linear, fmul_zero_right_of_pos _ hfin hsign, fmul_zero_right_of_pos _ hweight hweightSign, fadd_zero_zero]

/-- Slope and curvature of silence are `+0.0`, so the parabola is. -/
theorem quadratic_silence : quadratic k ⟨0, 0, 0, 0⟩ fr = 0 := by
  have hhalf (nan : F32) : fmul nan 0x3F000000 0 = 0 := fmul_zero_right_of_pos nan (by decide) (by decide)
  simp only [quadratic, fsub_zero_zero, fadd_zero_zero, hhalf, fmul_zero_right_of_pos _ hfin hsign]

/-- All three coefficients of silence are `+0.0`, and so is each step of Horner's rule. -/
theorem cubic_silence : cubic k ⟨0, 0, 0, 0⟩ fr = 0 := by
  have hhalf (nan : F32) : fmul nan 0x3F000000 0 = 0 := fmul_zero_right_of_pos nan (by decide) (by decide)
  have hthreeHalves (nan : F32) : fmul nan 0x3FC00000 0 = 0 := fmul_zero_right_of_pos nan (by decide) (by decide)
  have htwo (nan : F32) : fmul nan 0x40000000 0 = 0 := fmul_zero_right_of_pos nan (by decide) (by decide)
  have hfiveHalves (nan : F32) : fmul nan 0x40200000 0 = 0 := fmul_zero_right_of_pos nan (by decide) (by decide)
  simp only [cubic, fsub_zero_zero, fadd_zero_zero, hhalf, hthreeHalves, htwo, hfiveHalves,
    fmul_zero_left_of_pos _ hfin hsign]

end Silence

/-- Settles O41: products and sums of `+0.0` with factors of positive sign stay `+0.0`; only the linear mode needs the
fraction below 1, for the sign of its weight. -/
theorem silenceInterpolatesToZero : Obligations.SilenceInterpolatesToZero := by
  intro k fr m hfin hsign hlt
  cases m with
  | linear => exact linear_silence k hfin hsign hlt
  | quadratic => exact quadratic_silence k hfin hsign
  | cubic => exact cubic_silence k hfin hsign

end Sys2Proof.Machine
end

section
/-! SUPPORT. The engine (44): what `BEG` latches, the sample path of `SMP` and its mixers, silence through it, and the
frames that `TCK` counts down to the end of a block. -/

namespace Sys2Proof.Machine

/-! ## The latched snapshot (10 R43, R44, 44 R186) -/

/-- A product over a constant divisor is rounded once. -/
theorem roundsTo_mul_div (a b : F32) {m : Nat} (hm : 0 < m) :
    RoundsTo (val a * val b / m) (rndq (units a * units b) (one149 * one149 * m)) := by
  rw [val_mul_eq_div, div_div, ← Nat.cast_mul]
  exact rndqRoundsToNearestEven _ _ (Nat.mul_pos (Nat.mul_pos one149_pos one149_pos) hm)

theorem baseSamples_rounds (delayms fs : F32) :
    RoundsTo (val delayms * val fs / 1000) (baseSamples delayms fs) :=
  roundsTo_mul_div delayms fs (m := 1000) (by norm_num)

theorem sweepSamples_rounds (sweep fs : F32) : RoundsTo (val sweep * val fs / 200) (sweepSamples sweep fs) :=
  roundsTo_mul_div sweep fs (m := 200) (by norm_num)

/-- The fraction of a quotient of values is the remainder of their units over the divisor's. -/
theorem fract_val_div_val (a : F32) {b : F32} (hb : 0 < units b) :
    Int.fract (val a / val b) = ((units a % units b : ℤ) : ℚ) / (units b).toNat := by
  obtain ⟨n, hn⟩ := Int.eq_ofNat_of_zero_le hb.le
  rw [val, val, div_div_div_cancel_right₀ one149_rat_pos.ne', hn, Int.cast_natCast, Int.toNat_natCast,
    Int.fract_div_intCast_eq_div_intCast_mod]

theorem phaseIncrement_rounds (speed : F32) {fs : F32} (hfs : 0 < units fs) :
    RoundsTo (Int.fract (val speed / val fs)) (phaseIncrement speed fs) := by
  rw [fract_val_div_val speed hfs]
  exact rndqRoundsToNearestEven _ _ (by omega)

/-! ## The command `BEG` (44 R185, R187) -/

/-- The state `BEG` leaves in IDLE, but for its response. -/
def begunState (s : State) (n : U32) : State :=
  { s with snap := latchSnapshot s, blkrem := n, session := if n = 0 then .idle else .block }

theorem exec_beg_eq {s : State} {n : U32} (hs : s.session = .idle) (hn : n.toNat ≤ s.prep.maxblk.toNat) :
    exec (.beg n) s = .next (answeredState .ok 0 (begunState s n)) := by
  change execBeg n s = _
  rw [execBeg, if_neg (not_not.2 hs), if_neg hn.not_gt, respond_eq, begunState]

theorem exec_beg_of_long {s : State} {n : U32} (hs : s.session = .idle) (hn : s.prep.maxblk.toNat < n.toNat) :
    exec (.beg n) s = .next (refusedState .eLen s) := by
  change execBeg n s = _
  rw [execBeg, if_neg (not_not.2 hs), if_pos hn, raise_eq]

/-- The commands test a register against 0, and the statements its number. -/
theorem eq_zero_iff_toNat (n : U32) : n = 0 ↔ n.toNat = 0 := BitVec.toNat_eq

/-- Settles O42: in a session the prepared rate is positive, so each of the three quotients is rounded from its exact
value. -/
theorem begLatchesTheSnapshot : Obligations.BegLatchesTheSnapshot := by
  intro s n hinv hs hn
  obtain ⟨hprep, -, -⟩ := hinv.prepared (by rw [hs]; nofun)
  obtain ⟨hrate, -⟩ := prepared_rate_bound hprep
  have hsession : (begunState s n).session = if 0 < n.toNat then .block else .idle := by
    simp only [begunState, eq_zero_iff_toNat, Nat.pos_iff_ne_zero, ite_not]
  exact ⟨_, exec_beg_eq hs hn, answered_ok rfl, rfl, hsession, baseSamples_rounds .., sweepSamples_rounds ..,
    phaseIncrement_rounds _ hrate, rfl, rfl, rfl, rfl, rfl⟩

/-- Settles O43: the count is checked once the session is known to be idle. -/
theorem begRefusesALongBlock : Obligations.BegRefusesALongBlock := fun s _ hs hn =>
  ⟨_, exec_beg_of_long hs hn, refusedWith_refusedState .eLen s⟩

/-! ## The wet sample (44 R190, R192) -/

theorem snapMode_eq {v : U32} {mode : Mode} (h : Mode.select v.toNat = some mode) : snapMode v = mode := by
  rw [snapMode, h, Option.getD_some]

/-- A read at a position that is not negative interpolates at its integer and fractional parts (42 R151). -/
theorem readAt_eq (s : State) (c : Byte) {pos : F32} (mode : Mode) (h0 : 0 ≤ val pos) :
    readAt s c pos mode = interpolate s c (⌊val pos⌋.toNat % s.prep.len.toNat) (fracVal pos) mode := by
  rw [readAt, splitIndex_eq s h0, splitFraction]

/-- In a session the read position lies on the line (42 R150). -/
theorem readPosition_finiteIn {s : State} (hinv : Inv s) (hs : s.session ≠ .unprep) :
    FiniteIn 0 s.prep.len.toNat (readPosition s) :=
  (pmod_len_rounds hinv hs (within_rawPosition hinv hs).1).2

/-! ## The command `SMP` (44 R191, R193, R194) -/

/-- Every slot but the one at the cursor is kept. -/
theorem otherSlotsKept_sampledState (s : State) (c : Byte) (x : F32) :
    OtherSlotsKept s (sampledState s c x) c.toNat (s.widx.toNat % s.prep.len.toNat) := by
  intro b i hb hne
  rw [slot_sampledState s c x i hb, slotIndex_natCast, if_neg fun h => not_and_or.2 hne h.2]

section Sample
variable {s : State} {c : Byte}

theorem sampleResponse_of_absent (hc : inSession s c = false) (x : F32) : sampleResponse s c x = 0 := by
  rw [sampleResponse, if_neg (by rw [hc]; nofun)]

theorem sampledState_of_absent (hc : inSession s c = false) (x : F32) :
    sampledState s c x = answeredState .ok 0 s := by
  rw [sampledState, sampleResponse_of_absent hc, sampleMem, if_neg (by rw [hc]; nofun)]
  rfl

variable (hc : inSession s c = true) (x : F32)
include hc

theorem sampleResponse_of_present : sampleResponse s c x = outputMix s x (wetSample s c) := if_pos hc

/-- The feedback sum goes to the slot at the cursor. -/
theorem slot_sampledState_cursor :
    slot (sampledState s c x) c.toNat (s.widx.toNat % s.prep.len.toNat) = storedSample s x (wetSample s c) := by
  rw [slot_sampledState s c x _ c.isLt, if_pos ⟨hc, rfl, (slotIndex_natCast s s.widx.toNat).symm⟩]

end Sample

/-- Settles O45: a channel without a bank leaves the memory alone. -/
theorem smpBeyondTheSessionIsSilent : Obligations.SmpBeyondTheSessionIsSilent := by
  intro s c x hs hc
  refine ⟨_, exec_smp_of_block hs c x, ?_⟩
  rw [sampledState_of_absent (inSession_eq_false hc)]
  exact ⟨rfl, answered_ok rfl⟩

/-- The patterns drawn by the two products and the two sums of the mixers, in the order in which the statements count
them. -/
def mixerNaNs (s : State) : NaNs := drawnAt s [31, 30, 33, 32]

theorem storedSample_eq (s : State) (x wet : F32) :
    storedSample s x wet = fadd (mixerNaNs s 0) x (fmul (mixerNaNs s 1) s.snap.fb wet) := rfl

theorem outputMix_eq (s : State) (x wet : F32) :
    outputMix s x wet = if s.snap.inv.toNat = 0 then fadd (mixerNaNs s 2) x (fmul (mixerNaNs s 3) s.snap.mix wet)
      else fsub (mixerNaNs s 2) x (fmul (mixerNaNs s 3) s.snap.mix wet) := by
  simp only [outputMix, eq_zero_iff_toNat]
  rfl

/-- Settles O44: the position is finite and not negative, so its split is exact, and the mode is the one `S_INTERP`
selects. -/
theorem smpMixesAndStores : Obligations.SmpMixesAndStores := by
  intro s c x hinv hs hnch
  have hsession : s.session ≠ .unprep := by rw [hs]; nofun
  have hc : inSession s c = true := decide_eq_true hnch
  obtain ⟨hwidx, -⟩ := cursor_bounds hinv hsession
  obtain ⟨hfin, h0, -⟩ := readPosition_finiteIn hinv hsession
  obtain ⟨hrounds, hexact⟩ := fracVal_rounds hfin h0
  obtain ⟨mode, hmode⟩ := exists_select_mode hinv.snap.interp
  have hwet : wetSample s c = _ := readAt_eq s c _ h0
  have hself := slot_sampledState_cursor hc x
  have hothers := otherSlotsKept_sampledState s c x
  rw [snapMode_eq hmode] at hwet
  rw [Nat.mod_eq_of_lt hwidx] at hself hothers
  refine ⟨_, _, _, _, _, wetSample s c, mode, mixerNaNs s, isNaN_drawnAt s _, exec_smp_of_block hs c x, rfl,
    answered_sampledState s c x, exec_pos_eq hs, answered_ok rfl, hrounds, hexact, fun h => ?_, fun h => ?_,
    fun h => ?_, hwet, hself, hothers, (sampleResponse_of_present hc x).trans (outputMix_eq s x _)⟩
  all_goals
    rw [h] at hmode
    exact (Option.some.inj hmode).symm

/-! ## Inversion (44 R196) -/

/-- `s` with the sign of its wet contribution inverted. -/
def inverted (s : State) : State := { s with snap := { s.snap with inv := 1 } }

theorem inverted_inv (s : State) : (inverted s).snap.inv.toNat = 1 := rfl

/-- Only the output mix reads `S_INV`. -/
theorem inverted_reads (s : State) (c : Byte) (x : F32) :
    wetSample (inverted s) c = wetSample s c ∧ sampleMem (inverted s) c x = sampleMem s c x :=
  ⟨rfl, rfl⟩

/-- Settles O47: the two samples draw the same NaN patterns, since neither the memory nor the port differs. -/
theorem inversionOnlyFlipsTheWetSign : Obligations.InversionOnlyFlipsTheWetSign := by
  intro s t u c x hs hnch hinv ht hu
  have hc : inSession s c = true := decide_eq_true hnch
  rw [exec_smp_of_block hs] at ht
  rw [exec_smp_of_block (by exact hs)] at hu
  cases ht; cases hu
  obtain ⟨hwet, hmem⟩ := inverted_reads s c x
  have hplus : sampleResponse s c x = _ := (sampleResponse_of_present hc x).trans (outputMix_eq s x _)
  have hminus : sampleResponse (inverted s) c x = _ :=
    (sampleResponse_of_present (s := inverted s) hc x).trans (outputMix_eq (inverted s) x _)
  rw [if_pos (by rw [hinv]; rfl)] at hplus
  rw [if_neg (by rw [inverted_inv]; nofun), hwet] at hminus
  refine ⟨hmem, wetSample s c, mixerNaNs s, isNaN_drawnAt s _, slot_sampledState_cursor hc x, ?_, ?_⟩
  · rw [← hplus]; exact answered_sampledState s c x
  · exact hminus ▸ answered_sampledState (inverted s) c x

/-! ## Silence (44 R189) -/

/-- A bank that holds `+0.0` in every slot of the line gives a wet sample of `+0.0`. -/
theorem wetSample_of_silence {s : State} {c : Byte} (hinv : Inv s) (hs : s.session ≠ .unprep)
    (hsilent : ∀ i, i < s.prep.len.toNat → slot s c.toNat i = 0) : wetSample s c = 0 := by
  have hlen := prepared_len_pos (hinv.prepared hs).1
  obtain ⟨hfin, h0, -⟩ := readPosition_finiteIn hinv hs
  obtain ⟨hfr, -, hsign⟩ := fracVal_spec (readPosition s) hfin (units_nonneg_of_val h0)
  obtain ⟨-, -, hlt⟩ := legalPhase_fracVal (readPosition s) hfin (units_nonneg_of_val h0)
  have hneighbours (i : Nat) : neighbours s c (i % s.prep.len.toNat) = ⟨0, 0, 0, 0⟩ := by
    have hi := Nat.mod_lt i hlen
    rw [neighbours_eq_slots s c hi, hsilent _ hi, hsilent _ (Nat.mod_lt _ hlen), hsilent _ (Nat.mod_lt _ hlen),
      hsilent _ (Nat.mod_lt _ hlen)]
  rw [wetSample, readAt_eq s c _ h0, interpolate, hneighbours]
  exact silenceInterpolatesToZero _ _ _ hfr hsign hlt

section ZeroOperand
variable (nan : F32) (b : Bool) {x : F32} (hx : isNaN x = false) (hne : x ≠ 0x80000000)
include hx hne

theorem fadd_zeroOf_right : fadd nan x (zeroOf b) = x := by
  rw [fadd_comm, fadd_zeroOf_left nan b hx hne]

theorem fsub_zeroOf_right : fsub nan x (zeroOf b) = x := by
  have hneg : fneg (zeroOf b) = zeroOf (!b) := by cases b <;> decide
  rw [fsub, if_neg (by cases b <;> decide), hneg, fadd_zeroOf_right nan _ hx hne]

end ZeroOperand

/-- A silent wet sample is scaled to a zero of the coefficient's sign. -/
theorem fmul_silence (nan : F32) {a : F32} (ha : isFinite a = true) : fmul nan a 0 = zeroOf (signBit a) := by
  rw [fmul_comm, fmul_zero_left nan ha]

section Mixers
variable {s : State} (hinv : Inv s) {x : F32} (hx : isNaN x = false) (hne : x ≠ 0x80000000)
include hinv hx hne

theorem storedSample_of_silence : storedSample s x 0 = x := by
  rw [storedSample_eq, fmul_silence _ hinv.snap.fb.1, fadd_zeroOf_right _ _ hx hne]

theorem outputMix_of_silence : outputMix s x 0 = x := by
  rw [outputMix_eq, fmul_silence _ hinv.snap.mix.1, fadd_zeroOf_right _ _ hx hne, fsub_zeroOf_right _ _ hx hne,
    ite_self]

end Mixers

/-- Settles O46: over silence the wet sample is `+0.0`, and both mixers add to the sample a zero of some sign. -/
theorem silentBankPassesTheSampleThrough : Obligations.SilentBankPassesTheSampleThrough := by
  intro s t c x hinv hs hnch hsilent hfin hzero ht
  have hsession : s.session ≠ .unprep := by rw [hs]; nofun
  have hc : inSession s c = true := decide_eq_true hnch
  have hnan := isNaN_of_isFinite hfin
  have hne : x ≠ 0x80000000 := by rintro rfl; exact absurd hzero (by decide)
  obtain ⟨hwidx, -⟩ := cursor_bounds hinv hsession
  have hwet := wetSample_of_silence hinv hsession hsilent
  have hself := slot_sampledState_cursor hc x
  have hanswer := answered_sampledState s c x
  rw [Nat.mod_eq_of_lt hwidx, hwet, storedSample_of_silence hinv hnan hne] at hself
  rw [sampleResponse_of_present hc, hwet, outputMix_of_silence hinv hnan hne] at hanswer
  rw [exec_smp_of_block hs] at ht
  cases ht
  exact ⟨hself, hanswer⟩

/-! ## The command `TCK` (44 R197, 41 R141) -/

/-- The state `TCK` leaves in an open block, but for its response. -/
def tickedState (s : State) : State :=
  { s with
    widx := nextIndex s
    lfophase := phaseNext (nanSource s) s.lfophase s.snap.inc
    blkrem := s.blkrem - 1
    session := if s.blkrem - 1 = 0 then .idle else .block }

theorem exec_tck_eq {s : State} (hs : s.session = .block) :
    exec .tck s = .next (answeredState .ok 0 (tickedState s)) := by
  change execTck s = _
  rw [execTck, if_neg (not_not.2 hs), respond_eq, tickedState]

/-- An open block has a frame to count, so the count does not wrap. -/
theorem tickedState_blkrem {s : State} (hinv : Inv s) (hs : s.session = .block) :
    (tickedState s).blkrem.toNat + 1 = s.blkrem.toNat := by
  have hopen : 0 < s.blkrem.toNat := hinv.block_iff.1 hs
  change (s.blkrem - 1).toNat + 1 = _
  bv_omega

theorem tickedState_session (s : State) :
    (tickedState s).session = if (tickedState s).blkrem.toNat = 0 then .idle else .block := by
  simp only [tickedState, eq_zero_iff_toNat]

/-- The cursor after the last slot is the first one. -/
theorem nextIndex_toNat_of_lt {s : State} (hwidx : s.widx.toNat < s.prep.len.toNat) :
    (nextIndex s).toNat = if s.widx.toNat + 1 = s.prep.len.toNat then 0 else s.widx.toNat + 1 := by
  rw [nextIndex_toNat s (by omega)]
  split
  case isTrue hlast => rw [hlast, Nat.mod_self]
  case isFalse hinner => exact Nat.mod_eq_of_lt (by omega)

/-- A sum has the value of the exact one rounded once; only the sign of a zero sum may differ. -/
theorem exists_roundsTo_fadd (nan : F32) {a b : F32} (ha : isFinite a = true) (hb : isFinite b = true) :
    ∃ v, RoundsTo (val a + val b) v ∧ val v = val (fadd nan a b) := by
  obtain ⟨-, -, -, -, -, hrounds, hzero⟩ := faddFollowsItsRule nan a b
  by_cases hq : val a + val b = 0
  · refine ⟨0x00000000, hq ▸ roundsTo_zero, ?_⟩
    rw [fadd_finite nan a b ha hb, if_pos ((val_add_eq_zero_iff a b).1 hq), val_inj, units_zeroOf]
    decide
  · exact ⟨_, hrounds ha hb hq, rfl⟩

/-- The next phase is the exact fraction of the rounded sum (41 R141). -/
theorem phaseNext_rounds (k : NaNs) {p inc : F32} (hp : LegalPhase p) (hinc : FiniteIn 0 1 inc) :
    ∃ v, RoundsTo (val p + val inc) v ∧ RoundsTo (Int.fract (val v)) (phaseNext k p inc) ∧
      val (phaseNext k p inc) = Int.fract (val v) := by
  obtain ⟨v, hsum, hval⟩ := exists_roundsTo_fadd (k 0) hp.1 hinc.1
  obtain ⟨hfin, h0⟩ := fadd_phase (k 0) p inc hp hinc
  refine ⟨v, hsum, ?_⟩
  rw [hval]
  exact fracVal_rounds hfin ((val_nonneg_iff _).2 h0)

/-- Settles O49: the cursor, the phase and the count each advance as their rules say. A sum of two negative zeros is
`-0.0`, so the statement's `v` is `+0.0` there, and the fraction is the same. -/
theorem tckEndsTheFrame : Obligations.TckEndsTheFrame := by
  intro s hinv hs
  obtain ⟨hwidx, -⟩ := cursor_bounds hinv (by rw [hs]; nofun)
  obtain ⟨v, hsum, hrounds, hexact⟩ := phaseNext_rounds (nanSource s) hinv.phase hinv.snap.inc
  exact ⟨_, v, exec_tck_eq hs, answered_ok rfl, rfl, nextIndex_toNat_of_lt hwidx, tickedState_blkrem hinv hs,
    tickedState_session s, hsum, hrounds, hexact, legalPhase_phaseNext _ _ _ hinv.phase hinv.snap.inc⟩

/-! ## The end of a block (44 R188) -/

/-- What `n` ticks that close a block leave of it (44 R188): the cursor moved on, the memory, the snapshot and `ERR`
kept, and no word pending. -/
structure ClosedAfter (n : Nat) (s t : State) : Prop where
  session : t.session = .idle
  blkrem : t.blkrem = 0
  pending : t.io.pending = []
  widx : t.widx.toNat = (s.widx.toNat + n) % s.prep.len.toNat
  dm : t.dm = s.dm
  snap : t.snap = s.snap
  err : t.err = s.err

/-- A session with no frame left is closed already. -/
theorem closedAfter_zero {s : State} (hinv : Inv s) (hs : s.session ≠ .unprep) (hrem : s.blkrem.toNat = 0)
    (hpending : s.io.pending = []) : ClosedAfter 0 s s where
  session := by
    have hclosed : s.session ≠ .block := fun h => by have := hinv.block_iff.1 h; omega
    cases hsession : s.session with
    | unprep => exact absurd hsession hs
    | idle => rfl
    | block => exact absurd hsession hclosed
  blkrem := (eq_zero_iff_toNat _).2 hrem
  pending := hpending
  widx := (Nat.mod_eq_of_lt (cursor_bounds hinv hs).1).symm
  dm := rfl
  snap := rfl
  err := rfl

/-- The state a step leaves when the word it takes is a `TCK` and the words `rest` stay pending. -/
def tickStep (s : State) (rest : List Word64) : State :=
  answeredState .ok 0 (tickedState { s with io := { s.io with pending := rest } })

theorem step_tick {s : State} {rest : List Word64} (hs : s.session = .block)
    (hpending : s.io.pending = 0x2200000000000000 :: rest) : step s = .next (tickStep s rest) := by
  rw [stepRunsTheDecodedInstruction s _ rest .tck hpending (by decide), exec_tck_eq (by exact hs), tickStep]

/-- One tick before `n` ticks is `n + 1` ticks. -/
theorem ClosedAfter.of_tick {n : Nat} {s t : State} {rest : List Word64} (h : ClosedAfter n (tickStep s rest) t)
    (hlen : 0 < s.prep.len.toNat) : ClosedAfter (n + 1) s t where
  session := h.session
  blkrem := h.blkrem
  pending := h.pending
  widx := by
    have hnext : (tickStep s rest).widx.toNat = (s.widx.toNat + 1) % s.prep.len.toNat :=
      nextIndex_toNat s hlen
    rw [h.widx, hnext, show (tickStep s rest).prep = s.prep from rfl, Nat.mod_add_mod, add_right_comm,
      add_assoc]
  dm := h.dm
  snap := h.snap
  err := h.err

/-- A run of one step more is a run from the state that step leaves. -/
theorem run_succ (M : Host.Core) {s t : M.State} (n : Nat) (h : M.step s = .next t) :
    M.run (n + 1) s = M.run n t := by
  rw [Host.Core.run, h]

/-- A session with as many frames left as ticks pending is closed by them. A session whose count is 0 is included, so
that the last tick is a case of the induction like the others. -/
theorem run_ticks_closes (n : Nat) : ∀ s : State, Inv s → s.session ≠ .unprep → s.blkrem.toNat = n →
    s.io.pending = List.replicate n 0x2200000000000000 →
    ∃ t : State, Sys2Proof.core.run n s = .next t ∧ ClosedAfter n s t := by
  induction n with
  | zero => exact fun s hinv hs hrem hpending => ⟨s, rfl, closedAfter_zero hinv hs hrem hpending⟩
  | succ n ih =>
    intro s hinv hs hrem hpending
    have hblock : s.session = .block := hinv.block_iff.2 (by omega)
    have hstep := step_tick hblock hpending
    have hcount : (tickStep s (List.replicate n 0x2200000000000000)).blkrem.toNat + 1 = s.blkrem.toNat :=
      tickedState_blkrem (inv_with_io hinv _) hblock
    obtain ⟨t, hrun, hclosed⟩ := ih _ (everyStepKeepsTheInvariants _ _ hinv hstep) (ite_ne_unprep _) (by omega) rfl
    exact ⟨t, (run_succ Sys2Proof.core n hstep).trans hrun, hclosed.of_tick (prepared_len_pos (hinv.prepared hs).1)⟩

/-- Settles O50, by induction on the number of ticks. -/
theorem theBlockClosesAfterItsTicks : Obligations.TheBlockClosesAfterItsTicks := by
  intro n s hinv hs hrem hpending
  obtain ⟨t, hrun, h⟩ := run_ticks_closes n s hinv (by rw [hs]; nofun) hrem hpending
  exact ⟨t, hrun, h.session, h.blkrem, h.pending, h.widx, h.dm, h.snap, h.err⟩

end Sys2Proof.Machine
end

section
/-! SUPPORT. The configuration surface and the session (45): what `NOP`, `WRP`, `RDP`, `PREP`, `REL` and `CLR` do, and
the session table of R230. -/

namespace Sys2Proof.Machine

/-! ## The session table (45 R230) -/

/-- The session is checked before everything else a command checks, so a command that is not permitted in the session is
refused with `E_STATE` whatever its operands are. -/
theorem exec_of_not_permitted : ∀ {i : Instr} {s : State}, permitted i s.session = false →
    exec i s = .next (refusedState .eState s)
  | .prep, _, h => if_pos (bne_eq_false_iff_eq.1 h)
  | .clr, _, h | .beg _, _, h | .dlw _ _, _, h | .dla, _, h | .smp _ _, _, h | .tck, _, h =>
    if_pos (beq_eq_false_iff_ne.1 h)
  | .dly, _, h | .pos, _, h => if_neg (beq_eq_false_iff_ne.1 h)
  | .dlr _ _ _, _, h => if_pos (bne_eq_false_iff_eq.1 h)

/-- A command that answers with status 0 was permitted. -/
theorem permitted_of_answered_zero {i : Instr} {s t : State} {d : U32} (hx : exec i s = .next t)
    (hd : Answered s t 0 d) : permitted i s.session = true := by
  by_contra hnot
  rw [exec_of_not_permitted (Bool.eq_false_of_not_eq_true hnot)] at hx
  cases hx
  exact not_answered_zero_refusedState (e := .eState) nofun s d hd

/-- The count of an open block reaches 0 from 1. -/
theorem sub_one_eq_zero_iff (n : U32) : n - 1 = 0 ↔ n.toNat = 1 := by
  bv_omega

/-- A command that completes leaves the session of the table. -/
theorem Effect.session_eq {s u : State} {i : Instr} (h : Effect s i u) : u.session = sessionAfter i s := by
  cases h with
  | wrp => exact writeReg_session ..
  | beg => simp only [sessionAfter, eq_zero_iff_toNat]
  | tck => simp only [sessionAfter, sub_one_eq_zero_iff]
  | _ => rfl

/-- A command that completes has answered with the status 0, and with no other. -/
theorem Effect.status_eq_zero {s u : State} {i : Instr} {d e : U32} {k : Nat} (h : Effect s i u)
    (hk : Answered s (answeredState .ok d u) k e) : k = 0 :=
  have hio : (answeredState .ok d u).io = s.io.answer .ok d := congrArg (Port.answer · .ok d) h.io_eq
  ((answered_iff hio k e).1 hk).1

/-- Settles O13: a refusal keeps the session, and the effect of each command leaves the table's. -/
theorem sessionStateFollowsTheTable : Obligations.SessionStateFollowsTheTable := by
  refine ⟨rfl, fun i s => ⟨fun hnot => ?_, fun t hx => ⟨fun ⟨d, hd⟩ => ?_, fun ⟨k, hk, hans⟩ => ?_⟩⟩⟩
  · exact ⟨_, exec_of_not_permitted hnot, refusedWith_refusedState ..⟩
  · refine ⟨permitted_of_answered_zero hx hd, ?_⟩
    cases exec_ends hx with
    | refused he => exact absurd hd (not_answered_zero_refusedState he s d)
    | done h => exact h.session_eq
  · cases exec_ends hx with
    | refused => rfl
    | done h => exact absurd (h.status_eq_zero hans) hk

/-! ## The command `NOP` (45 R210) -/

/-- Settles O51: the answer is the only change. -/
theorem nopDoesNothing : Obligations.NopDoesNothing := fun s =>
  ⟨answeredState .ok 0 s, rfl, rfl, answered_ok rfl⟩

/-! ## The command `WRP` (45 R211 to R213)

The register number is checked first, then the access, then the value. -/

section Wrp
variable {s : State} {r : Byte} {reg : Reg} {v : U32}

theorem exec_wrp_of_absent (hnum : Reg.ofNumber r = none) :
    exec (.wrp r v) s = .next (refusedState .eReg s) := by
  change execWrp r v s = _
  simp only [execWrp, hnum, raise_eq]

variable (hnum : Reg.ofNumber r = some reg)
include hnum

theorem exec_wrp_of_readOnly (hro : reg.readOnly = true) : exec (.wrp r v) s = .next (refusedState .eRo s) := by
  change execWrp r v s = _
  simp only [execWrp, hnum, hro, if_true, raise_eq]

variable (hrw : reg.readOnly = false)
include hrw

theorem exec_wrp_eq {x : U32} (hval : storedValue reg v s = some x) :
    exec (.wrp r v) s = .next (answeredState .ok 0 (writeReg reg x s)) := by
  change execWrp r v s = _
  simp only [execWrp, hnum, hrw, hval, Bool.false_eq_true, if_false, respond_eq]

theorem exec_wrp_of_illegal_value (hval : storedValue reg v s = none) :
    exec (.wrp r v) s = .next (refusedState .eVal s) := by
  change execWrp r v s = _
  simp only [execWrp, hnum, hrw, hval, Bool.false_eq_true, if_false, raise_eq]

end Wrp

section WrpStores
variable (reg : Reg) {s : State} {v : U32} (hrw : reg.readOnly = false)
include hrw

/-- A value the register takes is stored in it, and nothing else changes but the port. -/
theorem wrp_stores {x : U32} (hval : storedValue reg v s = some x) :
    ∃ t, exec (.wrp reg.number v) s = .next t ∧ Answered s t 0 0 ∧ t = { writeReg reg x s with io := t.io } :=
  ⟨_, exec_wrp_eq (ofNumber_number reg) hrw hval, answered_ok (congrArg (Port.answer · .ok 0) (writeReg_io ..)), rfl⟩

theorem wrp_refuses (hval : storedValue reg v s = none) :
    ∃ t, exec (.wrp reg.number v) s = .next t ∧ RefusedWith .eVal s t :=
  ⟨_, exec_wrp_of_illegal_value (ofNumber_number reg) hrw hval, refusedWith_refusedState ..⟩

end WrpStores

/-! ### Float parameters (45 R212) -/

theorem units_lt_of_flt {a b : F32} (h : flt a b = true) : units a < units b := by
  simp only [flt, Bool.and_eq_true, decide_eq_true_eq] at h
  exact h.2

theorem not_flt_of_fle {a b : F32} (h : fle a b = true) : ¬ flt b a = true := fun hlt => by
  have hba := units_lt_of_flt hlt
  simp only [fle, Bool.and_eq_true, decide_eq_true_eq] at h
  omega

/-- Between ordered bounds the order of the two tests of `clamp` makes no difference. -/
theorem clampedTo_clamp (v : F32) {lo hi : F32} (h : units lo ≤ units hi) : ClampedTo v lo hi (clamp v lo hi) := by
  refine ⟨fun hlo => if_pos hlo, fun hhi => ?_, fun hlo hhi => ?_⟩
  · have habove : ¬ flt v lo = true := fun hlo => by
      have := units_lt_of_flt hlo
      have := units_lt_of_flt hhi
      omega
    rw [clamp, if_neg habove, if_pos hhi]
  · rw [clamp, if_neg (not_flt_of_fle hlo), if_neg (not_flt_of_fle hhi)]

theorem clampedParam_of_not_nan {v : F32} (hv : isNaN v = false) (lo hi : F32) :
    clampedParam v lo hi = some (clamp v lo hi) := if_neg (by rw [hv]; nofun)

theorem clampedParam_of_nan {v : F32} (hv : isNaN v = true) (lo hi : F32) : clampedParam v lo hi = none := if_pos hv

/-- A clamped parameter stores the clamped value, for bounds that are ordered. -/
theorem wrp_clamps (reg : Reg) {s : State} {v lo hi : F32} (hv : isNaN v = false) (hrw : reg.readOnly = false)
    (hstored : storedValue reg v s = clampedParam v lo hi) (h : units lo ≤ units hi) :
    ∃ t x, exec (.wrp reg.number v) s = .next t ∧ t = { writeReg reg x s with io := t.io } ∧
      Answered s t 0 0 ∧ ClampedTo v lo hi x := by
  obtain ⟨t, hx, hans, ht⟩ := wrp_stores reg hrw (hstored.trans (clampedParam_of_not_nan hv lo hi))
  exact ⟨t, _, hx, ht, hans, clampedTo_clamp v h⟩

/-- The registers 0x00 to 0x04 are the clamped parameters. -/
theorem exists_clamped_register {r : Byte} (hr : r.toNat ≤ 4) :
    ∃ reg lo hi, Reg.ofNumber r = some reg ∧ reg.readOnly = false ∧
      ∀ v s, storedValue reg v s = clampedParam v lo hi := by
  unfold Reg.ofNumber
  interval_cases r.toNat <;> exact ⟨_, _, _, rfl, rfl, fun _ _ => rfl⟩

/-- Settles O52: each parameter is clamped to its own bounds, and a NaN has no clamped value. -/
theorem wrpClampsTheFloatParameters : Obligations.WrpClampsTheFloatParameters := by
  refine fun s v => ⟨fun hv => ?_, fun hv r hr => ?_⟩
  · exact ⟨wrp_clamps .delayms hv rfl rfl (by decide), wrp_clamps .sweep hv rfl rfl (by decide),
      wrp_clamps .speed hv rfl rfl (by decide), wrp_clamps .feedback hv rfl rfl (by decide),
      wrp_clamps .mix hv rfl rfl (by decide)⟩
  · obtain ⟨reg, lo, hi, hnum, hrw, hstored⟩ := exists_clamped_register hr
    exact ⟨_, exec_wrp_of_illegal_value hnum hrw ((hstored v s).trans (clampedParam_of_nan hv lo hi)),
      refusedWith_refusedState ..⟩

/-! ### Selectors (45 R211) -/

theorem checkedSelector_of_le {v : U32} {top : Nat} (h : v.toNat ≤ top) : checkedSelector v top = some v :=
  if_neg h.not_gt

theorem checkedSelector_of_lt {v : U32} {top : Nat} (h : top < v.toNat) : checkedSelector v top = none := if_pos h

/-- Settles O53: each selector is checked against its own maximum. -/
theorem wrpChecksTheSelectors : Obligations.WrpChecksTheSelectors := fun _ _ =>
  ⟨fun h => wrp_stores .waveform rfl (checkedSelector_of_le h),
    fun h => wrp_refuses .waveform rfl (checkedSelector_of_lt h),
    fun h => wrp_stores .interp rfl (checkedSelector_of_le h),
    fun h => wrp_refuses .interp rfl (checkedSelector_of_lt h),
    fun h => wrp_stores .invert rfl (checkedSelector_of_le h),
    fun h => wrp_refuses .invert rfl (checkedSelector_of_lt h)⟩

/-! ### Configuration registers and `ERR` (45 R211) -/

/-- Settles O54: the four registers take any data, and of `ERR` only the implemented bits can be cleared. -/
theorem wrpStoresConfigurationAndClearsErr : Obligations.WrpStoresConfigurationAndClearsErr := fun s v =>
  have herr : exec (.wrp 0x11 v) s = .next (answeredState .ok 0 (writeReg .err (clearErr s.err v) s)) :=
    exec_wrp_eq (ofNumber_number .err) rfl rfl
  ⟨wrp_stores .cfgFs rfl rfl, wrp_stores .cfgMaxblk rfl rfl, wrp_stores .cfgNch rfl rfl,
    _, herr, answered_ok rfl, rfl, clearErr_bit s.err v⟩

/-! ### Read-only and absent registers (45 R213) -/

/-- A number with no row in the register table names no register. -/
theorem ofNumber_eq_none {s : State} {r : Byte} (h : r ∉ (registerTable s).map Prod.fst) : Reg.ofNumber r = none := by
  refine Option.eq_none_iff_forall_ne_some.2 fun reg hnum => h ?_
  exact List.mem_map_of_mem (f := Prod.fst) ((mem_registerTable_iff s r _).2 ⟨reg, hnum, rfl⟩)

/-- Settles O55: the number is checked first, then the access. -/
theorem wrpRefusesReadOnlyAndAbsentRegisters : Obligations.WrpRefusesReadOnlyAndAbsentRegisters := by
  refine fun s r v => ⟨fun hmem => ?_, fun habsent => ?_⟩
  · obtain ⟨reg, hnum, hro⟩ := (Option.any_eq_true Reg.readOnly _).1 ((mem_readOnlyNumbers r).1 hmem)
    exact ⟨_, exec_wrp_of_readOnly hnum hro, refusedWith_refusedState ..⟩
  · exact ⟨_, exec_wrp_of_absent (ofNumber_eq_none habsent), refusedWith_refusedState ..⟩

/-! ## The command `RDP` (45 R214) -/

theorem exec_rdp_eq {s : State} {r : Byte} {reg : Reg} (hnum : Reg.ofNumber r = some reg) :
    exec (.rdp r) s = .next (answeredState .ok (readReg reg s) s) := by
  change execRdp r s = _
  simp only [execRdp, hnum, respond_eq]

theorem exec_rdp_of_absent {s : State} {r : Byte} (hnum : Reg.ofNumber r = none) :
    exec (.rdp r) s = .next (refusedState .eReg s) := by
  change execRdp r s = _
  simp only [execRdp, hnum, raise_eq]

/-- Settles O56: the rows of the register table are the registers with what a read of them answers. -/
theorem rdpAnswersEveryRegister : Obligations.RdpAnswersEveryRegister := by
  refine fun s r => ⟨fun v hrow => ?_, fun habsent => ?_⟩
  · obtain ⟨reg, hnum, rfl⟩ := (mem_registerTable_iff s r v).1 hrow
    exact ⟨_, exec_rdp_eq hnum, rfl, answered_ok rfl⟩
  · exact ⟨_, exec_rdp_of_absent (ofNumber_eq_none habsent), refusedWith_refusedState ..⟩

/-! ## The commands `PREP`, `REL` and `CLR` (45 R215 to R224) -/

/-- A fill of the delay memory, slot by slot: zero in the first `len` slots of the first `nch` banks, the old content
elsewhere (10 R48). -/
theorem slot_of_dmZero {s t : State} {nch len : Nat} (h : t.dm = dmZero s.dm nch len) {c : Nat} (i : Nat)
    (hc : c < 256) : slot t c i = if c < nch ∧ i < len then 0 else slot s c i := by
  rw [slot, h, dmRead_dmZero]
  simp only [keyReachable_slotKey nch len c i hc, slot]

theorem slot_of_dmZero_inside {s t : State} {nch len c i : Nat} (h : t.dm = dmZero s.dm nch len) (hc : c < 256)
    (hnch : c < nch) (hlen : i < len) : slot t c i = 0 := by
  rw [slot_of_dmZero h i hc, if_pos ⟨hnch, hlen⟩]

theorem slot_of_dmZero_outside {s t : State} {nch len c i : Nat} (h : t.dm = dmZero s.dm nch len) (hc : c < 256)
    (hout : nch ≤ c ∨ len ≤ i) : slot t c i = slot s c i := by
  rw [slot_of_dmZero h i hc, if_neg (by omega)]

theorem exec_clr_eq {s : State} (hs : s.session = .idle) : exec .clr s = .next (answeredState .ok 0
    { s with dm := dmZero s.dm s.prep.nch.toNat s.prep.len.toNat, widx := 0, lfophase := 0 }) := by
  change execClr s = _
  rw [execClr, if_neg (not_not.2 hs), respond_eq]

/-- Settles O60: the fill covers the banks and slots of the session. -/
theorem clrEmptiesTheDelayLine : Obligations.ClrEmptiesTheDelayLine := fun _ hs =>
  ⟨_, exec_clr_eq hs, answered_ok rfl, rfl, fun _ _ hnch hc hlen => slot_of_dmZero_inside rfl hc hnch hlen,
    fun _ _ hc hout => slot_of_dmZero_outside rfl hc hout⟩

/-- Settles O59: `REL` has no guard. -/
theorem relEndsTheSession : Obligations.RelEndsTheSession := fun _ => ⟨_, rfl, answered_ok rfl, rfl⟩

theorem exec_prep_eq {s : State} (hs : s.session ≠ .block) (hvalid : validConfig s.cfg = true)
    (hfits : lineLength s.cfg.fs ≤ Config.lmax) : exec .prep s = .next (preparedState s) := by
  change execPrep s = _
  rw [execPrep, if_neg hs, if_neg (by rw [hvalid]; nofun), if_neg hfits.not_gt, respond_eq, preparedState]

/-- Settles O57: the rate is positive, so the statement's length is the one computed in units. -/
theorem prepStartsASession : Obligations.PrepStartsASession := by
  intro s l hs hfin hpos hblk hnch hbanks hl hfits
  have hline : l = lineLength s.cfg.fs := by
    have := lineLength_eq s.cfg.fs (units_nonneg_of_val hpos.le)
    omega
  subst hline
  have hcap : Config.nchMax < 256 := by decide
  exact ⟨_, exec_prep_eq hs ((validConfig_iff s.cfg).2 ⟨⟨hfin, hpos⟩, hblk, hnch, hbanks⟩) hfits, answered_ok rfl, rfl,
    fun _ _ hc hi => slot_of_dmZero_inside rfl (by omega) hc hi, fun _ _ hc hout => slot_of_dmZero_outside rfl hc hout⟩

theorem exec_prep_of_bad_config {s : State} (hs : s.session ≠ .block)
    (hbad : validConfig s.cfg = true → Config.lmax < lineLength s.cfg.fs) :
    exec .prep s = .next (refusedState .eCfg s) := by
  change execPrep s = _
  rw [execPrep, if_neg hs]
  by_cases hvalid : validConfig s.cfg = true
  · rw [if_neg (by rw [hvalid]; nofun), if_pos (hbad hvalid), raise_eq]
  · rw [if_pos (by simpa using hvalid), raise_eq]

/-- Settles O58: of a configuration that is valid, only the line can be too long. -/
theorem prepRefusesABadConfiguration : Obligations.PrepRefusesABadConfiguration := by
  refine fun s hs hbad => ⟨_, exec_prep_of_bad_config hs fun hvalid => ?_, refusedWith_refusedState ..⟩
  obtain ⟨⟨hfin, hpos⟩, hblk, hnch, hbanks⟩ := (validConfig_iff s.cfg).1 hvalid
  obtain h | h | h | h | h | hlong := hbad
  · exact absurd hfin (by rw [h]; nofun)
  · exact absurd hpos h.not_gt
  · exact absurd hblk (by rw [h]; decide)
  · exact absurd hnch (by rw [h]; decide)
  · exact absurd hbanks h.not_ge
  · have := lineLength_eq s.cfg.fs (units_nonneg_of_val hpos.le)
    omega

end Sys2Proof.Machine
end

section
/-! SUPPORT. Exceptions (60): a command that is refused leaves only its `ERR` bit and its response behind, and the bits of
`ERR` stay until a `WRP` of `ERR` clears them. -/

namespace Sys2Proof.Machine

/-! ## What a refused command leaves (60 R243) -/

/-- A command is refused, or it gives one response with status 0. -/
theorem exec_refused_or_ok {i : Instr} {s t : State} (h : exec i s = .next t) :
    (∃ e, t = refusedState e s) ∨ ∃ d, t.io = s.io.answer .ok d := by
  cases exec_ends h with
  | @refused e _ => exact .inl ⟨e, rfl⟩
  | @done d _ he => exact .inr ⟨d, congrArg (Port.answer · .ok d) he.io_eq⟩

/-- A step that takes a word refuses it, or gives one response with status 0. -/
theorem step_refused_or_ok {s t : State} {w : Word64} {rest : List Word64} (hpending : s.io.pending = w :: rest)
    (h : step s = .next t) :
    (∃ e, t = refusedState e { s with io := { s.io with pending := rest } }) ∨
      ∃ d, t.io = { s.io with pending := rest }.answer .ok d := by
  rw [step_of_pending s w rest hpending] at h
  cases hd : decode w <;> rw [hd] at h
  case instr i => exact exec_refused_or_ok h
  case unknownOpcode => cases h; exact .inl ⟨.eOpc, rfl⟩
  case reservedField => cases h; exact .inl ⟨.eRsv, rfl⟩

/-- The newest response of a port that has just answered is the answer. -/
theorem response_of_answer {io io' : Port} {st : Status} {d : U32} {r : Word64} (h : io' = io.answer st d)
    (hr : io'.responses = r :: io.responses) : r = responseWord st d := by
  rw [h, answer_responses] at hr
  exact (List.cons.inj hr).1.symm

/-- Settles O11: the response's status says which of the two ways the step ended. -/
theorem refusedCommandsChangeOnlyErr : Obligations.RefusedCommandsChangeOnlyErr := by
  intro s t w r rest hpending hstep hresp hstatus
  obtain ⟨e, rfl⟩ | ⟨d, hio⟩ := step_refused_or_ok hpending hstep
  · have hr : r = responseWord e 0 := response_of_answer (io := { s.io with pending := rest }) rfl hresp
    exact ⟨e, by rw [hr, responseWord_status], refusedWith_refusedState ..⟩
  · have hr : r = responseWord .ok d := response_of_answer hio hresp
    exact absurd (by rw [hr, responseWord_status]; rfl) hstatus

/-! ## The sticky bits of `ERR` (60 R244, 10 R39) -/

/-- A `WRP` of `ERR` that completes has cleared the bits of its data. -/
theorem Effect.err_eq_clearErr {s u : State} {v : U32} (h : Effect s (.wrp 0x11 v) u) :
    u.err = clearErr s.err v := by
  cases h with
  | wrp hnum hval =>
    cases Option.some.inj hnum
    cases Option.some.inj hval
    rfl

theorem setErr_keeps_bit {err : U32} {j : Nat} (h : err.getLsbD j = true) (e : Status) :
    (setErr err e).getLsbD j = true := by
  rw [setErr_bit, h, Bool.true_or]

/-- The write clears no bit that its data leaves clear. -/
theorem data_bit_of_clearErr {err v : U32} {j : Nat} (hset : err.getLsbD j = true)
    (hclear : (clearErr err v).getLsbD j = false) : v.getLsbD j = true := by
  rw [clearErr_bit, hset, Bool.true_and, Bool.not_eq_false', Bool.and_eq_true] at hclear
  exact hclear.1

/-- Settles O12: a refusal only sets a bit, and of the commands that complete only a `WRP` of `ERR` writes it. -/
theorem errIsClearedOnlyByWrpErr : Obligations.ErrIsClearedOnlyByWrpErr := by
  intro i s t j hx hset hclear
  cases exec_ends hx with
  | @refused e _ => exact absurd (setErr_keeps_bit hset e) (Bool.eq_false_iff.1 hclear)
  | @done d u h =>
    have hu : u.err.getLsbD j = false := hclear
    by_cases hwrp : ∃ v, i = .wrp 0x11 v
    · obtain ⟨v, rfl⟩ := hwrp
      rw [h.err_eq_clearErr] at hu
      exact ⟨v, rfl, data_bit_of_clearErr hset hu⟩
    · rw [h.err_eq fun v hv => hwrp ⟨v, hv⟩, hset] at hu
      cases hu

end Sys2Proof.Machine
end

section
/-! SUPPORT. Power-on reset (70 R270): what each group of registers shows. -/

namespace Sys2Proof.Machine

/-- The values of the register table are what a read of each register answers. -/
theorem registerTable_values (s : State) : (registerTable s).map Prod.snd = Reg.list.map fun reg => readReg reg s := by
  rw [registerTable_eq, List.map_map]
  rfl

/-- `DELAYMS` alone is not zero: it starts at 5.0, the bottom of its range (10 R27). -/
theorem readReg_written_reset :
    (Reg.written.map fun reg => readReg reg State.reset) = [0x40A00000, 0, 0, 0, 0, 0, 0, 0, 0, 0, 0] := rfl

theorem readReg_statuses_reset :
    (Reg.statuses.map fun reg => readReg reg State.reset) = [0, 0, 0, 0, 0, 0, 0, 0, 0] := rfl

theorem readReg_latched_reset :
    (Reg.latched.map fun reg => readReg reg State.reset) = [0, 0, 0, 0, 0, 0, 0, 0] ++
      [0x424A4631, BitVec.ofNat 32 Config.nchMax, BitVec.ofNat 32 Config.lmax] := rfl

/-- Settles O20: the reset table group by group, each register through what `RDP` answers for it. -/
theorem resetRegisterValues : Obligations.ResetRegisterValues := by
  refine ⟨?_, rfl, rfl⟩
  rw [registerTable_values, Reg.list, List.map_append, List.map_append, readReg_written_reset, readReg_statuses_reset,
    readReg_latched_reset, ← List.append_assoc]

end Sys2Proof.Machine
end
